-- ==== Sys2Proof/Word.lean ====
section
/-! DEFINITION. The two sizes of data the block has: registers and command words of 32 bits
(spec/10_state.md R22, spec/30_encoding.md R81) and memory bytes of 8 bits (spec/00_scope.md R9). -/

namespace Sys2Proof

/-- A register, a command word or a host bus value (R22, R81). -/
abbrev Word := BitVec 32

/-- One byte of BUF or IMG (R9). -/
abbrev Byte := BitVec 8

end Sys2Proof
end

