-- ==== Sys2Proof/Syntax.lean ====
section
/-! DEFINITION. The commands of the block, one constructor per row of spec/opcode_table.json
(spec/30_encoding.md R83), with the MODE fields of R84 as arguments. -/

namespace Sys2Proof

/-- A command. Operands are not part of it: they stand in the ARG registers (R86). -/
inductive Instr where
  | nop
  | crcInit
  | crcUpdate
  | crcFinal
  | crcBlock
  | sigCheck
  /-- `v` is MODE.V: validate the CRC (R84). -/
  | chunkCheck (v : Bool)
  | chunkEmit
  | hdrLoad
  | pixRead
  | pixWrite
  | imgImport
  | imgExport
  | imgZero
  /-- `p` is MODE.P: a previous line is supplied (R84). -/
  | lineRecon (p : Bool)
  /-- `sel` is MODE.SEL, `p` is MODE.P (R84). -/
  | lineFilter (sel : Nat) (p : Bool)
  | imgRecon
  /-- `sel` is MODE.SEL (R84). -/
  | imgFilter (sel : Nat)
  | stgRead
  | stgWrite
  | stgFrame
  | stgDetect
  | stgExtract
  deriving DecidableEq, Repr

end Sys2Proof
end

