-- ==== Sys2Proof/WellFormed.lean ====
section
/-! DEFINITION. Which terms of Instr are commands: SEL has three bits (spec/30_encoding.md R84). -/

namespace Sys2Proof

/-- The check on a term of `Instr`: a SEL value fits its three bits. Values 6 and 7 are legal encodings
(R85 (b)); their execution raises InvalidFilterType. -/
def Instr.wf : Instr → Bool
  | .nop => true
  | .crcInit => true
  | .crcUpdate => true
  | .crcFinal => true
  | .crcBlock => true
  | .sigCheck => true
  | .chunkCheck _ => true
  | .chunkEmit => true
  | .hdrLoad => true
  | .pixRead => true
  | .pixWrite => true
  | .imgImport => true
  | .imgExport => true
  | .imgZero => true
  | .lineRecon _ => true
  | .lineFilter sel _ => decide (sel < 8)
  | .imgRecon => true
  | .imgFilter sel => decide (sel < 8)
  | .stgRead => true
  | .stgWrite => true
  | .stgFrame => true
  | .stgDetect => true
  | .stgExtract => true

end Sys2Proof
end

