-- ==== Sys2Proof/Decode.lean ====
section
/-! DEFINITION. The decoder of the 32-bit command word, total on every word and rejecting by name, and the
encoder (spec/30_encoding.md R81 to R85, R92). -/

namespace Sys2Proof

/-- Why a word is no command (R85 (a)). All three make the sequencer raise IllegalCommand. -/
inductive Reject where
  /-- RSV (bits 31:16) is not 0. -/
  | reservedBits
  /-- OPCODE is not in the map of R83. -/
  | unknownOpcode
  /-- A MODE bit outside the command's defined-bit mask is set. -/
  | undefinedMode
  deriving DecidableEq, Repr

/-- OPCODE, bits 7:0 (R81). -/
def opcodeOf (w : Word) : BitVec 8 := w.extractLsb' 0 8

/-- MODE, bits 15:8 (R81). -/
def modeOf (w : Word) : BitVec 8 := w.extractLsb' 8 8

/-- RSV, bits 31:16 (R81). -/
def rsvOf (w : Word) : BitVec 16 := w.extractLsb' 16 16

/-- MODE.V of CHUNK_CHECK, MODE bit 0 (R84). -/
def modeV (m : BitVec 8) : Bool := m.getLsbD 0

/-- MODE.P of LINE_RECON and LINE_FILTER, MODE bit 3 (R84). -/
def modeP (m : BitVec 8) : Bool := m.getLsbD 3

/-- MODE.SEL of LINE_FILTER and IMG_FILTER, MODE bits 2:0 (R84). -/
def modeSel (m : BitVec 8) : Nat := (m.extractLsb' 0 3).toNat

/-- One row of the opcode map: the command's defined-bit mask (R84) and the command a MODE value gives. -/
structure OpcodeRow where
  mask : BitVec 8
  build : BitVec 8 → Instr

/-- The opcode map of R83 with the masks of R84: nothing for a reserved OPCODE. -/
def opcodeRow (op : Nat) : Option OpcodeRow :=
  match op with
  | 0x00 => some ⟨0x00, fun _ => .nop⟩
  | 0x01 => some ⟨0x00, fun _ => .crcInit⟩
  | 0x02 => some ⟨0x00, fun _ => .crcUpdate⟩
  | 0x03 => some ⟨0x00, fun _ => .crcFinal⟩
  | 0x04 => some ⟨0x00, fun _ => .crcBlock⟩
  | 0x05 => some ⟨0x00, fun _ => .sigCheck⟩
  | 0x06 => some ⟨0x01, fun m => .chunkCheck (modeV m)⟩
  | 0x07 => some ⟨0x00, fun _ => .chunkEmit⟩
  | 0x10 => some ⟨0x00, fun _ => .hdrLoad⟩
  | 0x11 => some ⟨0x00, fun _ => .pixRead⟩
  | 0x12 => some ⟨0x00, fun _ => .pixWrite⟩
  | 0x13 => some ⟨0x00, fun _ => .imgImport⟩
  | 0x14 => some ⟨0x00, fun _ => .imgExport⟩
  | 0x15 => some ⟨0x00, fun _ => .imgZero⟩
  | 0x20 => some ⟨0x08, fun m => .lineRecon (modeP m)⟩
  | 0x21 => some ⟨0x0F, fun m => .lineFilter (modeSel m) (modeP m)⟩
  | 0x22 => some ⟨0x00, fun _ => .imgRecon⟩
  | 0x23 => some ⟨0x07, fun m => .imgFilter (modeSel m)⟩
  | 0x30 => some ⟨0x00, fun _ => .stgRead⟩
  | 0x31 => some ⟨0x00, fun _ => .stgWrite⟩
  | 0x32 => some ⟨0x00, fun _ => .stgFrame⟩
  | 0x33 => some ⟨0x00, fun _ => .stgDetect⟩
  | 0x34 => some ⟨0x00, fun _ => .stgExtract⟩
  | _ => none

/-- The decoder: the three tests of the sequencer's step in their order (R82), then the command. -/
def decode (w : Word) : Except Reject Instr :=
  if rsvOf w ≠ 0 then .error .reservedBits
  else
    match opcodeRow (opcodeOf w).toNat with
    | none => .error .unknownOpcode
    | some row =>
      if modeOf w &&& ~~~row.mask ≠ 0 then .error .undefinedMode
      else .ok (row.build (modeOf w))

/-- The decoder on an instruction of `nbits` bits given as a number: the command word is the low `nbits`
bits, every bit above them 0. -/
def decodeTableWord (nbits w : Nat) : Option Instr :=
  match decode (BitVec.ofNat 32 (w % 2 ^ nbits)) with
  | .ok i => some i
  | .error _ => none

/-- The word with the given MODE and OPCODE, `OPCODE | MODE << 8` (R92), RSV = 0. -/
def commandWord (mode op : BitVec 8) : Word := 0#16 ++ mode ++ op

/-- The MODE value with the bit V (R84). -/
def encodeV (v : Bool) : BitVec 8 := 0#7 ++ BitVec.ofBool v

/-- The MODE value with the fields P and SEL (R84). -/
def encodePSel (p : Bool) (sel : Nat) : BitVec 8 := 0#4 ++ BitVec.ofBool p ++ BitVec.ofNat 3 sel

/-- The encoder: the word of a well-formed command (R83, R84, R92). -/
def encode : Instr → Word
  | .nop => commandWord 0x00 0x00
  | .crcInit => commandWord 0x00 0x01
  | .crcUpdate => commandWord 0x00 0x02
  | .crcFinal => commandWord 0x00 0x03
  | .crcBlock => commandWord 0x00 0x04
  | .sigCheck => commandWord 0x00 0x05
  | .chunkCheck v => commandWord (encodeV v) 0x06
  | .chunkEmit => commandWord 0x00 0x07
  | .hdrLoad => commandWord 0x00 0x10
  | .pixRead => commandWord 0x00 0x11
  | .pixWrite => commandWord 0x00 0x12
  | .imgImport => commandWord 0x00 0x13
  | .imgExport => commandWord 0x00 0x14
  | .imgZero => commandWord 0x00 0x15
  | .lineRecon p => commandWord (encodePSel p 0) 0x20
  | .lineFilter sel p => commandWord (encodePSel p sel) 0x21
  | .imgRecon => commandWord 0x00 0x22
  | .imgFilter sel => commandWord (encodePSel false sel) 0x23
  | .stgRead => commandWord 0x00 0x30
  | .stgWrite => commandWord 0x00 0x31
  | .stgFrame => commandWord 0x00 0x32
  | .stgDetect => commandWord 0x00 0x33
  | .stgExtract => commandWord 0x00 0x34

/-- The suffix `.S` and the digit of SEL (R92). -/
def selSuffix (sel : Nat) : String := ".S" ++ toString sel

/-- The suffix `.P` when P is set (R92). -/
def pSuffix (p : Bool) : String := if p then ".P" else ""

/-- A command in the spec's assembler notation: its mnemonic with its MODE suffixes (R92). -/
def asmText : Instr → String
  | .nop => "NOP"
  | .crcInit => "CRC_INIT"
  | .crcUpdate => "CRC_UPDATE"
  | .crcFinal => "CRC_FINAL"
  | .crcBlock => "CRC_BLOCK"
  | .sigCheck => "SIG_CHECK"
  | .chunkCheck v => "CHUNK_CHECK" ++ (if v then ".V" else "")
  | .chunkEmit => "CHUNK_EMIT"
  | .hdrLoad => "HDR_LOAD"
  | .pixRead => "PIX_READ"
  | .pixWrite => "PIX_WRITE"
  | .imgImport => "IMG_IMPORT"
  | .imgExport => "IMG_EXPORT"
  | .imgZero => "IMG_ZERO"
  | .lineRecon p => "LINE_RECON" ++ pSuffix p
  | .lineFilter sel p => "LINE_FILTER" ++ selSuffix sel ++ pSuffix p
  | .imgRecon => "IMG_RECON"
  | .imgFilter sel => "IMG_FILTER" ++ selSuffix sel
  | .stgRead => "STG_READ"
  | .stgWrite => "STG_WRITE"
  | .stgFrame => "STG_FRAME"
  | .stgDetect => "STG_DETECT"
  | .stgExtract => "STG_EXTRACT"

end Sys2Proof
end

