-- ==== Sys2Proof/Config.lean ====
section
/-! DEFINITION. What an instance fixes when it is built (spec/00_scope.md R7), and the free values:
what the spec leaves open and no proof may see (spec/20_memory.md R69). -/

namespace Sys2Proof

/-- The four build-time parameters of one instance (R7). The spec leaves BUF_BYTES and IMG_BYTES open as
arguments of the model; the state carries them, so a statement about every state is one about every instance. -/
structure Params where
  /-- BUF_BYTES, the size of BUF in bytes. -/
  bufBytes : Nat
  /-- IMG_BYTES, the size of IMG in bytes. -/
  imgBytes : Nat
  /-- TAG_CHECK: false is 0 = NONE, true is 1 = ASCII. -/
  tagCheck : Bool
  /-- PAD_MODE: false is 0 = KEEP, true is 1 = ZERO. -/
  padMode : Bool
  deriving DecidableEq, Repr

/-- The legal values of R7: both sizes from 16 to 2^24. -/
abbrev Params.legal (p : Params) : Prop :=
  (16 ≤ p.bufBytes ∧ p.bufBytes ≤ 2 ^ 24) ∧ (16 ≤ p.imgBytes ∧ p.imgBytes ≤ 2 ^ 24)

/-- The instance that the reset state names: TAG_CHECK = 1 and PAD_MODE = 1 are R7's reference values;
the two sizes are the model's choice (DESIGN CHOICE, log 1: the instance of spec/95_test_vectors.md section 0). -/
def Params.reference : Params :=
  { bufBytes := 0x1000, imgBytes := 0x1000, tagCheck := true, padMode := true }

/-- Free value: what the k-th host read of a byte returns while the pending command is going to write that
byte ("returns any value (a model draw)", R69). It has no body, so nothing can be proved of it (log 6). -/
opaque Config.freeByte : Nat → Byte

end Sys2Proof
end

