-- ==== Sys2Proof/Machine/State.lean ====
section
/-! DEFINITION. The state of one block instance: every register of spec/10_state.md R23, the hidden bit of
R49, BUF and IMG, and the model's own fields for the outside world; the reasons a step can stop; reset. -/

namespace Sys2Proof.Machine

/-- The 15 pixel kinds, in the order of their codes 0 to 14 (spec/42_pixel.md R140). -/
inductive PixelKind where
  | g1 | g2 | g4 | g8 | g16
  | rgb8 | rgb16
  | p1 | p2 | p4 | p8
  | ga8 | ga16
  | rgba8 | rgba16
  deriving DecidableEq, Repr

/-- One row of the kind table of R140, without the name: the code, the colour type, the bit depth M, the
channels C, the bits per pixel BPP, the samples per span SPS and SPAN_BYTES. -/
structure KindRow where
  code : Nat
  colorType : Nat
  depth : Nat
  chans : Nat
  bpp : Nat
  sps : Nat
  spanBytes : Nat
  deriving DecidableEq, Repr

/-- IMG_STATE, the lifecycle of the image in IMG: three values, 3 never occurs (spec/10_state.md R43, R48). -/
inductive ImgState where
  | empty
  | filtered
  | raw
  deriving DecidableEq, Repr

/-- The error codes, in the order of their numbers 0x00 to 0x19 (spec/60_exceptions.md R260). STATUS.CODE takes
exactly these values. -/
inductive ErrorCode where
  | ok
  | badSignature
  | truncated
  | badCrc
  | invalidChunkTag
  | invalidColorType
  | invalidBitDepth
  | invalidFilterType
  | invalidPixelKind
  | noHeaderChunk
  | noImageData
  | noImageDataChunks
  | alreadyFiltered
  | outOfBounds
  | insufficientSize
  | integerOverflow
  | scanlineMismatch
  | pixelKindMismatch
  | noPixels
  | unsupportedPixelKind
  | imageTooSmall
  | invalidBitOffset
  | noStegoData
  | pixelMismatch
  | unsupportedMethod
  | illegalCommand
  deriving DecidableEq, Repr

/-- The registers a host can address (spec/10_state.md R23). -/
inductive RegName where
  | cmd
  | status
  | ctrl
  | errA
  | errB
  | arg (k : Fin 8)
  | res (k : Fin 8)
  | crcState
  | width
  | height
  | hdrFields
  | hdrInterlace
  | kindInfo
  | stride
  | spanCount
  | imgLen
  | imgInfo
  | capBits
  | capBytes
  | paramBufBytes
  | paramImgBytes
  | paramFlags
  deriving DecidableEq, Repr

/-- One access of the host to the block address space, of `bytes` bytes (spec/20_memory.md R61, R62). -/
inductive BusAccess where
  | read (addr : Word) (bytes : Nat)
  /-- The low `8 * bytes` bits of `value` are written. -/
  | write (addr : Word) (bytes : Nat) (value : Word)
  deriving DecidableEq, Repr

/-- Who moves next (spec/00_scope.md R6): the host with one access, the sequencer, or a hardware reset from
outside (spec/70_reset_and_hazards.md R290). -/
inductive Event where
  | host (access : BusAccess)
  | sequencer
  | hardwareReset
  deriving DecidableEq, Repr

/-- BUF and IMG by block address (spec/20_memory.md R61): the bytes written since hardware reset and nothing else,
at strictly rising addresses. An address that is not listed has no value (spec/10_state.md R54). -/
abbrev Memory := List Host.Cell

/-- What stops the machine. -/
inductive Fault where
  /-- Raised by any command, and by a host read, that reads the byte at `addr` when it has not been written since
  hardware reset (spec/10_state.md R54, UninitRead). Safe: the hardware goes on with an unspecified byte. -/
  | uninitRead (addr : Nat)
  deriving DecidableEq, Repr

/-- Steps that do not exist in the model. -/
inductive Refusal where
  /-- A command without a meaning, refused by exec's arm: there is none. Safe. -/
  | notModelled (mnemonic : String)
  /-- Raised by a host access that is misaligned, of a wrong width, unmapped or past a memory's size
  (spec/20_memory.md R63: "A model refuses such an access"). Safe. -/
  | busError (access : BusAccess)
  /-- Raised by a host write of CMD, CTRL, an ARG register or a BUF or IMG byte while BUSY = 1
  (spec/70_reset_and_hazards.md R300: "a model refuses it"). Safe. -/
  | protocolViolation (access : BusAccess)
  /-- Raised by a schedule that gives the sequencer a turn while nothing is pending: "The sequencer has a step exactly
  when `pending = 1`" (spec/30_encoding.md R82). Safe (log 4). -/
  | sequencerIdle
  deriving DecidableEq, Repr

/-- The state of one block instance (spec/10_state.md R20) and, last, the model's own three fields. -/
structure State where
  /-- CMD (R24). -/
  cmd : Word
  /-- The hidden bit: a command is waiting for the sequencer's step (R49). -/
  pending : Bool
  /-- STATUS.BUSY (R28). -/
  busy : Bool
  /-- STATUS.ERR (R29). -/
  err : Bool
  /-- STATUS.STICKY (R30). -/
  sticky : Bool
  /-- STATUS.CODE (R31). -/
  code : ErrorCode
  /-- ERR_A (R33). -/
  errA : Word
  /-- ERR_B (R33). -/
  errB : Word
  /-- ARG0..ARG7 (R25). -/
  args : Vector Word 8
  /-- RES0..RES7 (R26). -/
  res : Vector Word 8
  /-- CRC_STATE (R34). -/
  crcState : Word
  /-- WIDTH (R35). -/
  width : Word
  /-- HEIGHT (R36). -/
  height : Word
  /-- HDR_FIELDS (R37). -/
  hdrFields : Word
  /-- HDR_INTERLACE (R38). -/
  hdrInterlace : Word
  /-- KIND_INFO (R39): no kind, or the configured kind, from whose table row the register's fields are read (log 17). -/
  kind : Option PixelKind
  /-- STRIDE (R40). -/
  stride : Word
  /-- SPAN_COUNT (R41). -/
  spanCount : Word
  /-- IMG_LEN (R42). -/
  imgLen : Word
  /-- IMG_INFO.CFG_VALID (R43). -/
  cfgValid : Bool
  /-- IMG_INFO.IMG_STATE (R43, R48). -/
  imgState : ImgState
  /-- CAP_BITS (R45). -/
  capBits : Word
  /-- CAP_BYTES (R45). -/
  capBytes : Word
  /-- The instance's constants, read through the PARAM registers (R44). -/
  params : Params
  /-- BUF (R46) and IMG (R47), with the record of what has been written (R54). -/
  mem : Memory
  /-- The model's own: the turns to come, the next one first (log 2). -/
  schedule : List Event
  /-- The model's own: what the host's reads have returned, the latest first (log 5). -/
  reads : List Word
  /-- The model's own: how many free values host reads have drawn (log 6). -/
  draws : Nat
  deriving DecidableEq, Repr

/-- An instance with the parameters `p` right after hardware reset (spec/70_reset_and_hazards.md R290), with no
turn to come, nothing read and nothing drawn. -/
def State.resetFor (p : Params) : State where
  cmd := 0
  pending := false
  busy := false
  err := false
  sticky := false
  code := .ok
  errA := 0
  errB := 0
  args := Vector.replicate 8 0
  res := Vector.replicate 8 0
  crcState := 0xFFFFFFFF
  width := 0
  height := 0
  hdrFields := 0
  hdrInterlace := 0
  kind := none
  stride := 0
  spanCount := 0
  imgLen := 0
  cfgValid := false
  imgState := .empty
  capBits := 0
  capBytes := 0
  params := p
  mem := []
  schedule := []
  reads := []
  draws := 0

/-- The reference instance right after hardware reset (R290; its parameters by log 1). -/
def State.reset : State := State.resetFor Params.reference

end Sys2Proof.Machine
end

