-- ==== Sys2Proof/Machine/Operands.lean ====
section
/-! DEFINITION. How operands are read and data is laid out: numbers in byte sequences (spec/00_scope.md R11),
ARG registers (spec/30_encoding.md R86 to R90), the pixel kinds and their sizes (spec/42_pixel.md R140 to R142),
and spans (R143 to R148). -/

namespace Sys2Proof.Machine

/-! ### Numbers in byte sequences (R11) -/

/-- Byte `k` of a sequence, as a number. -/
def byteAt (s : List Byte) (k : Nat) : Nat := (s.getD k 0).toNat

/-- `be16(s)` (R11). -/
def be16 (s : List Byte) : Nat := byteAt s 0 * 2 ^ 8 + byteAt s 1

/-- `be32(s)` (R11). -/
def be32 (s : List Byte) : Nat :=
  byteAt s 0 * 2 ^ 24 + byteAt s 1 * 2 ^ 16 + byteAt s 2 * 2 ^ 8 + byteAt s 3

/-- `le32(s)` (R11). -/
def le32 (s : List Byte) : Nat :=
  byteAt s 0 + byteAt s 1 * 2 ^ 8 + byteAt s 2 * 2 ^ 16 + byteAt s 3 * 2 ^ 24

/-- The byte of `v` at bits `8k+7 : 8k`. -/
def byteOf (v k : Nat) : Byte := BitVec.ofNat 8 (v / 2 ^ (8 * k))

/-- `to_be32(v)` (R11). -/
def toBe32 (v : Nat) : List Byte := [byteOf v 3, byteOf v 2, byteOf v 1, byteOf v 0]

/-- `to_le32(v)` (R11). -/
def toLe32 (v : Nat) : List Byte := [byteOf v 0, byteOf v 1, byteOf v 2, byteOf v 3]

/-- The `n` low bytes of `v`, the lowest first: a host access is little-endian (spec/20_memory.md R62). -/
def toLe : Nat → Nat → List Byte
  | 0, _ => []
  | n + 1, v => byteOf v 0 :: toLe n (v / 256)

/-- The number a little-endian sequence stands for (spec/20_memory.md R62). -/
def leNat : List Byte → Nat
  | [] => 0
  | b :: bs => b.toNat + 256 * leNat bs

/-! ### ARG registers (R86, R87) -/

/-- ARG`k` as the unsigned integer it holds: not extended, scaled or shifted (R87). -/
def State.arg (s : State) (k : Fin 8) : Nat := s.args[k].toNat

/-- Two channels in one register, `lo | hi << 16` (R88). -/
def packPair (lo hi : Nat) : Word := BitVec.ofNat 32 (lo ||| hi <<< 16)

/-- The four channels of a pixel in ARG4 and ARG5 (R88). -/
def argChannels (s : State) : List Nat :=
  [s.arg 4 &&& 0xFFFF, s.arg 4 >>> 16, s.arg 5 &&& 0xFFFF, s.arg 5 >>> 16]

/-- The current line's kind code, ARG3 bits 7:0 (R89). -/
def currentKindCode (s : State) : Nat := s.arg 3 &&& 0xFF

/-- The previous line's kind code, ARG3 bits 15:8 (R89). -/
def previousKindCode (s : State) : Nat := (s.arg 3 >>> 8) &&& 0xFF

/-! ### Pixel kinds (spec/42_pixel.md R140, R141) -/

/-- The kind table of R140, row by row: code, colour type, depth M, channels C, BPP, SPS, SPAN_BYTES. -/
def kindRow : PixelKind → KindRow
  | .g1 => ⟨0, 0, 1, 1, 1, 8, 1⟩
  | .g2 => ⟨1, 0, 2, 1, 2, 4, 1⟩
  | .g4 => ⟨2, 0, 4, 1, 4, 2, 1⟩
  | .g8 => ⟨3, 0, 8, 1, 8, 1, 1⟩
  | .g16 => ⟨4, 0, 16, 1, 16, 1, 2⟩
  | .rgb8 => ⟨5, 2, 8, 3, 24, 1, 3⟩
  | .rgb16 => ⟨6, 2, 16, 3, 48, 1, 6⟩
  | .p1 => ⟨7, 3, 1, 1, 1, 8, 1⟩
  | .p2 => ⟨8, 3, 2, 1, 2, 4, 1⟩
  | .p4 => ⟨9, 3, 4, 1, 4, 2, 1⟩
  | .p8 => ⟨10, 3, 8, 1, 8, 1, 1⟩
  | .ga8 => ⟨11, 4, 8, 2, 16, 1, 2⟩
  | .ga16 => ⟨12, 4, 16, 2, 32, 1, 4⟩
  | .rgba8 => ⟨13, 6, 8, 4, 32, 1, 4⟩
  | .rgba16 => ⟨14, 6, 16, 4, 64, 1, 8⟩

/-- What KIND_INFO's fields hold when no kind is configured: KIND = 15, every other field 0 (spec/10_state.md R39). -/
def noKindRow : KindRow := ⟨15, 0, 0, 0, 0, 0, 0⟩

/-- The 15 kinds in the order of their codes (R140). -/
def allKinds : List PixelKind :=
  [.g1, .g2, .g4, .g8, .g16, .rgb8, .rgb16, .p1, .p2, .p4, .p8, .ga8, .ga16, .rgba8, .rgba16]

/-- `kind_of(ct, bd)`: the kind whose row has that colour type and bit depth, if there is one (R141). -/
def kindOf (ct bd : Nat) : Option PixelKind :=
  allKinds.find? fun k => (kindRow k).colorType = ct ∧ (kindRow k).depth = bd

/-- The kind with a given code; codes above 14 name no kind (R141). -/
def kindOfCode (code : Nat) : Option PixelKind := allKinds.find? fun k => (kindRow k).code = code

/-- The valid colour types (R140, R141). -/
def colorTypes : List Nat := [0, 2, 3, 4, 6]

/-- The fields of KIND_INFO as it stands (spec/10_state.md R39). -/
def State.kindRow (s : State) : KindRow :=
  match s.kind with
  | some k => Machine.kindRow k
  | none => noKindRow

/-! ### Derived sizes (R142) -/

/-- `ceil(a / b)`. -/
def ceilDiv (a b : Nat) : Nat := (a + b - 1) / b

/-- `stride(K, W) = ceil(W × BPP / 8)`, the raw bytes of a line (R142). -/
def strideOf (r : KindRow) (w : Nat) : Nat := ceilDiv (w * r.bpp) 8

/-- `span_count(K, W) = ceil(W / SPS)` (R142). -/
def spanCountOf (r : KindRow) (w : Nat) : Nat := ceilDiv w r.sps

/-- `line_len(K, W) = 1 + stride(K, W)` (R142). -/
def lineLen (r : KindRow) (w : Nat) : Nat := 1 + strideOf r w

/-! ### Spans (R143 to R148) -/

/-- How far sample `i` of a sub-byte span stands from bit 0: `(N - 1 - i) × M` (R144). -/
def sampleShift (r : KindRow) (i : Nat) : Nat := (r.sps - 1 - i) * r.depth

/-- The greatest value of a sample, `2^M − 1` (R148). -/
def sampleMax (r : KindRow) : Nat := 2 ^ r.depth - 1

/-- `span_read(K, sb, i)`: channels CH0..CH3, the unused ones 0 (R144). -/
def spanRead (r : KindRow) (sb : List Byte) (i : Nat) : List Nat :=
  if r.depth < 8 then [(byteAt sb 0 >>> sampleShift r i) &&& sampleMax r, 0, 0, 0]
  else if r.depth = 8 then
    (List.range 4).map fun c => if c < r.chans then byteAt sb c else 0
  else
    (List.range 4).map fun c => if c < r.chans then be16 (sb.drop (2 * c)) else 0

/-- `span_write(K, sb, i, ch)`: the span's bytes after writing the channels `ch` (R145). -/
def spanWrite (r : KindRow) (sb : List Byte) (i : Nat) (ch : List Nat) : List Byte :=
  if r.depth < 8 then
    let mask := sampleMax r <<< sampleShift r i
    [BitVec.ofNat 8 ((byteAt sb 0 &&& (0xFF ^^^ mask)) ||| (ch.getD 0 0 <<< sampleShift r i))]
  else if r.depth = 8 then
    (List.range r.chans).map fun c => BitVec.ofNat 8 (ch.getD c 0)
  else
    (List.range r.chans).flatMap fun c =>
      [BitVec.ofNat 8 (ch.getD c 0 >>> 8), BitVec.ofNat 8 (ch.getD c 0 &&& 0xFF)]

/-- How many samples of a line's last span are used: `W − (span_count − 1) × SPS` (R147). -/
def usedSamples (r : KindRow) (w : Nat) : Nat := w - (spanCountOf r w - 1) * r.sps

/-- `pad_mask(K, W)`: the bits of a line's last data byte that hold used samples (R147). -/
def padMask (r : KindRow) (w : Nat) : Byte :=
  if usedSamples r w = r.sps ∨ 8 ≤ r.depth then 0xFF
  else 0xFF#8 <<< ((r.sps - usedSamples r w) * r.depth)

/-- `pad_clear(K, W, line)` on a line's data bytes: the last one keeps only its used samples (R147). -/
def padClear (r : KindRow) (w : Nat) (line : List Byte) : List Byte :=
  match line.getLast? with
  | none => line
  | some d => line.dropLast ++ [d &&& padMask r w]

end Sys2Proof.Machine
end

