-- ==== Sys2Proof/Machine/Flags.lean ====
section
/-! DEFINITION. The numbers of the error codes, the saturation of error information, and the register words
that are read from several pieces of state (spec/10_state.md R27, R39, R43, R44; spec/60_exceptions.md R260, R261). -/

namespace Sys2Proof.Machine

/-- The number of an error code (R260). -/
def errorNumber : ErrorCode → Nat
  | .ok => 0x00
  | .badSignature => 0x01
  | .truncated => 0x02
  | .badCrc => 0x03
  | .invalidChunkTag => 0x04
  | .invalidColorType => 0x05
  | .invalidBitDepth => 0x06
  | .invalidFilterType => 0x07
  | .invalidPixelKind => 0x08
  | .noHeaderChunk => 0x09
  | .noImageData => 0x0A
  | .noImageDataChunks => 0x0B
  | .alreadyFiltered => 0x0C
  | .outOfBounds => 0x0D
  | .insufficientSize => 0x0E
  | .integerOverflow => 0x0F
  | .scanlineMismatch => 0x10
  | .pixelKindMismatch => 0x11
  | .noPixels => 0x12
  | .unsupportedPixelKind => 0x13
  | .imageTooSmall => 0x14
  | .invalidBitOffset => 0x15
  | .noStegoData => 0x16
  | .pixelMismatch => 0x17
  | .unsupportedMethod => 0x18
  | .illegalCommand => 0x19

/-- `sat(v)`: error information of 2^32 and above is held as 0xFFFF_FFFF (R261). -/
def sat (v : Nat) : Word := if v < 2 ^ 32 then BitVec.ofNat 32 v else 0xFFFFFFFF

/-- A one-bit field as a number. -/
def bit (b : Bool) : Nat := if b then 1 else 0

/-- STATUS as it is read: BUSY, ERR, STICKY in bits 0 to 2, CODE in bits 15:8, the rest 0 (R27). -/
def statusWord (s : State) : Word :=
  BitVec.ofNat 32 (bit s.busy ||| bit s.err <<< 1 ||| bit s.sticky <<< 2 ||| errorNumber s.code <<< 8)

/-- KIND_INFO as it is read (R39). -/
def kindInfoWord (s : State) : Word :=
  let r := s.kindRow
  BitVec.ofNat 32
    (r.code ||| r.chans <<< 4 ||| r.bpp <<< 8 ||| r.sps <<< 16 ||| r.spanBytes <<< 20 ||| r.depth <<< 24)

/-- The two bits of IMG_STATE (R43). -/
def imgStateNumber : ImgState → Nat
  | .empty => 0
  | .filtered => 1
  | .raw => 2

/-- IMG_INFO as it is read: CFG_VALID in bit 0, IMG_STATE in bits 2:1, the rest 0 (R43). -/
def imgInfoWord (s : State) : Word :=
  BitVec.ofNat 32 (bit s.cfgValid ||| imgStateNumber s.imgState <<< 1)

/-- PARAM_FLAGS: TAG_CHECK in bit 0, PAD_MODE in bit 1, the rest 0 (R44). -/
def paramFlagsWord (p : Params) : Word := BitVec.ofNat 32 (bit p.tagCheck ||| bit p.padMode <<< 1)

end Sys2Proof.Machine
end

