-- ==== Sys2Proof/Machine/Ops.lean ====
section
/-! DEFINITION. The operations the commands share: BUF and IMG as one memory (spec/20_memory.md R61, R68), the
end of a command by an error or by completion (spec/60_exceptions.md R262, R263), the checks (spec/20_memory.md R64,
spec/42_pixel.md R149), the start of a command and the two resets. -/

namespace Sys2Proof.Machine

/-! ### The memory -/

/-- BUF_BASE (spec/10_state.md R46). -/
def bufBase : Nat := 0x01000000

/-- IMG_BASE (spec/10_state.md R47). -/
def imgBase : Nat := 0x02000000

/-- The canonical form: addresses strictly rising, so that equal memories are equal lists. An address not listed
has no value, so no entry is ruled out for its value. -/
abbrev Memory.wf (m : Memory) : Prop := m.Pairwise fun p q => p.1 < q.1

/-- The byte at a block address, if it has been written since hardware reset (spec/10_state.md R54). -/
def Memory.read : Memory → Nat → Option Byte
  | [], _ => none
  | (k, b) :: m, a => if a = k then some b else Memory.read m a

/-- The memory after one byte is written. -/
def Memory.write : Memory → Nat → Byte → Memory
  | [], a, b => [(a, b)]
  | (k, c) :: m, a, b =>
    if a < k then (a, b) :: (k, c) :: m
    else if a = k then (a, b) :: m
    else (k, c) :: Memory.write m a b

/-- `MemRead(a, n)` (spec/00_scope.md R12), if every one of the bytes has been written. -/
def Memory.readBytes (m : Memory) (a : Nat) : Nat → Option (List Byte)
  | 0 => some []
  | n + 1 =>
    match m.read a, Memory.readBytes m (a + 1) n with
    | some b, some bs => some (b :: bs)
    | _, _ => none

/-- The first address from `a` on whose byte has not been written, among `n` of them. -/
def Memory.firstGap (m : Memory) (a : Nat) : Nat → Nat
  | 0 => a
  | n + 1 =>
    match m.read a with
    | none => a
    | some _ => Memory.firstGap m (a + 1) n

/-- The writes of `MemWrite(a, n, bs)` (spec/00_scope.md R12): consecutive bytes from block address `a`. -/
def cellsAt : Nat → List Byte → List Host.Cell
  | _, [] => []
  | a, b :: bs => (a, b) :: cellsAt (a + 1) bs

/-- The memory after a list of byte writes, in their order. -/
def Memory.writeCells : Memory → List Host.Cell → Memory
  | m, [] => m
  | m, c :: cs => Memory.writeCells (m.write c.1 c.2) cs

/-- A block address inside BUF or IMG (spec/20_memory.md R61). -/
abbrev mapped (p : Params) (a : Nat) : Prop :=
  (bufBase ≤ a ∧ a < bufBase + p.bufBytes) ∨ (imgBase ≤ a ∧ a < imgBase + p.imgBytes)

/-! ### The end of a command (spec/60_exceptions.md R262, R263) -/

/-- `raise E(a, b)`: the block's whole reaction to an error. There is no vector, no saved program counter and no
return (R264, R265); nothing but these fields changes (R262). -/
def raiseError (e : ErrorCode) (a b : Nat) (s : State) : State :=
  { s with
    code := e, err := true, sticky := true
    errA := sat a, errB := sat b
    pending := false, busy := false }

/-- `complete` (R263): STICKY is not changed. -/
def completeCommand (s : State) : State :=
  { s with
    code := .ok, err := false
    errA := 0, errB := 0
    pending := false, busy := false }

/-- Why a command's rule stops before its end: an error of the block, or a read of a byte never written. -/
inductive Stop where
  | raise (e : ErrorCode) (a b : Nat)
  | uninit (addr : Nat)
  deriving DecidableEq, Repr

/-- A piece of a command's rule: it gives a value or stops. -/
abbrev Check := Except Stop

/-- What a command's rule ends in when it completes: the state with the command's own register writes, and the
bytes it stores, which take effect at the end of the step, all at once (spec/20_memory.md R70). -/
structure Done where
  regs : State
  stores : List Host.Cell
  deriving DecidableEq, Repr

/-- A completed rule that writes registers only. -/
def doneRegs (s : State) : Check Done := .ok ⟨s, []⟩

/-- A completed rule that writes registers and stores bytes. -/
def doneStores (s : State) (cells : List Host.Cell) : Check Done := .ok ⟨s, cells⟩

/-- The state with a completed rule's stores made. -/
def commitStores (d : Done) : State := { d.regs with mem := d.regs.mem.writeCells d.stores }

/-- The step a command's rule makes from the state `s`: an error changes nothing but STATUS, ERR_A and ERR_B
(R262), completion commits the command's own writes at the same step (R263). -/
def finish (s : State) : Check Done → Host.Outcome State Fault Refusal
  | .ok d => .next (completeCommand (commitStores d))
  | .error (.raise e a b) => .next (raiseError e a b s)
  | .error (.uninit a) => .fault (.uninitRead a)

/-! ### Checks -/

/-- `if bad then raise E(a, b)`. -/
def raiseIf (bad : Prop) [Decidable bad] (e : ErrorCode) (a b : Nat) : Check Unit :=
  if bad then .error (.raise e a b) else .ok ()

/-- A value that must exist, or `raise E(a, b)`. -/
def orRaise {α : Type} (v : Option α) (e : ErrorCode) (a b : Nat) : Check α :=
  match v with
  | some x => .ok x
  | none => .error (.raise e a b)

/-- `buf_check(off, n)`, on unbounded numbers (spec/20_memory.md R64). -/
def bufCheck (s : State) (off n : Nat) : Check Unit :=
  raiseIf (off + n > s.params.bufBytes) .outOfBounds (off + n) s.params.bufBytes

/-- `MemRead` inside a command: a byte not written since hardware reset stops the command with the model's fault
(spec/10_state.md R54). -/
def memRead (s : State) (a n : Nat) : Check (List Byte) :=
  match s.mem.readBytes a n with
  | some bs => .ok bs
  | none => .error (.uninit (s.mem.firstGap a n))

/-- `need_cfg` (spec/42_pixel.md R149). -/
def needCfg (s : State) : Check Unit := raiseIf (s.cfgValid = false) .noHeaderChunk 0 0

/-- `need_image` (R149). -/
def needImage (s : State) : Check Unit := raiseIf (s.imgState = .empty) .noImageData 0 0

/-- `need_raw` (R149). -/
def needRaw (s : State) : Check Unit := do
  needImage s
  raiseIf (s.imgState = .filtered) .alreadyFiltered 0 0

/-- `row(y)`, the IMG offset of line `y` (R149, spec/10_state.md R47). -/
def rowOff (s : State) (y : Nat) : Nat := y * (1 + s.stride.toNat)

/-- `span_addr(y, s)`, the block address of span `sp` of line `y` (R149). -/
def spanAddr (s : State) (y sp : Nat) : Nat := imgBase + rowOff s y + 1 + sp * s.kindRow.spanBytes

/-! ### Registers a command writes -/

/-- The state with RES`k` written (spec/10_state.md R26). -/
def State.setRes (s : State) (k : Fin 8) (v : Nat) : State :=
  { s with res := s.res.set k (BitVec.ofNat 32 v) }

/-! ### The start of a command and the resets -/

/-- The host's write of CMD while BUSY = 0 (spec/30_encoding.md R80). -/
def issueCommand (w : Word) (s : State) : State := { s with cmd := w, pending := true, busy := true }

/-- CTRL.CLR_STICKY (spec/10_state.md R32). -/
def clearSticky (s : State) : State := { s with sticky := false }

/-- CTRL.SOFT_RESET (spec/70_reset_and_hazards.md R291): every register at its reset value; BUF and IMG, with their
record of what has been written, stay. -/
def softReset (s : State) : State :=
  { State.resetFor s.params with
    mem := s.mem, schedule := s.schedule, reads := s.reads, draws := s.draws }

/-- Hardware reset (spec/70_reset_and_hazards.md R290): a pending command is abandoned, and BUF and IMG are unspecified. -/
def hardReset (s : State) : State :=
  { State.resetFor s.params with
    schedule := s.schedule, reads := s.reads, draws := s.draws }

end Sys2Proof.Machine
end

