-- ==== Sys2Proof/Machine/CrcUnit.lean ====
section
/-! DEFINITION. NOP, the CRC unit and the chunk framer (spec/41_crc_frame.md). Each command has its rule, `end…`,
read beside the rule's pseudocode, and its meaning, `exec…`, the step the rule makes. -/

namespace Sys2Proof.Machine

/-! ### Functions (R110, R111, R113) -/

/-- The reflected generator polynomial (R110; the spec's general knowledge K1, log 14). -/
def crcPoly : Word := 0xEDB88320

/-- One of the eight shifts of `crc_update` (R110). -/
def crcShift (c : Word) : Word := if c &&& 1 = 1 then (c >>> 1) ^^^ crcPoly else c >>> 1

/-- `n` shifts. -/
def crcShifts : Nat → Word → Word
  | 0, c => c
  | n + 1, c => crcShifts n (crcShift c)

/-- One byte of `crc_update` (R110). -/
def crcByte (c : Word) (b : Byte) : Word := crcShifts 8 (c ^^^ b.setWidth 32)

/-- `crc_update(c, s)` (R110). -/
def crcUpdate : Word → List Byte → Word
  | c, [] => c
  | c, b :: bs => crcUpdate (crcByte c b) bs

/-- `crc32(s)` (R111). -/
def crc32 (s : List Byte) : Word := crcUpdate 0xFFFFFFFF s ^^^ 0xFFFFFFFF

/-- `tag_ok(t)`: every byte is at most 0x7F (R113). -/
def tagOk (t : List Byte) : Bool := t.all fun b => decide (b.toNat ≤ 0x7F)

/-- The test both chunk commands make of a tag (R113): with TAG_CHECK = 1 a tag must be ASCII. -/
def checkTag (s : State) (tag : List Byte) : Check Unit :=
  raiseIf (s.params.tagCheck = true ∧ tagOk tag = false) .invalidChunkTag (be32 tag) 0

/-- The PNG signature (spec/30_encoding.md R99). -/
def pngSignature : List Byte := [0x89, 0x50, 0x4E, 0x47, 0x0D, 0x0A, 0x1A, 0x0A]

/-- The greatest chunk length, 2^31 − 1 (spec/30_encoding.md R95). -/
def maxChunkLen : Nat := 0x7FFFFFFF

/-- The bytes of a chunk on the wire (spec/30_encoding.md R95). -/
def chunkFrame (tag data : List Byte) : List Byte :=
  toBe32 data.length ++ tag ++ data ++ toBe32 (crc32 (tag ++ data)).toNat

/-! ### Commands -/

/-- NOP (R120). -/
def endNop (s : State) : Check Done := doneRegs s

/-- NOP (R120): completes and does nothing else. -/
def execNop (s : State) : Host.Outcome State Fault Refusal := finish s (endNop s)

/-- CRC_INIT (R121). -/
def endCrcInit (s : State) : Check Done := doneRegs { s with crcState := 0xFFFFFFFF }

/-- CRC_INIT (R121). -/
def execCrcInit (s : State) : Host.Outcome State Fault Refusal := finish s (endCrcInit s)

/-- CRC_UPDATE (R122). -/
def endCrcUpdate (s : State) : Check Done := do
  let off := s.arg 0
  let n := s.arg 1
  bufCheck s off n
  let bs ← memRead s (bufBase + off) n
  doneRegs { s with crcState := crcUpdate s.crcState bs }

/-- CRC_UPDATE (R122). -/
def execCrcUpdate (s : State) : Host.Outcome State Fault Refusal := finish s (endCrcUpdate s)

/-- CRC_FINAL (R123). -/
def endCrcFinal (s : State) : Check Done :=
  doneRegs (s.setRes 0 (s.crcState ^^^ 0xFFFFFFFF).toNat)

/-- CRC_FINAL (R123): CRC_STATE is not changed. -/
def execCrcFinal (s : State) : Host.Outcome State Fault Refusal := finish s (endCrcFinal s)

/-- CRC_BLOCK (R124). -/
def endCrcBlock (s : State) : Check Done := do
  let off := s.arg 0
  let n := s.arg 1
  bufCheck s off n
  let bs ← memRead s (bufBase + off) n
  doneRegs (s.setRes 0 (crc32 bs).toNat)

/-- CRC_BLOCK (R124): CRC_STATE is neither read nor written. -/
def execCrcBlock (s : State) : Host.Outcome State Fault Refusal := finish s (endCrcBlock s)

/-- SIG_CHECK (R125). -/
def endSigCheck (s : State) : Check Done := do
  let off := s.arg 0
  let avail := s.arg 1
  bufCheck s off avail
  raiseIf (avail < 8) .truncated 8 avail
  let h ← memRead s (bufBase + off) 8
  raiseIf (h ≠ pngSignature) .badSignature (be32 h) (be32 (h.drop 4))
  doneRegs (s.setRes 0 (off + 8))

/-- SIG_CHECK (R125). -/
def execSigCheck (s : State) : Host.Outcome State Fault Refusal := finish s (endSigCheck s)

/-- CHUNK_CHECK (R126); `v` is MODE.V. -/
def endChunkCheck (v : Bool) (s : State) : Check Done := do
  let off := s.arg 0
  let avail := s.arg 1
  bufCheck s off avail
  raiseIf (avail < 8) .truncated 8 avail
  let h ← memRead s (bufBase + off) 8
  let len := be32 h
  let tag := h.drop 4
  raiseIf (len > maxChunkLen) .truncated (12 + len) avail
  raiseIf (avail < 12 + len) .truncated (12 + len) avail
  checkTag s tag
  let data ← memRead s (bufBase + off + 8) len
  let crcBytes ← memRead s (bufBase + off + 8 + len) 4
  let stored := be32 crcBytes
  let comp := (crc32 (tag ++ data)).toNat
  raiseIf (v = true ∧ stored ≠ comp) .badCrc stored comp
  doneRegs <|
    ((((((s.setRes 0 len).setRes 1 (be32 tag)).setRes 2 stored).setRes 3 comp).setRes 4 (off + 8)).setRes 5
      (off + 12 + len)).setRes 6 (if stored = comp then 1 else 0)

/-- CHUNK_CHECK (R126): CRC_STATE is not touched. -/
def execChunkCheck (v : Bool) (s : State) : Host.Outcome State Fault Refusal := finish s (endChunkCheck v s)

/-- CHUNK_EMIT (R127). -/
def endChunkEmit (s : State) : Check Done := do
  let src := s.arg 0
  let n := s.arg 1
  let tag := toBe32 (s.arg 2)
  let dst := s.arg 3
  raiseIf (n > maxChunkLen) .integerOverflow n maxChunkLen
  checkTag s tag
  bufCheck s src n
  bufCheck s dst (12 + n)
  let data ← memRead s (bufBase + src) n
  let c := (crc32 (tag ++ data)).toNat
  doneStores ((s.setRes 0 c).setRes 1 (dst + 12 + n)) (cellsAt (bufBase + dst) (chunkFrame tag data))

/-- CHUNK_EMIT (R127): the data is read as it was when the step began (spec/20_memory.md R70). -/
def execChunkEmit (s : State) : Host.Outcome State Fault Refusal := finish s (endChunkEmit s)

end Sys2Proof.Machine
end

