-- ==== Sys2Proof/Machine/FilterUnit.lean ====
section
/-! DEFINITION. The scanline filter pipeline (spec/43_filter.md). -/

namespace Sys2Proof.Machine

/-- The five filters, in the order of their tags 0 to 4 (R183). -/
inductive FilterType where
  | none
  | sub
  | up
  | average
  | paeth
  deriving DecidableEq, Repr

/-- The filters in the order of their tags (R183, R185). -/
def allFilters : List FilterType := [.none, .sub, .up, .average, .paeth]

/-- The tag of a filter (R183). -/
def filterTag : FilterType → Nat
  | .none => 0
  | .sub => 1
  | .up => 2
  | .average => 3
  | .paeth => 4

/-- The filter a tag names; tags 5 to 255 have no predictor (R183). -/
def filterOfTag (t : Nat) : Option FilterType := allFilters.find? fun f => filterTag f = t

/-! ### Neighbours and predictors (R180 to R183) -/

/-- `left(v, k)`: the byte `d` before byte `k`, 0 outside the line (R180, R181). -/
def leftByte (d : Nat) (v : List Byte) (k : Nat) : Byte := if d ≤ k then v.getD (k - d) 0 else 0

/-- `up(u, k)`: the byte above, 0 when there is no previous line (R180). -/
def upByte (u : Option (List Byte)) (k : Nat) : Byte :=
  match u with
  | some p => p.getD k 0
  | none => 0

/-- `upleft(u, k)` (R180). -/
def upLeftByte (d : Nat) (u : Option (List Byte)) (k : Nat) : Byte :=
  match u with
  | some p => leftByte d p k
  | none => 0

/-- `paeth(a, b, c)` on unbounded integers: the nearest of left, up and upleft, ties in that order (R182). -/
def paeth (a b c : Nat) : Nat :=
  let p : Int := (a : Int) + b - c
  let pa := (p - a).natAbs
  let pb := (p - b).natAbs
  let pc := (p - c).natAbs
  if pa ≤ pb ∧ pa ≤ pc then a else if pb ≤ pc then b else c

/-- `pred(t, a, b, c)` (R183). -/
def pred (t : FilterType) (a b c : Byte) : Byte :=
  match t with
  | .none => 0
  | .sub => a
  | .up => b
  | .average => BitVec.ofNat 8 ((a.toNat + b.toNat) / 2)
  | .paeth => BitVec.ofNat 8 (paeth a.toNat b.toNat c.toNat)

/-- The predictor of byte `k` formed from the line `v` and the previous line `u` (R180, R183). -/
def predAt (t : FilterType) (d : Nat) (v : List Byte) (u : Option (List Byte)) (k : Nat) : Byte :=
  pred t (leftByte d v k) (upByte u k) (upLeftByte d u k)

/-! ### Lines (R184 to R187) -/

/-- `recon_line` from byte `out.length` on: `out` is what has been reconstructed, `xs` the filtered bytes to come (R187).
Sums are taken modulo 256, which is the bytes' own arithmetic. -/
def reconFrom (t : FilterType) (d : Nat) (u : Option (List Byte)) (out : List Byte) : List Byte → List Byte
  | [] => out
  | x :: xs => reconFrom t d u (out ++ [x + predAt t d out u out.length]) xs

/-- `recon_line(K, t, x, u)` with `d = SPAN_BYTES(K)` (R187). -/
def reconLine (t : FilterType) (d : Nat) (x : List Byte) (u : Option (List Byte)) : List Byte :=
  reconFrom t d u [] x

/-- `filter_line(K, t, r, u)` with `d = SPAN_BYTES(K)` (R184, R187). -/
def filterLine (t : FilterType) (d : Nat) (r : List Byte) (u : Option (List Byte)) : List Byte :=
  (List.range r.length).map fun k => r.getD k 0 - predAt t d r u k

/-- The score of a candidate: the absolute value of the sum of its bytes taken as signed (R185). -/
def lineScore (f : List Byte) : Nat := (f.foldl (fun n b => n + b.toInt) (0 : Int)).natAbs

/-- The score of filter `t` for a raw line and a raw previous line (R185). -/
def scoreOf (d : Nat) (r : List Byte) (u : Option (List Byte)) (t : FilterType) : Nat :=
  lineScore (filterLine t d r u)

/-- The adaptive selector: the least score, the lowest tag on ties (R185). -/
def adaptiveFilter (d : Nat) (r : List Byte) (u : Option (List Byte)) : FilterType :=
  allFilters.foldl (fun best t => if scoreOf d r u t < scoreOf d r u best then t else best) .none

/-- The filter SEL selects: 0 to 4 force it, 5 is the selector, 6 and 7 raise InvalidFilterType (R191, R193;
spec/30_encoding.md R84). -/
def filterOfSel (sel d : Nat) (r : List Byte) (u : Option (List Byte)) : FilterType :=
  match filterOfTag sel with
  | some t => t
  | none => adaptiveFilter d r u

/-- `pad_clear` as the encoder applies it: only when PAD_MODE = 1 (R186). -/
def padOnEncode (s : State) (r : KindRow) (w : Nat) (line : List Byte) : List Byte :=
  if s.params.padMode = true then padClear r w line else line

/-- A line as a command writes it: its tag byte, then its data bytes (spec/30_encoding.md R97). -/
def lineBytes (tag : Nat) (data : List Byte) : List Byte := BitVec.ofNat 8 tag :: data

/-! ### LINE_RECON and LINE_FILTER -/

/-- What the checks shared by the line commands give: the kinds' rows and the stride `S` (R190). -/
structure LineShape where
  cur : KindRow
  prev : KindRow
  stride : Nat
  deriving DecidableEq, Repr

/-- The checks and bounds of R190, in its order, down to `buf_check(dst, 1 + S)`; `p` is MODE.P. Without a previous
line its kind and width are not looked at. -/
def lineChecks (p : Bool) (s : State) : Check LineShape := do
  let w := s.arg 4
  let wp := s.arg 5
  let kc ← orRaise (kindOfCode (currentKindCode s)) .invalidPixelKind (currentKindCode s) 0
  let kp ←
    if p = true then orRaise (kindOfCode (previousKindCode s)) .invalidPixelKind (previousKindCode s) 0
    else .ok kc
  raiseIf (w = 0 ∨ (p = true ∧ wp = 0)) .noPixels w wp
  raiseIf (p = true ∧ (kp ≠ kc ∨ spanCountOf (kindRow kp) wp ≠ spanCountOf (kindRow kc) w)) .scanlineMismatch 0 0
  let len := lineLen (kindRow kc) w
  bufCheck s (s.arg 0) len
  if p = true then bufCheck s (s.arg 1) len else .ok ()
  bufCheck s (s.arg 2) len
  .ok ⟨kindRow kc, kindRow kp, strideOf (kindRow kc) w⟩

/-- The data bytes of the previous line in BUF, if MODE.P says that one is supplied (R190, R191). -/
def previousData (p : Bool) (s : State) (n : Nat) : Check (Option (List Byte)) :=
  if p = true then do
    let u ← memRead s (bufBase + s.arg 1 + 1) n
    .ok (some u)
  else .ok none

/-- LINE_RECON (R190); `p` is MODE.P. -/
def endLineRecon (p : Bool) (s : State) : Check Done := do
  let shape ← lineChecks p s
  let line ← memRead s (bufBase + s.arg 0) (1 + shape.stride)
  let t ← orRaise (filterOfTag (byteAt line 0)) .invalidFilterType (byteAt line 0) 0
  let u ← previousData p s shape.stride
  doneStores (s.setRes 0 (1 + shape.stride))
    (cellsAt (bufBase + s.arg 2) (lineBytes 0 (reconLine t shape.cur.spanBytes (line.drop 1) u)))

/-- LINE_RECON (R190): it uses no configuration register. -/
def execLineRecon (p : Bool) (s : State) : Host.Outcome State Fault Refusal := finish s (endLineRecon p s)

/-- LINE_FILTER (R191); `sel` is MODE.SEL, `p` is MODE.P. -/
def endLineFilter (sel : Nat) (p : Bool) (s : State) : Check Done := do
  raiseIf (sel > 5) .invalidFilterType sel 0
  let shape ← lineChecks p s
  let raw ← memRead s (bufBase + s.arg 0 + 1) shape.stride
  let rawPrev ← previousData p s shape.stride
  let d := shape.cur.spanBytes
  let r := padOnEncode s shape.cur (s.arg 4) raw
  let u := rawPrev.map (padOnEncode s shape.prev (s.arg 5))
  let t := filterOfSel sel d r u
  doneStores
    (((((((s.setRes 0 (filterTag t)).setRes 1 (scoreOf d r u .none)).setRes 2 (scoreOf d r u .sub)).setRes 3
      (scoreOf d r u .up)).setRes 4 (scoreOf d r u .average)).setRes 5 (scoreOf d r u .paeth)).setRes 6
      (1 + shape.stride))
    (cellsAt (bufBase + s.arg 2) (lineBytes (filterTag t) (filterLine t d r u)))

/-- LINE_FILTER (R191): the five scores are reported whatever SEL is. -/
def execLineFilter (sel : Nat) (p : Bool) (s : State) : Host.Outcome State Fault Refusal :=
  finish s (endLineFilter sel p s)

/-! ### IMG_RECON and IMG_FILTER -/

/-- IMG_RECON's check of every line's tag before any write, the least line first (R192). -/
def checkTags (s : State) : List Nat → Check Unit
  | [] => .ok ()
  | y :: ys => do
    let tag ← memRead s (imgBase + rowOff s y) 1
    raiseIf (byteAt tag 0 > 4) .invalidFilterType (byteAt tag 0) y
    checkTags s ys

/-- IMG_RECON's loop: each line is reconstructed over the reconstructed previous line, a local value, and what it
reads of IMG is IMG as the step began (R192, spec/20_memory.md R70). -/
def reconRows (s : State) : List Nat → Option (List Byte) → Check (List Host.Cell)
  | [], _ => .ok []
  | y :: ys, prev => do
    let line ← memRead s (imgBase + rowOff s y) (1 + s.stride.toNat)
    let t ← orRaise (filterOfTag (byteAt line 0)) .invalidFilterType (byteAt line 0) y
    let out := reconLine t s.kindRow.spanBytes (line.drop 1) prev
    let rest ← reconRows s ys (some out)
    .ok (cellsAt (imgBase + rowOff s y) (lineBytes 0 out) ++ rest)

/-- IMG_RECON (R192). -/
def endImgRecon (s : State) : Check Done := do
  needCfg s
  needImage s
  let lines := List.range s.height.toNat
  checkTags s lines
  let cells ← reconRows s lines none
  doneStores { s with imgState := .raw } cells

/-- IMG_RECON (R192). -/
def execImgRecon (s : State) : Host.Outcome State Fault Refusal := finish s (endImgRecon s)

/-- The raw data bytes of line `y` of IMG, its padding cleared when PAD_MODE = 1 (R193, R186). -/
def rawRow (s : State) (y : Nat) : Check (List Byte) := do
  let bs ← memRead s (imgBase + rowOff s y + 1) s.stride.toNat
  .ok (padOnEncode s s.kindRow s.width.toNat bs)

/-- IMG_FILTER's loop: each line is filtered against the raw previous line, never the filtered one (R193). -/
def filterRows (s : State) (sel : Nat) : List Nat → Option (List Byte) → Check (List Host.Cell)
  | [], _ => .ok []
  | y :: ys, prev => do
    let r ← rawRow s y
    let t := filterOfSel sel s.kindRow.spanBytes r prev
    let rest ← filterRows s sel ys (some r)
    .ok (cellsAt (imgBase + rowOff s y) (lineBytes (filterTag t) (filterLine t s.kindRow.spanBytes r prev)) ++ rest)

/-- IMG_FILTER (R193); `sel` is MODE.SEL. -/
def endImgFilter (sel : Nat) (s : State) : Check Done := do
  raiseIf (sel > 5) .invalidFilterType sel 0
  needCfg s
  needRaw s
  let cells ← filterRows s sel (List.range s.height.toNat) none
  doneStores { s with imgState := .filtered } cells

/-- IMG_FILTER (R193): no RES register is written. -/
def execImgFilter (sel : Nat) (s : State) : Host.Outcome State Fault Refusal := finish s (endImgFilter sel s)

end Sys2Proof.Machine
end

