-- ==== Sys2Proof/Machine/PixelUnit.lean ====
section
/-! DEFINITION. The pixel packer and unpacker and the image memory (spec/42_pixel.md R148, R150 to R155). -/

namespace Sys2Proof.Machine

/-- The `n` zero bytes IMG_ZERO writes (R155). -/
def zeroBytes (n : Nat) : List Byte := List.replicate n 0

/-- The bytes of the image in IMG: `MemRead(IMG_BASE, IMG_LEN)`. -/
def imageBytes (s : State) : Check (List Byte) := memRead s imgBase s.imgLen.toNat

/-- HDR_FIELDS of a header (spec/10_state.md R37). -/
def hdrFieldsOf (bd ct cm fm : Nat) : Word := BitVec.ofNat 32 (bd ||| ct <<< 8 ||| cm <<< 16 ||| fm <<< 24)

/-- CAP_BITS of an image: `12 × W × H` for RGB8 and RGBA8, 0 for every other kind (R150, spec/10_state.md R45). -/
def capBitsOf (k : PixelKind) (w h : Nat) : Nat :=
  match k with
  | .rgb8 => 12 * w * h
  | .rgba8 => 12 * w * h
  | _ => 0

/-- The configuration registers after a successful HDR_LOAD (R150). -/
def configure (k : PixelKind) (w h bd ct cm fm im : Nat) (s : State) : State :=
  { s with
    width := BitVec.ofNat 32 w
    height := BitVec.ofNat 32 h
    hdrFields := hdrFieldsOf bd ct cm fm
    hdrInterlace := BitVec.ofNat 32 im
    kind := some k
    stride := BitVec.ofNat 32 (strideOf (kindRow k) w)
    spanCount := BitVec.ofNat 32 (spanCountOf (kindRow k) w)
    imgLen := BitVec.ofNat 32 (h * (1 + strideOf (kindRow k) w))
    capBits := BitVec.ofNat 32 (capBitsOf k w h)
    capBytes := BitVec.ofNat 32 (capBitsOf k w h / 8)
    cfgValid := true
    imgState := .empty }

/-- HDR_LOAD (R150). -/
def endHdrLoad (s : State) : Check Done := do
  let off := s.arg 0
  bufCheck s off 13
  let hd ← memRead s (bufBase + off) 13
  let w := be32 hd
  let h := be32 (hd.drop 4)
  let bd := byteAt hd 8
  let ct := byteAt hd 9
  let cm := byteAt hd 10
  let fm := byteAt hd 11
  let im := byteAt hd 12
  raiseIf (ct ∉ colorTypes) .invalidColorType ct 0
  let k ← orRaise (kindOf ct bd) .invalidBitDepth bd ct
  raiseIf (cm ≠ 0) .unsupportedMethod 0 cm
  raiseIf (fm ≠ 0) .unsupportedMethod 1 fm
  raiseIf (im ≠ 0) .unsupportedMethod 2 im
  raiseIf (w = 0 ∨ h = 0) .noPixels w h
  let need := h * (1 + strideOf (kindRow k) w)
  raiseIf (need > s.params.imgBytes) .insufficientSize s.params.imgBytes need
  doneRegs (configure k w h bd ct cm fm im s)

/-- HDR_LOAD (R150): the image is dropped, IMG's bytes stay (spec/70_reset_and_hazards.md R303). -/
def execHdrLoad (s : State) : Host.Outcome State Fault Refusal := finish s (endHdrLoad s)

/-- The index checks of PIX_READ and PIX_WRITE, in their order (R151, R152). -/
def pixelBounds (s : State) (y sp i : Nat) : Check Unit := do
  raiseIf (y ≥ s.height.toNat) .outOfBounds y s.height.toNat
  raiseIf (sp ≥ s.spanCount.toNat) .outOfBounds sp s.spanCount.toNat
  raiseIf (i ≥ s.kindRow.sps) .outOfBounds i s.kindRow.sps

/-- PIX_READ (R151). -/
def endPixRead (s : State) : Check Done := do
  let y := s.arg 0
  let sp := s.arg 1
  let i := s.arg 2
  needCfg s
  needRaw s
  pixelBounds s y sp i
  let sb ← memRead s (spanAddr s y sp) s.kindRow.spanBytes
  let ch := spanRead s.kindRow sb i
  doneRegs
    (((s.setRes 0 (packPair (ch.getD 0 0) (ch.getD 1 0)).toNat).setRes 1
      (packPair (ch.getD 2 0) (ch.getD 3 0)).toNat).setRes 2 s.kindRow.code)

/-- PIX_READ (R151). -/
def execPixRead (s : State) : Host.Outcome State Fault Refusal := finish s (endPixRead s)

/-- The sample range check, channel by channel in order (R148). -/
def checkSamples (max : Nat) : List Nat → Check Unit
  | [] => .ok ()
  | v :: vs => do
    raiseIf (v > max) .integerOverflow v max
    checkSamples max vs

/-- PIX_WRITE (R152). -/
def endPixWrite (s : State) : Check Done := do
  let y := s.arg 0
  let sp := s.arg 1
  let i := s.arg 2
  let kk := s.arg 3
  let ch := argChannels s
  needCfg s
  needRaw s
  raiseIf (kk > 14) .invalidPixelKind kk 0
  raiseIf (kk ≠ s.kindRow.code) .pixelKindMismatch kk s.kindRow.code
  pixelBounds s y sp i
  checkSamples (sampleMax s.kindRow) (ch.take s.kindRow.chans)
  let sb ← memRead s (spanAddr s y sp) s.kindRow.spanBytes
  doneStores s (cellsAt (spanAddr s y sp) (spanWrite s.kindRow sb i ch))

/-- PIX_WRITE (R152): no RES register is written. -/
def execPixWrite (s : State) : Host.Outcome State Fault Refusal := finish s (endPixWrite s)

/-- IMG_IMPORT (R153). -/
def endImgImport (s : State) : Check Done := do
  let off := s.arg 0
  let len := s.arg 1
  needCfg s
  raiseIf (len = 0) .noImageDataChunks 0 0
  bufCheck s off len
  raiseIf (len ≠ s.imgLen.toNat) .pixelMismatch len s.imgLen.toNat
  let bs ← memRead s (bufBase + off) len
  doneStores ({ s with imgState := .filtered }.setRes 0 s.imgLen.toNat) (cellsAt imgBase bs)

/-- IMG_IMPORT (R153). -/
def execImgImport (s : State) : Host.Outcome State Fault Refusal := finish s (endImgImport s)

/-- IMG_EXPORT (R154). -/
def endImgExport (s : State) : Check Done := do
  let dst := s.arg 0
  needCfg s
  needImage s
  bufCheck s dst s.imgLen.toNat
  let bs ← imageBytes s
  doneStores ((s.setRes 0 s.imgLen.toNat).setRes 1 (dst + s.imgLen.toNat)) (cellsAt (bufBase + dst) bs)

/-- IMG_EXPORT (R154): IMG_STATE is not changed. -/
def execImgExport (s : State) : Host.Outcome State Fault Refusal := finish s (endImgExport s)

/-- IMG_ZERO (R155). -/
def endImgZero (s : State) : Check Done := do
  needCfg s
  doneStores { s with imgState := .raw } (cellsAt imgBase (zeroBytes s.imgLen.toNat))

/-- IMG_ZERO (R155). -/
def execImgZero (s : State) : Host.Outcome State Fault Refusal := finish s (endImgZero s)

end Sys2Proof.Machine
end

