-- ==== Sys2Proof/Machine/StegoUnit.lean ====
section
/-! DEFINITION. The nibble LSB stego encoder and decoder (spec/44_stego.md). -/

namespace Sys2Proof.Machine

/-! ### The nibble stream (R221 to R223) -/

/-- `nib_addr(q)`: the block address of the channel byte whose low nibble is nibble `q` (R221). -/
def nibAddr (s : State) (q : Nat) : Nat :=
  let p := q / 3
  let c := q % 3
  let y := p / s.width.toNat
  let x := p % s.width.toNat
  imgBase + rowOff s y + 1 + x * s.kindRow.chans + c

/-- `nib_read(q)` (R222). -/
def nibRead (s : State) (q : Nat) : Check Nat := do
  let b ← memRead s (nibAddr s q) 1
  .ok (byteAt b 0 &&& 0x0F)

/-- `nib_write(q, v)`: the byte it stores; only the low nibble changes (R222). -/
def nibWrite (s : State) (q v : Nat) : Check Host.Cell := do
  let b ← memRead s (nibAddr s q) 1
  .ok (nibAddr s q, BitVec.ofNat 8 ((byteAt b 0 &&& 0xF0) ||| v))

/-- `n` bytes read from nibble `q` on, each low nibble first (R223). -/
def readNibbles (s : State) (q : Nat) : Nat → Check (List Byte)
  | 0 => .ok []
  | n + 1 => do
    let lo ← nibRead s q
    let hi ← nibRead s (q + 1)
    let rest ← readNibbles s (q + 2) n
    .ok (BitVec.ofNat 8 (lo ||| hi <<< 4) :: rest)

/-- `stego_read(b, n)` (R223). -/
def stegoRead (s : State) (b n : Nat) : Check (List Byte) := readNibbles s (b / 4) n

/-- The stores of the bytes `bs` written from nibble `q` on, each low nibble first (R223). -/
def writeNibbles (s : State) (q : Nat) : List Byte → Check (List Host.Cell)
  | [] => .ok []
  | v :: vs => do
    let lo ← nibWrite s q (v.toNat &&& 0x0F)
    let hi ← nibWrite s (q + 1) (v.toNat >>> 4)
    let rest ← writeNibbles s (q + 2) vs
    .ok (lo :: hi :: rest)

/-- `stego_write(b, n, bs)` (R223). -/
def stegoWrite (s : State) (b : Nat) (bs : List Byte) : Check (List Host.Cell) := writeNibbles s (b / 4) bs

/-! ### Checks (R220, R224, R226) -/

/-- A kind the STU works on: RGB8 or RGBA8 (R220). -/
def stegoKind (k : Option PixelKind) : Bool := k = some .rgb8 ∨ k = some .rgba8

/-- The shared checks of every STU command, in their order (R226). -/
def stegoChecks (s : State) : Check Unit := do
  needCfg s
  raiseIf (stegoKind s.kind = false) .unsupportedPixelKind s.kindRow.code 0
  needRaw s

/-- The offset checks for `n` bytes at bit offset `b` (R224). -/
def offsetChecks (s : State) (b n : Nat) : Check Unit := do
  raiseIf (b % 4 ≠ 0) .invalidBitOffset b 0
  raiseIf (b + 8 * n > s.capBits.toNat) .outOfBounds (b + 8 * n) s.capBits.toNat

/-! ### The frame (spec/30_encoding.md R98, R225) -/

/-- "FCD" (R98; ASCII by the spec's general knowledge K5, log 16). -/
def stegoMagic : List Byte := [0x46, 0x43, 0x44]

/-- "DCF" (R98). -/
def stegoTrailer : List Byte := [0x44, 0x43, 0x46]

/-- The frame of a body (R98). -/
def stegoFrame (body : List Byte) : List Byte := stegoMagic ++ toLe32 body.length ++ body ++ stegoTrailer

/-- `detect()`: the body's length if a frame is present (R225). -/
def detect (s : State) : Check (Option Nat) :=
  if s.capBytes.toNat < 10 then .ok none
  else do
    let magic ← stegoRead s 0 3
    if magic ≠ stegoMagic then .ok none
    else do
      let lenBytes ← stegoRead s 24 4
      let len := le32 lenBytes
      if 10 + len > s.capBytes.toNat then .ok none
      else do
        let trailer ← stegoRead s (56 + 8 * len) 3
        if trailer ≠ stegoTrailer then .ok none else .ok (some len)

/-! ### Commands -/

/-- STG_READ (R230). -/
def endStgRead (s : State) : Check Done := do
  let b := s.arg 0
  let n := s.arg 1
  let dst := s.arg 2
  stegoChecks s
  offsetChecks s b n
  bufCheck s dst n
  let bs ← stegoRead s b n
  doneStores s (cellsAt (bufBase + dst) bs)

/-- STG_READ (R230): no RES register is written. -/
def execStgRead (s : State) : Host.Outcome State Fault Refusal := finish s (endStgRead s)

/-- STG_WRITE (R231). -/
def endStgWrite (s : State) : Check Done := do
  let b := s.arg 0
  let n := s.arg 1
  let src := s.arg 2
  stegoChecks s
  offsetChecks s b n
  bufCheck s src n
  let bs ← memRead s (bufBase + src) n
  let cells ← stegoWrite s b bs
  doneStores s cells

/-- STG_WRITE (R231): no RES register is written, IMG_STATE stays RAW. -/
def execStgWrite (s : State) : Host.Outcome State Fault Refusal := finish s (endStgWrite s)

/-- STG_FRAME (R232). -/
def endStgFrame (s : State) : Check Done := do
  let off := s.arg 0
  let len := s.arg 1
  stegoChecks s
  raiseIf (len + 10 > s.capBytes.toNat) .imageTooSmall s.capBytes.toNat (len + 10)
  bufCheck s off len
  let body ← memRead s (bufBase + off) len
  let cells ← stegoWrite s 0 (stegoFrame body)
  doneStores (s.setRes 0 (len + 10)) cells

/-- STG_FRAME (R232). -/
def execStgFrame (s : State) : Host.Outcome State Fault Refusal := finish s (endStgFrame s)

/-- STG_DETECT (R233): an absent frame is a success with both results 0. -/
def endStgDetect (s : State) : Check Done := do
  stegoChecks s
  let found ← detect s
  doneRegs ((s.setRes 0 (if found.isSome then 1 else 0)).setRes 1 (found.getD 0))

/-- STG_DETECT (R233). -/
def execStgDetect (s : State) : Host.Outcome State Fault Refusal := finish s (endStgDetect s)

/-- STG_EXTRACT (R234). -/
def endStgExtract (s : State) : Check Done := do
  let dst := s.arg 0
  stegoChecks s
  let found ← detect s
  let len ← orRaise found .noStegoData 0 0
  bufCheck s dst len
  let bs ← stegoRead s 56 len
  doneStores (s.setRes 0 len) (cellsAt (bufBase + dst) bs)

/-- STG_EXTRACT (R234). -/
def execStgExtract (s : State) : Host.Outcome State Fault Refusal := finish s (endStgExtract s)

end Sys2Proof.Machine
end

