-- ==== Sys2Proof/Machine/Dispatch.lean ====
section
/-! DEFINITION. The dispatch of the sequencer's step to the command's meaning (spec/30_encoding.md R82, R83). -/

namespace Sys2Proof.Machine

def exec (i : Instr) (s : State) : Host.Outcome State Fault Refusal :=
  match i with
  | .nop => Sys2Proof.Machine.execNop s
  | .crcInit => Sys2Proof.Machine.execCrcInit s
  | .crcUpdate => Sys2Proof.Machine.execCrcUpdate s
  | .crcFinal => Sys2Proof.Machine.execCrcFinal s
  | .crcBlock => Sys2Proof.Machine.execCrcBlock s
  | .sigCheck => Sys2Proof.Machine.execSigCheck s
  | .chunkCheck v => Sys2Proof.Machine.execChunkCheck v s
  | .chunkEmit => Sys2Proof.Machine.execChunkEmit s
  | .hdrLoad => Sys2Proof.Machine.execHdrLoad s
  | .pixRead => Sys2Proof.Machine.execPixRead s
  | .pixWrite => Sys2Proof.Machine.execPixWrite s
  | .imgImport => Sys2Proof.Machine.execImgImport s
  | .imgExport => Sys2Proof.Machine.execImgExport s
  | .imgZero => Sys2Proof.Machine.execImgZero s
  | .lineRecon p => Sys2Proof.Machine.execLineRecon p s
  | .lineFilter sel p => Sys2Proof.Machine.execLineFilter sel p s
  | .imgRecon => Sys2Proof.Machine.execImgRecon s
  | .imgFilter sel => Sys2Proof.Machine.execImgFilter sel s
  | .stgRead => Sys2Proof.Machine.execStgRead s
  | .stgWrite => Sys2Proof.Machine.execStgWrite s
  | .stgFrame => Sys2Proof.Machine.execStgFrame s
  | .stgDetect => Sys2Proof.Machine.execStgDetect s
  | .stgExtract => Sys2Proof.Machine.execStgExtract s

end Sys2Proof.Machine
end

