-- ==== Sys2Proof/Machine/Sequencer.lean ====
section
/-! DEFINITION. The sequencer's step (spec/30_encoding.md R82), and which bytes the pending command is going to
write (spec/20_memory.md R69). -/

namespace Sys2Proof.Machine

/-- The sequencer's step on the word in CMD: IllegalCommand for a word that is no command (R82, R85 (a)), else the
command's meaning. -/
def runCommand (s : State) : Host.Outcome State Fault Refusal :=
  match decode s.cmd with
  | .ok i => exec i s
  | .error _ => .next (raiseError .illegalCommand s.cmd.toNat 0 s)

/-- The sequencer's turn: it has a step exactly when a command is pending (R82; log 4). -/
def sequencerTurn (s : State) : Host.Outcome State Fault Refusal :=
  if s.pending = true then runCommand s else .refused .sequencerIdle

/-- What a command's rule ends in, for every command: `exec i s` is the step this makes. -/
def endOf (i : Instr) (s : State) : Check Done :=
  match i with
  | .nop => endNop s
  | .crcInit => endCrcInit s
  | .crcUpdate => endCrcUpdate s
  | .crcFinal => endCrcFinal s
  | .crcBlock => endCrcBlock s
  | .sigCheck => endSigCheck s
  | .chunkCheck v => endChunkCheck v s
  | .chunkEmit => endChunkEmit s
  | .hdrLoad => endHdrLoad s
  | .pixRead => endPixRead s
  | .pixWrite => endPixWrite s
  | .imgImport => endImgImport s
  | .imgExport => endImgExport s
  | .imgZero => endImgZero s
  | .lineRecon p => endLineRecon p s
  | .lineFilter sel p => endLineFilter sel p s
  | .imgRecon => endImgRecon s
  | .imgFilter sel => endImgFilter sel s
  | .stgRead => endStgRead s
  | .stgWrite => endStgWrite s
  | .stgFrame => endStgFrame s
  | .stgDetect => endStgDetect s
  | .stgExtract => endStgExtract s

/-! ### The write set of the pending command (spec/20_memory.md R69) -/

/-- `a` is one of the `n` block addresses from `base` on. -/
def inRange (base n a : Nat) : Bool := decide (base ≤ a) && decide (a < base + n)

/-- `a` is the channel byte of one of the `n` nibbles from nibble `q` on (spec/44_stego.md R221). -/
def amongNibbles (s : State) (q n a : Nat) : Bool := (List.range n).any fun k => nibAddr s (q + k) == a

/-- A tag byte at `a` can pass the check of tags: it is at most 4, or has not been written (spec/43_filter.md R190, R192). -/
def tagMayPass (s : State) (a : Nat) : Bool :=
  match s.mem.read a with
  | some b => decide (b.toNat ≤ 4)
  | none => true

/-- The bytes of IMG that the image's lines occupy (spec/10_state.md R47). -/
def inImageLines (s : State) (a : Nat) : Bool := inRange imgBase (rowOff s s.height.toNat) a

/-- The byte at `a` is in the destination of the line that a line command writes (spec/43_filter.md R190, R191). -/
def inLineDestination (s : State) (a : Nat) : Bool :=
  match kindOfCode (currentKindCode s) with
  | some k => inRange (bufBase + s.arg 2) (lineLen (kindRow k) (s.arg 4)) a
  | none => false

/-- The bytes that a command can store, by its operands and the configuration alone: the destination its rule names, none
for a command that stores nothing, and none for a reconstruction that a written tag byte makes fail. Which of them the
length field of a stego frame adds is not known before it is read: any that the capacity allows (log 8). -/
def mayStore (i : Instr) (s : State) (a : Nat) : Bool :=
  match i with
  | .nop => false
  | .crcInit => false
  | .crcUpdate => false
  | .crcFinal => false
  | .crcBlock => false
  | .sigCheck => false
  | .chunkCheck _ => false
  | .chunkEmit => inRange (bufBase + s.arg 3) (12 + s.arg 1) a
  | .hdrLoad => false
  | .pixRead => false
  | .pixWrite => inRange (spanAddr s (s.arg 0) (s.arg 1)) s.kindRow.spanBytes a
  | .imgImport => inRange imgBase s.imgLen.toNat a
  | .imgExport => inRange (bufBase + s.arg 0) s.imgLen.toNat a
  | .imgZero => inRange imgBase s.imgLen.toNat a
  | .lineRecon _ => tagMayPass s (bufBase + s.arg 0) && inLineDestination s a
  | .lineFilter _ _ => inLineDestination s a
  | .imgRecon => ((List.range s.height.toNat).all fun y => tagMayPass s (imgBase + rowOff s y)) && inImageLines s a
  | .imgFilter _ => inImageLines s a
  | .stgRead => inRange (bufBase + s.arg 2) (s.arg 1) a
  | .stgWrite => amongNibbles s (s.arg 0 / 4) (2 * s.arg 1) a
  | .stgFrame => amongNibbles s 0 (2 * (s.arg 1 + 10)) a
  | .stgDetect => false
  | .stgExtract => inRange (bufBase + s.arg 0) (min (s.capBytes.toNat - 10) (s.params.bufBytes - s.arg 0)) a

/-- Whether the pending command will write the byte at a block address (R69). A command that fails writes none. One whose
rule reads a byte never written (R54) does not complete in the model; what the hardware then writes is at most what its
operands let it store (log 8). -/
def pendingWrites (s : State) (a : Nat) : Bool :=
  if s.pending = true then
    match decode s.cmd with
    | .error _ => false
    | .ok i =>
      match endOf i s with
      | .ok d => d.stores.any fun c => c.1 == a
      | .error (.raise _ _ _) => false
      | .error (.uninit _) => mayStore i s a
  else false

end Sys2Proof.Machine
end

