-- ==== Sys2Proof/Machine/HostBus.lean ====
section
/-! DEFINITION. One access of the host: the register map (spec/10_state.md R22, R23, R52), the windows and widths
(spec/20_memory.md R61 to R63, R69), the BUSY protocol (spec/70_reset_and_hazards.md R300). -/

namespace Sys2Proof.Machine

/-! ### The register window -/

/-- The register map: offsets of the register window (R23). -/
def regMap : List (Nat × RegName) :=
  [(0x000, .cmd), (0x004, .status), (0x008, .ctrl), (0x00C, .errA), (0x010, .errB)] ++
  [(0x020, .arg 0), (0x024, .arg 1), (0x028, .arg 2), (0x02C, .arg 3),
   (0x030, .arg 4), (0x034, .arg 5), (0x038, .arg 6), (0x03C, .arg 7)] ++
  [(0x040, .res 0), (0x044, .res 1), (0x048, .res 2), (0x04C, .res 3),
   (0x050, .res 4), (0x054, .res 5), (0x058, .res 6), (0x05C, .res 7)] ++
  [(0x060, .crcState), (0x080, .width), (0x084, .height), (0x088, .hdrFields), (0x08C, .hdrInterlace),
   (0x090, .kindInfo), (0x094, .stride), (0x098, .spanCount), (0x09C, .imgLen), (0x0A0, .imgInfo),
   (0x0A4, .capBits), (0x0A8, .capBytes)] ++
  [(0x0C0, .paramBufBytes), (0x0C4, .paramImgBytes), (0x0C8, .paramFlags)]

/-- The register at an offset; nothing at a reserved one (R23, R52). -/
def regAt (off : Nat) : Option RegName := regMap.lookup off

/-- The offset of a register (R23). -/
def regOffset (r : RegName) : Nat :=
  match r with
  | .cmd => 0x000
  | .status => 0x004
  | .ctrl => 0x008
  | .errA => 0x00C
  | .errB => 0x010
  | .arg k => 0x020 + 4 * k.val
  | .res k => 0x040 + 4 * k.val
  | .crcState => 0x060
  | .width => 0x080
  | .height => 0x084
  | .hdrFields => 0x088
  | .hdrInterlace => 0x08C
  | .kindInfo => 0x090
  | .stride => 0x094
  | .spanCount => 0x098
  | .imgLen => 0x09C
  | .imgInfo => 0x0A0
  | .capBits => 0x0A4
  | .capBytes => 0x0A8
  | .paramBufBytes => 0x0C0
  | .paramImgBytes => 0x0C4
  | .paramFlags => 0x0C8

/-- What a host read of a register returns; CTRL is write-only and reads 0 (R22, R24 to R45). -/
def readReg (s : State) (r : RegName) : Word :=
  match r with
  | .cmd => s.cmd
  | .status => statusWord s
  | .ctrl => 0
  | .errA => s.errA
  | .errB => s.errB
  | .arg k => s.args[k]
  | .res k => s.res[k]
  | .crcState => s.crcState
  | .width => s.width
  | .height => s.height
  | .hdrFields => s.hdrFields
  | .hdrInterlace => s.hdrInterlace
  | .kindInfo => kindInfoWord s
  | .stride => s.stride
  | .spanCount => s.spanCount
  | .imgLen => s.imgLen
  | .imgInfo => imgInfoWord s
  | .capBits => s.capBits
  | .capBytes => s.capBytes
  | .paramBufBytes => BitVec.ofNat 32 s.params.bufBytes
  | .paramImgBytes => BitVec.ofNat 32 s.params.imgBytes
  | .paramFlags => paramFlagsWord s.params

/-- The write of CTRL: bit 1 soft-resets (and so clears STICKY too), else bit 0 clears STICKY; the other bits are
ignored (spec/10_state.md R32). -/
def writeCtrl (v : Word) (s : State) : State :=
  if v.getLsbD 1 = true then softReset s
  else if v.getLsbD 0 = true then clearSticky s
  else s

/-- A host write of a register while BUSY = 0: CMD, CTRL and the ARG registers take it, a read-only register ignores it
(R22 to R25, R32). -/
def writeReg (r : RegName) (v : Word) (s : State) : State :=
  match r with
  | .cmd => issueCommand v s
  | .ctrl => writeCtrl v s
  | .arg k => { s with args := s.args.set k v }
  | _ => s

/-- The registers a host may not write while BUSY = 1 (spec/70_reset_and_hazards.md R300). -/
def busyGuarded (r : RegName) : Bool :=
  match r with
  | .cmd => true
  | .ctrl => true
  | .arg _ => true
  | _ => false

/-! ### Windows (spec/20_memory.md R61 to R63) -/

/-- Where an access goes. -/
inductive Target where
  | register (off : Nat)
  | bytes (addr : Nat)
  deriving DecidableEq, Repr

/-- `n` bytes from `a` on lie inside BUF or inside IMG (R61, R63; log 12). -/
abbrev insideMemory (p : Params) (a n : Nat) : Prop :=
  (bufBase ≤ a ∧ a + n ≤ bufBase + p.bufBytes) ∨ (imgBase ≤ a ∧ a + n ≤ imgBase + p.imgBytes)

/-- The target of an access of `n` bytes at a block address: registers take aligned 4-byte accesses, BUF and IMG
1-, 2- and 4-byte accesses aligned to their size; anything else is a bus error (R62, R63). -/
def targetOf (p : Params) (a n : Nat) : Option Target :=
  if a < 0x1000 then
    if n = 4 ∧ a % 4 = 0 then some (.register a) else none
  else if (n = 1 ∨ n = 2 ∨ n = 4) ∧ a % n = 0 ∧ insideMemory p a n then some (.bytes a)
  else none

/-! ### Reads and writes of BUF and IMG -/

/-- The byte a host read sees: while a command is pending, a byte it will write reads as a free value, and every other
byte as its stable value (R69; logs 6, 7). -/
def hostByte (s : State) (a draw : Nat) : Option Byte :=
  if pendingWrites s a = true then some (Config.freeByte draw) else s.mem.read a

/-- The bytes a host read sees from `a` on, with a fresh draw for each. -/
def hostBytes (s : State) (a draw : Nat) : Nat → Option (List Byte)
  | 0 => some []
  | n + 1 =>
    match hostByte s a draw, hostBytes s (a + 1) (draw + 1) n with
    | some b, some bs => some (b :: bs)
    | _, _ => none

/-- The first address of a host read that has no value. -/
def hostGap (s : State) (a draw : Nat) : Nat → Nat
  | 0 => a
  | n + 1 =>
    match hostByte s a draw with
    | none => a
    | some _ => hostGap s (a + 1) (draw + 1) n

/-- The state after a host read has returned `v` (log 5). -/
def pushRead (v : Word) (s : State) : State := { s with reads := v :: s.reads }

/-- The state after `n` more free values may have been drawn: only reads while a command is pending draw (log 6). -/
def countDraws (n : Nat) (s : State) : State :=
  if s.pending = true then { s with draws := s.draws + n } else s

/-- A host read of `n` bytes of BUF or IMG, little-endian (R62). -/
def readBytesAccess (s : State) (a n : Nat) : Host.Outcome State Fault Refusal :=
  match hostBytes s a s.draws n with
  | some bs => .next (countDraws n (pushRead (BitVec.ofNat 32 (leNat bs)) s))
  | none => .fault (.uninitRead (hostGap s a s.draws n))

/-- A host write of `n` bytes of BUF or IMG, little-endian (R62): nothing but the bytes changes
(spec/70_reset_and_hazards.md R302). -/
def writeBytesAccess (s : State) (a n : Nat) (v : Word) : State :=
  { s with mem := s.mem.writeCells (cellsAt a (toLe n v.toNat)) }

/-- One host access as one step (R62, R63, R69, R300). A bus error is found first (log 10). -/
def hostAccess (s : State) (acc : BusAccess) : Host.Outcome State Fault Refusal :=
  match acc with
  | .read addr n =>
    match targetOf s.params addr.toNat n with
    | none => .refused (.busError acc)
    | some (.register off) =>
      match regAt off with
      | some r => .next (pushRead (readReg s r) s)
      | none => .next (pushRead 0 s)
    | some (.bytes a) => readBytesAccess s a n
  | .write addr n v =>
    match targetOf s.params addr.toNat n with
    | none => .refused (.busError acc)
    | some (.register off) =>
      match regAt off with
      | some r =>
        if s.busy = true ∧ busyGuarded r = true then .refused (.protocolViolation acc)
        else .next (writeReg r v s)
      | none => .next s
    | some (.bytes a) =>
      if s.busy = true then .refused (.protocolViolation acc)
      else .next (writeBytesAccess s a n v)

/-- One turn of the schedule (spec/00_scope.md R6; spec/70_reset_and_hazards.md R290, R306). -/
def takeTurn (s : State) (e : Event) : Host.Outcome State Fault Refusal :=
  match e with
  | .host acc => hostAccess s acc
  | .sequencer => sequencerTurn s
  | .hardwareReset => .next (hardReset s)

/-- What happens when no turn is scheduled: a pending command is executed (R306, log 2), and otherwise the block is
idle and "holds all its state" (spec/60_exceptions.md R277, log 3). -/
def unscheduled (s : State) : Host.Outcome State Fault Refusal :=
  if s.pending = true then runCommand s else .next s

/-- The state in which the very next step is the sequencer's on the command word `w` (log 19). -/
def presentCommand (w : Word) (s : State) : State :=
  { issueCommand w s with schedule := .sequencer :: s.schedule }

end Sys2Proof.Machine
end

