-- ==== Sys2Proof/Machine/Step.lean ====
section
/-! DEFINITION. One step of the block with its surroundings (spec/00_scope.md R5, R6): the next turn of the schedule. -/

namespace Sys2Proof.Machine

/-- One step: the next scheduled turn, used up by being taken; with nothing scheduled, the sequencer or idleness. -/
def step (s : State) : Host.Outcome State Fault Refusal :=
  match s.schedule with
  | [] => unscheduled s
  | e :: rest => takeTurn { s with schedule := rest } e

/-- The state with a command word of `nbits` bits given as CMD, so that the very next step executes it: the host's
CMD write (R80) has been made and the sequencer has the next turn (log 19). -/
def State.withFetchWord (s : State) (nbits w : Nat) : State :=
  presentCommand (BitVec.ofNat 32 (w % 2 ^ nbits)) s

end Sys2Proof.Machine
end

