-- ==== Sys2Proof/Safety.lean ====
section
/-! DEFINITION. What holds of every state a run reaches: the invariant of the block, in the words of spec/10_state.md
R43, R48, R49, R53, spec/60_exceptions.md R260 to R263 and spec/20_memory.md R61, R65. -/

namespace Sys2Proof.Machine

/-- The configuration registers before any HDR_LOAD (spec/70_reset_and_hazards.md R290). -/
structure Unconfigured (s : State) : Prop where
  cfgValid : s.cfgValid = false
  imgState : s.imgState = .empty
  kind : s.kind = none
  width : s.width = 0
  height : s.height = 0
  hdrFields : s.hdrFields = 0
  hdrInterlace : s.hdrInterlace = 0
  stride : s.stride = 0
  spanCount : s.spanCount = 0
  imgLen : s.imgLen = 0
  capBits : s.capBits = 0
  capBytes : s.capBytes = 0

/-- The configuration registers once a HDR_LOAD has succeeded: the functions of WIDTH, HEIGHT and KIND that R53 names
(spec/10_state.md R37 to R45), for an image that fits in IMG. -/
structure Configured (s : State) (k : PixelKind) : Prop where
  cfgValid : s.cfgValid = true
  kind : s.kind = some k
  width : 1 ≤ s.width.toNat
  height : 1 ≤ s.height.toNat
  hdrFields : s.hdrFields = hdrFieldsOf (kindRow k).depth (kindRow k).colorType 0 0
  hdrInterlace : s.hdrInterlace = 0
  stride : s.stride.toNat = strideOf (kindRow k) s.width.toNat
  spanCount : s.spanCount.toNat = spanCountOf (kindRow k) s.width.toNat
  imgLen : s.imgLen.toNat = s.height.toNat * (1 + s.stride.toNat)
  fits : s.imgLen.toNat ≤ s.params.imgBytes
  capBits : s.capBits.toNat = capBitsOf k s.width.toNat s.height.toNat
  capBytes : s.capBytes.toNat = s.capBits.toNat / 8

/-- The invariant of the block. -/
structure BlockInv (s : State) : Prop where
  /-- The parameters are legal (spec/00_scope.md R7). -/
  params : s.params.legal
  /-- BUF and IMG are in canonical form. -/
  canonical : s.mem.wf
  /-- Only addresses inside BUF and IMG hold bytes (spec/20_memory.md R61). -/
  inside : ∀ c ∈ s.mem, mapped s.params c.1
  /-- `pending` always equals BUSY (spec/10_state.md R49). -/
  pending : s.pending = s.busy
  /-- ERR says whether CODE is an error (spec/10_state.md R29, R31). -/
  err : s.err = true ↔ s.code ≠ .ok
  /-- With CODE = 0 there is no error information (spec/60_exceptions.md R263). -/
  info : s.code = .ok → s.errA = 0 ∧ s.errB = 0
  /-- The configuration registers are consistent (spec/10_state.md R53). -/
  config : Unconfigured s ∨ ∃ k, Configured s k
  /-- An image that is not EMPTY has every one of its bytes written (spec/10_state.md R48). -/
  image : s.imgState ≠ .empty → s.cfgValid = true ∧ ∀ j < s.imgLen.toNat, (s.mem.read (imgBase + j)).isSome = true

/-- A schedule the host may make of the machine: no turn of it is refused or read from a byte never written. It is
what a claim about a run takes as its premise. -/
def safeRun : Nat → State → Prop
  | 0, _ => True
  | n + 1, s => ∃ t, step s = .next t ∧ safeRun n t

end Sys2Proof.Machine
end

