-- ==== Sys2Proof/Certificates/Slice0/Obligations.lean ====
section
/-! DEFINITION. The statements for the provers. Each says what the spec's rules say of a command or of the whole block. -/

namespace Sys2Proof.Claims

open Sys2Proof.Machine

/-! ### How a command's rule is stated: its errors in the spec's order, then its effect -/

/-- One line of a rule's "Errors in order": when it applies, the error, and the two information words. -/
abbrev ErrorLine := Bool × ErrorCode × Nat × Nat

/-- The first error of a rule that applies: later ones are not evaluated (spec/60_exceptions.md R266). -/
def firstError : List ErrorLine → Option (ErrorCode × Nat × Nat)
  | [] => none
  | (true, e, a, b) :: _ => some (e, a, b)
  | (false, _, _, _) :: rest => firstError rest

/-- The command raises the first error that applies and changes nothing else; when none applies it ANSWERS A NEXT STATE,
`done` completed. -/
def followsRule (i : Instr) (s : State) (errors : List ErrorLine) (done : State) : Prop :=
  (∀ e a b, firstError errors = some (e, a, b) → exec i s = .next (raiseError e a b s)) ∧
    (firstError errors = none → exec i s = .next (completeCommand done))

/-- `buf_check(off, n)` as a line (spec/20_memory.md R64). -/
def bufLine (s : State) (off n : Nat) : ErrorLine :=
  (decide (off + n > s.params.bufBytes), .outOfBounds, off + n, s.params.bufBytes)

/-- `need_cfg` as a line (spec/42_pixel.md R149). -/
def cfgLine (s : State) : ErrorLine := (!s.cfgValid, .noHeaderChunk, 0, 0)

/-- `need_image` as a line (R149). -/
def imageLine (s : State) : ErrorLine := (decide (s.imgState = .empty), .noImageData, 0, 0)

/-- The second test of `need_raw` as a line (R149). -/
def filteredLine (s : State) : ErrorLine := (decide (s.imgState = .filtered), .alreadyFiltered, 0, 0)

/-- The state with a byte sequence stored from a block address on: `MemWrite` (spec/00_scope.md R12). -/
def stored (s : State) (a : Nat) (bs : List Byte) : State := { s with mem := s.mem.writeCells (cellsAt a bs) }

/-- The state with ARG0 and ARG1 set to an offset and a length. -/
def atRange (s : State) (off n : Nat) : State :=
  { s with args := (s.args.set 0 (BitVec.ofNat 32 off)).set 1 (BitVec.ofNat 32 n) }

/-- The command encodings of spec/30_encoding.md R83 and R84, written out once more: each OPCODE with its defined-bit mask. -/
def opcodeMasks : List (Nat × BitVec 8) :=
  [(0x00, 0x00), (0x01, 0x00), (0x02, 0x00), (0x03, 0x00), (0x04, 0x00), (0x05, 0x00), (0x06, 0x01), (0x07, 0x00)] ++
  [(0x10, 0x00), (0x11, 0x00), (0x12, 0x00), (0x13, 0x00), (0x14, 0x00), (0x15, 0x00)] ++
  [(0x20, 0x08), (0x21, 0x0F), (0x22, 0x00), (0x23, 0x07)] ++
  [(0x30, 0x00), (0x31, 0x00), (0x32, 0x00), (0x33, 0x00), (0x34, 0x00)]

/-- The three ways a word is illegal (spec/30_encoding.md R85 (a)). -/
def illegalWord (w : Word) : Prop :=
  w.extractLsb' 16 16 ≠ 0 ∨
    (∀ row ∈ opcodeMasks, row.1 ≠ (w.extractLsb' 0 8).toNat) ∨
      ∃ row ∈ opcodeMasks, row.1 = (w.extractLsb' 0 8).toNat ∧ w.extractLsb' 8 8 &&& ~~~row.2 ≠ 0

/-! ### Which registers and which bytes a command writes (spec/30_encoding.md R86) -/

/-- The RES registers a command names (R86). -/
def resultsOf : Instr → List Nat
  | .nop => []
  | .crcInit => []
  | .crcUpdate => []
  | .crcFinal => [0]
  | .crcBlock => [0]
  | .sigCheck => [0]
  | .chunkCheck _ => [0, 1, 2, 3, 4, 5, 6]
  | .chunkEmit => [0, 1]
  | .hdrLoad => []
  | .pixRead => [0, 1, 2]
  | .pixWrite => []
  | .imgImport => [0]
  | .imgExport => [0, 1]
  | .imgZero => []
  | .lineRecon _ => [0]
  | .lineFilter _ _ => [0, 1, 2, 3, 4, 5, 6]
  | .imgRecon => []
  | .imgFilter _ => []
  | .stgRead => []
  | .stgWrite => []
  | .stgFrame => [0]
  | .stgDetect => [0, 1]
  | .stgExtract => [0]

/-- The commands that store no byte. -/
def storesNothing : Instr → Prop
  | .nop => True
  | .crcInit => True
  | .crcUpdate => True
  | .crcFinal => True
  | .crcBlock => True
  | .sigCheck => True
  | .chunkCheck _ => True
  | .hdrLoad => True
  | .pixRead => True
  | .stgDetect => True
  | _ => False

/-- Where the line commands write: the destination in BUF and `1 + stride` bytes, by the current line's kind and
width (spec/43_filter.md R190). -/
def lineDestination (s : State) : Option (Nat × Nat) :=
  (kindOfCode (currentKindCode s)).map fun k => (bufBase + s.arg 2, lineLen (kindRow k) (s.arg 4))

/-- The configuration registers (spec/10_state.md R35 to R45). -/
def sameConfig (s t : State) : Prop :=
  t.width = s.width ∧ t.height = s.height ∧ t.hdrFields = s.hdrFields ∧ t.hdrInterlace = s.hdrInterlace ∧
    t.kind = s.kind ∧ t.stride = s.stride ∧ t.spanCount = s.spanCount ∧ t.imgLen = s.imgLen ∧
      t.cfgValid = s.cfgValid ∧ t.capBits = s.capBits ∧ t.capBytes = s.capBytes

/-! ### Lines and the nibble stream -/

/-- The raw data bytes of line `y` as the encoder takes them: padding cleared when PAD_MODE = 1 (spec/43_filter.md R186). -/
def encoderRow (s : State) (y : Nat) : Option (List Byte) :=
  (s.mem.readBytes (imgBase + rowOff s y + 1) s.stride.toNat).map fun bs =>
    if s.params.padMode = true then padClear s.kindRow s.width.toNat bs else bs

/-- The filter a SEL value selects: 0 to 4 name it, 5 is the adaptive selector (spec/30_encoding.md R84). -/
def chosenFilter (sel d : Nat) (r : List Byte) (u : Option (List Byte)) (t : FilterType) : Prop :=
  (sel ≤ 4 ∧ filterTag t = sel) ∨ (sel = 5 ∧ t = adaptiveFilter d r u)

/-- The low nibble of a channel byte (spec/44_stego.md R222). -/
def nibbleOf (s : State) (q : Nat) : Nat := (((s.mem.read (nibAddr s q)).map BitVec.toNat).getD 0) % 16

/-- The byte of the nibble stream at bit offset `b` (spec/44_stego.md R223): its low nibble first. -/
def streamByte (s : State) (b : Nat) : Byte := BitVec.ofNat 8 (nibbleOf s (b / 4) + 16 * nibbleOf s (b / 4 + 1))

/-- A frame of a body of `len` bytes stands at bit offset 0 (spec/44_stego.md R225, spec/30_encoding.md R98). -/
def framePresent (s : State) (len : Nat) : Prop :=
  10 + len ≤ s.capBytes.toNat ∧
    [streamByte s 0, streamByte s 8, streamByte s 16] = [0x46, 0x43, 0x44] ∧
      le32 [streamByte s 24, streamByte s 32, streamByte s 40, streamByte s 48] = len ∧
        [streamByte s (56 + 8 * len), streamByte s (64 + 8 * len), streamByte s (72 + 8 * len)] = [0x44, 0x43, 0x46]

/-- The shared checks of every STU command as lines (spec/44_stego.md R226). -/
def stegoLines (s : State) : List ErrorLine :=
  [cfgLine s, (decide (s.kind ≠ some .rgb8 ∧ s.kind ≠ some .rgba8), .unsupportedPixelKind, s.kindRow.code, 0),
    imageLine s, filteredLine s]

/-- The offset checks as lines (spec/44_stego.md R224). -/
def offsetLines (s : State) (b n : Nat) : List ErrorLine :=
  [(decide (b % 4 ≠ 0), .invalidBitOffset, b, 0),
    (decide (b + 8 * n > s.capBits.toNat), .outOfBounds, b + 8 * n, s.capBits.toNat)]

/-- The checks of the line commands as lines, down to `buf_check(dst, 1 + S)`, for the current kind `k`
(spec/43_filter.md R190). -/
def lineLines (p : Bool) (s : State) (k : PixelKind) : List ErrorLine :=
  let kc := s.arg 3 % 256
  let kp := s.arg 3 / 256 % 256
  let w := s.arg 4
  let wp := s.arg 5
  let len := 1 + strideOf (kindRow k) w
  [(decide (kc > 14), .invalidPixelKind, kc, 0),
    (p && decide (kp > 14), .invalidPixelKind, kp, 0),
    (decide (w = 0) || (p && decide (wp = 0)), .noPixels, w, wp),
    (p && (decide (kp ≠ kc) || decide (spanCountOf (kindRow k) wp ≠ spanCountOf (kindRow k) w)), .scanlineMismatch, 0, 0),
    bufLine s (s.arg 0) len,
    (p && decide (s.arg 1 + len > s.params.bufBytes), .outOfBounds, s.arg 1 + len, s.params.bufBytes),
    bufLine s (s.arg 2) len]

/-! ### Neighbours and predictors (spec/43_filter.md R180, R182, R183) -/

/-- `left(v, k)` at byte distance `d` (R180). -/
def leftOf (d : Nat) (v : List Byte) (k : Nat) : Nat := if d ≤ k then (v.getD (k - d) 0).toNat else 0

/-- `up(u, k)` (R180). -/
def upOf (u : Option (List Byte)) (k : Nat) : Nat := u.elim 0 fun v => (v.getD k 0).toNat

/-- `upleft(u, k)` (R180). -/
def upLeftOf (d : Nat) (u : Option (List Byte)) (k : Nat) : Nat := u.elim 0 fun v => leftOf d v k

/-- `paeth(a, b, c)`: the one of left, up and upleft that is nearest to `a + b − c`, ties in that order (R182). -/
def paethOf (a b c : Nat) : Nat :=
  let p : Int := a + b - c
  if |p - a| ≤ |p - b| ∧ |p - a| ≤ |p - c| then a else if |p - b| ≤ |p - c| then b else c

/-- `pred(t, a, b, c)` for the tags 0 to 4 (R183). -/
def predictorOf (tag a b c : Nat) : Nat :=
  match tag with
  | 0 => 0
  | 1 => a
  | 2 => b
  | 3 => (a + b) / 2
  | _ => paethOf a b c

/-- The predictor of byte `k` of a line with that tag, formed from the line `v` and the previous line `u` (R183). -/
def predictionOf (tag d : Nat) (v : List Byte) (u : Option (List Byte)) (k : Nat) : Nat :=
  predictorOf tag (leftOf d v k) (upOf u k) (upLeftOf d u k)

/-! ### Tables of the spec, written out once more -/

/-- The kind table: code, colour type, bit depth, channels, BPP, SPS, SPAN_BYTES (spec/42_pixel.md R140). -/
def kindTable : List (PixelKind × List Nat) :=
  [(.g1, [0, 0, 1, 1, 1, 8, 1]), (.g2, [1, 0, 2, 1, 2, 4, 1]), (.g4, [2, 0, 4, 1, 4, 2, 1]),
    (.g8, [3, 0, 8, 1, 8, 1, 1]), (.g16, [4, 0, 16, 1, 16, 1, 2])] ++
  [(.rgb8, [5, 2, 8, 3, 24, 1, 3]), (.rgb16, [6, 2, 16, 3, 48, 1, 6])] ++
  [(.p1, [7, 3, 1, 1, 1, 8, 1]), (.p2, [8, 3, 2, 1, 2, 4, 1]), (.p4, [9, 3, 4, 1, 4, 2, 1]), (.p8, [10, 3, 8, 1, 8, 1, 1])] ++
  [(.ga8, [11, 4, 8, 2, 16, 1, 2]), (.ga16, [12, 4, 16, 2, 32, 1, 4])] ++
  [(.rgba8, [13, 6, 8, 4, 32, 1, 4]), (.rgba16, [14, 6, 16, 4, 64, 1, 8])]

/-- The error codes and their numbers (spec/60_exceptions.md R260). -/
def codeTable : List (ErrorCode × Nat) :=
  [(.ok, 0x00), (.badSignature, 0x01), (.truncated, 0x02), (.badCrc, 0x03), (.invalidChunkTag, 0x04),
    (.invalidColorType, 0x05), (.invalidBitDepth, 0x06), (.invalidFilterType, 0x07), (.invalidPixelKind, 0x08)] ++
  [(.noHeaderChunk, 0x09), (.noImageData, 0x0A), (.noImageDataChunks, 0x0B), (.alreadyFiltered, 0x0C), (.outOfBounds, 0x0D),
    (.insufficientSize, 0x0E), (.integerOverflow, 0x0F), (.scanlineMismatch, 0x10), (.pixelKindMismatch, 0x11)] ++
  [(.noPixels, 0x12), (.unsupportedPixelKind, 0x13), (.imageTooSmall, 0x14), (.invalidBitOffset, 0x15), (.noStegoData, 0x16),
    (.pixelMismatch, 0x17), (.unsupportedMethod, 0x18), (.illegalCommand, 0x19)]

/-- The values of IMG_STATE (spec/10_state.md R43). -/
def imgStateTable : List (ImgState × Nat) := [(.empty, 0), (.filtered, 1), (.raw, 2)]

/-- The register map: each offset with what a read of it returns (spec/10_state.md R23; ARG and RES stand beside it). -/
def registerTable (s : State) : List (Nat × Word) :=
  [(0x000, s.cmd), (0x004, statusWord s), (0x008, 0), (0x00C, s.errA), (0x010, s.errB), (0x060, s.crcState)] ++
  [(0x080, s.width), (0x084, s.height), (0x088, s.hdrFields), (0x08C, s.hdrInterlace), (0x090, kindInfoWord s),
    (0x094, s.stride), (0x098, s.spanCount), (0x09C, s.imgLen), (0x0A0, imgInfoWord s), (0x0A4, s.capBits),
    (0x0A8, s.capBytes)] ++
  [(0x0C0, BitVec.ofNat 32 s.params.bufBytes), (0x0C4, BitVec.ofNat 32 s.params.imgBytes), (0x0C8, paramFlagsWord s.params)]

/-! ### What a host sees while a command is pending (spec/20_memory.md R69) -/

/-- The block address `a` is in the destination that a command's rule names, by its operands and the configuration: the
bytes it may write when it completes (spec/30_encoding.md R86 and each command's rule). A frame found by STG_EXTRACT may be as
long as the capacity. -/
def inDestination (i : Instr) (s : State) (a : Nat) : Prop :=
  let within : Nat → Nat → Prop := fun base n => base ≤ a ∧ a < base + n
  match i with
  | .chunkEmit => within (bufBase + s.arg 3) (12 + s.arg 1)
  | .pixWrite => within (spanAddr s (s.arg 0) (s.arg 1)) s.kindRow.spanBytes
  | .imgImport => within imgBase s.imgLen.toNat
  | .imgExport => within (bufBase + s.arg 0) s.imgLen.toNat
  | .imgZero => within imgBase s.imgLen.toNat
  | .lineRecon _ => ∃ base n, lineDestination s = some (base, n) ∧ within base n
  | .lineFilter _ _ => ∃ base n, lineDestination s = some (base, n) ∧ within base n
  | .imgRecon => within imgBase (s.height.toNat * (1 + s.stride.toNat))
  | .imgFilter _ => within imgBase (s.height.toNat * (1 + s.stride.toNat))
  | .stgRead => within (bufBase + s.arg 2) (s.arg 1)
  | .stgWrite => ∃ q, s.arg 0 / 4 ≤ q ∧ q < s.arg 0 / 4 + 2 * s.arg 1 ∧ nibAddr s q = a
  | .stgFrame => ∃ q < 2 * (s.arg 1 + 10), nibAddr s q = a
  | .stgExtract => within (bufBase + s.arg 0) (s.capBytes.toNat - 10) ∧ a < bufBase + s.params.bufBytes
  | _ => False

/-- The byte that a host read sees at a block address, its free value being the draw `k`: any value in the pending command's
write set, and elsewhere the byte that stands there (R69). -/
def seesByte (s : State) (a k : Nat) (b : Byte) : Prop :=
  (pendingWrites s a = true ∧ b = Config.freeByte k) ∨ (pendingWrites s a = false ∧ s.mem.read a = some b)

/-- Every byte of a tag is an ASCII byte, its top bit 0 (spec/41_crc_frame.md R113). -/
def asciiTag (tag : List Byte) : Bool := tag.all fun b => !b.getLsbD 7

/-- The registers a host access can name that only the block writes (spec/10_state.md R23: access RO). -/
def readOnly : RegName → Prop
  | .cmd => False
  | .ctrl => False
  | .arg _ => False
  | _ => True

/-- A host access that is no bus error (spec/20_memory.md R62, R63). -/
def legalAccess (p : Params) (a n : Nat) : Prop :=
  (a < 0x1000 ∧ n = 4 ∧ a % 4 = 0) ∨
    ((n = 1 ∨ n = 2 ∨ n = 4) ∧ a % n = 0 ∧
      ((0x01000000 ≤ a ∧ a + n ≤ 0x01000000 + p.bufBytes) ∨ (0x02000000 ≤ a ∧ a + n ≤ 0x02000000 + p.imgBytes)))

end Sys2Proof.Claims

open Sys2Proof Sys2Proof.Machine Sys2Proof.Claims

/-! ### Encoding -/

/-- Decoding the word of a well-formed command gives the command back, with every MODE field at every value
(spec/30_encoding.md R81, R83, R84, R92). -/
def Obligations.DecodeOfEncode : Prop := ∀ i : Instr, i.wf = true → decode (encode i) = .ok i

/-- A word that decodes is the word of the command it decodes to: no bit of it is dropped and no two words have
one meaning (R81, R84, R85). -/
def Obligations.EncodeOfDecode : Prop := ∀ (w : Word) (i : Instr), decode w = .ok i → encode i = w ∧ i.wf = true

/-- A few words written out from R83, R84 and R92 decode to their commands. -/
def Obligations.KnownWordsDecode : Prop :=
  decode 0x00000106 = .ok (.chunkCheck true) ∧ decode 0x00000D21 = .ok (.lineFilter 5 true) ∧
    decode 0x00000023 = .ok (.imgFilter 0) ∧ decode 0x00000523 = .ok (.imgFilter 5) ∧
      decode 0x00000820 = .ok (.lineRecon true) ∧ decode 0x00000012 = .ok .pixWrite ∧ decode 0x00000034 = .ok .stgExtract

/-- Every word in CMD is a command, which the sequencer's step runs, or illegal, and never both: RSV ≠ 0, an OPCODE not in
the map and an undefined MODE bit raise IllegalCommand with the word and do nothing else; the decoder is total (R82, R85). -/
def Obligations.EveryWordRunsOrIsIllegal : Prop :=
  ∀ s : State, s.pending = true →
    (illegalWord s.cmd → sequencerTurn s = .next (raiseError .illegalCommand s.cmd.toNat 0 s)) ∧
    (illegalWord s.cmd ↔ ∃ r, decode s.cmd = .error r) ∧
    (¬illegalWord s.cmd → ∃ i, i.wf = true ∧ decode s.cmd = .ok i ∧ sequencerTurn s = exec i s)

/-! ### The step -/

/-- With a command pending, the step of the sequencer is exec of the decoded command, or, when the word in CMD is illegal,
IllegalCommand with the word, at its scheduled turn and also when no turn is left (R82, R85); a scheduled turn of the host is
its one access (spec/00_scope.md R6, spec/70_reset_and_hazards.md R306); with nothing pending and nothing scheduled the block
holds all its state (spec/60_exceptions.md R277). That a turn is used up by being taken, that an unpending turn is refused and
that an idle step is a next state are the model's choices (logs 2, 3, 4). -/
def Obligations.StepRunsDecodedCommand : Prop :=
  (∀ (s : State) (i : Instr), s.pending = true → decode s.cmd = .ok i →
    (s.schedule = [] → step s = exec i s) ∧
      ∀ rest, s.schedule = .sequencer :: rest → step s = exec i { s with schedule := rest }) ∧
  (∀ s : State, s.pending = true → illegalWord s.cmd →
    (s.schedule = [] → step s = .next (raiseError .illegalCommand s.cmd.toNat 0 s)) ∧
      ∀ rest, s.schedule = .sequencer :: rest →
        step s = .next (raiseError .illegalCommand s.cmd.toNat 0 { s with schedule := rest })) ∧
  (∀ (s : State) (acc : BusAccess) (rest : List Event), s.schedule = .host acc :: rest →
    step s = hostAccess { s with schedule := rest } acc) ∧
  ∀ s : State, s.pending = false →
    sequencerTurn s = .refused .sequencerIdle ∧ (s.schedule = [] → step s = .next s) ∧
      ∀ rest, s.schedule = .sequencer :: rest → step s = .refused .sequencerIdle

/-! ### Every command -/

/-- `raise E(a, b)` sets CODE, ERR and STICKY, puts its arguments, at most 0xFFFF_FFFF, in ERR_A and ERR_B, clears pending
and BUSY and changes nothing else; and a command that ends with ERR = 1 has done exactly this (spec/60_exceptions.md R262). -/
def Obligations.FailedCommandChangesOnlyStatus : Prop :=
  (∀ (e : ErrorCode) (a b : Nat) (s : State), raiseError e a b s =
    { s with
      code := e, err := true, sticky := true
      errA := BitVec.ofNat 32 (min a 0xFFFFFFFF), errB := BitVec.ofNat 32 (min b 0xFFFFFFFF)
      pending := false, busy := false }) ∧
  ∀ (i : Instr) (s t : State), exec i s = .next t → t.err = true → ∃ e a b, e ≠ .ok ∧ t = raiseError e a b s

/-- `complete` writes CODE, ERR, ERR_A and ERR_B to 0, leaves STICKY, clears pending and BUSY and changes nothing else; and a
command that ends with ERR = 0 has done so, with its own writes (R263). -/
def Obligations.CompletedCommandClearsError : Prop :=
  (∀ s : State, completeCommand s =
    { s with code := .ok, err := false, errA := 0, errB := 0, pending := false, busy := false }) ∧
  ∀ (i : Instr) (s t : State), exec i s = .next t → t.err = false →
    t.code = .ok ∧ t.errA = 0 ∧ t.errB = 0 ∧ t.sticky = s.sticky ∧ t.pending = false ∧ t.busy = false

/-- No command is refused, and a command stops only on a byte that has not been written since hardware reset
(spec/10_state.md R54). -/
def Obligations.CommandsStopOnlyOnUnwrittenBytes : Prop :=
  ∀ (i : Instr) (s : State),
    (∀ r, exec i s ≠ .refused r) ∧ ∀ f, exec i s = .fault f → ∃ a, f = .uninitRead a ∧ s.mem.read a = none

/-- No command writes CMD, an ARG register or a parameter (spec/10_state.md R24, R25, R44), nor the model's own fields (logs
2, 5, 6). -/
def Obligations.CommandsKeepOperands : Prop :=
  ∀ (i : Instr) (s t : State), exec i s = .next t →
    t.args = s.args ∧ t.cmd = s.cmd ∧ t.params = s.params ∧
      t.schedule = s.schedule ∧ t.reads = s.reads ∧ t.draws = s.draws

/-- Only CRC_INIT and CRC_UPDATE change CRC_STATE (spec/70_reset_and_hazards.md R304). -/
def Obligations.OnlyCrcCommandsChangeCrcState : Prop :=
  ∀ (i : Instr) (s t : State), i ≠ .crcInit → i ≠ .crcUpdate → exec i s = .next t → t.crcState = s.crcState

/-- Only HDR_LOAD changes a configuration register (spec/10_state.md R53). -/
def Obligations.OnlyHdrLoadConfigures : Prop :=
  ∀ (i : Instr) (s t : State), i ≠ .hdrLoad → exec i s = .next t → sameConfig s t

/-- The lifecycle of the image: which completed command leaves it EMPTY, FILTERED or RAW, and that nothing else changes
IMG_STATE (spec/10_state.md R48). -/
def Obligations.ImageStateTransitions : Prop :=
  ∀ (i : Instr) (s t : State), exec i s = .next t →
    t.imgState =
      if t.err = true then s.imgState
      else
        match i with
        | .hdrLoad => .empty
        | .imgImport => .filtered
        | .imgFilter _ => .filtered
        | .imgRecon => .raw
        | .imgZero => .raw
        | _ => s.imgState

/-- A command writes no RES register but those it names (spec/10_state.md R26, spec/30_encoding.md R86). -/
def Obligations.CommandsWriteOnlyNamedResults : Prop :=
  ∀ (i : Instr) (s t : State) (k : Fin 8), exec i s = .next t → k.val ∉ resultsOf i → t.res[k] = s.res[k]

/-! ### Which bytes a command stores -/

/-- The commands that store nothing leave every byte of BUF and IMG. -/
def Obligations.RegisterCommandsKeepMemory : Prop :=
  ∀ (i : Instr) (s t : State), storesNothing i → exec i s = .next t → ∀ a, t.mem.read a = s.mem.read a

/-- CHUNK_EMIT, IMG_EXPORT, STG_READ and STG_EXTRACT store only to their destination in BUF, computed from their
operands (spec/41_crc_frame.md R127, spec/42_pixel.md R154, spec/44_stego.md R230, R234). -/
def Obligations.BufferCommandsStoreOnlyDestination : Prop :=
  ∀ (s t : State) (a : Nat),
    (exec .chunkEmit s = .next t → (a < bufBase + s.arg 3 ∨ bufBase + s.arg 3 + (12 + s.arg 1) ≤ a) →
      t.mem.read a = s.mem.read a) ∧
    (exec .imgExport s = .next t → (a < bufBase + s.arg 0 ∨ bufBase + s.arg 0 + s.imgLen.toNat ≤ a) →
      t.mem.read a = s.mem.read a) ∧
    (exec .stgRead s = .next t → (a < bufBase + s.arg 2 ∨ bufBase + s.arg 2 + s.arg 1 ≤ a) →
      t.mem.read a = s.mem.read a) ∧
    (exec .stgExtract s = .next t → t.err = false →
      (a < bufBase + s.arg 0 ∨ bufBase + s.arg 0 + (t.res[0]).toNat ≤ a) → t.mem.read a = s.mem.read a)

/-- LINE_RECON and LINE_FILTER store only the destination line: its address by ARG2, its length by the current line's
kind and width (spec/43_filter.md R190, R191). -/
def Obligations.LineCommandsStoreOnlyDestination : Prop :=
  ∀ (i : Instr) (s t : State) (a : Nat), (∃ p, i = .lineRecon p) ∨ (∃ sel p, i = .lineFilter sel p) →
    exec i s = .next t →
      (∀ dst len, lineDestination s = some (dst, len) → a < dst ∨ dst + len ≤ a) → t.mem.read a = s.mem.read a

/-- PIX_WRITE stores only to its span; IMG_IMPORT, IMG_ZERO, IMG_RECON and IMG_FILTER store only to the image, the first
IMG_LEN bytes of IMG (spec/10_state.md R47). -/
def Obligations.ImageCommandsStoreOnlyImage : Prop :=
  ∀ (s t : State) (a : Nat), BlockInv s →
    (exec .pixWrite s = .next t →
      (a < spanAddr s (s.arg 0) (s.arg 1) ∨ spanAddr s (s.arg 0) (s.arg 1) + s.kindRow.spanBytes ≤ a) →
        t.mem.read a = s.mem.read a) ∧
    ∀ i, i = .imgImport ∨ i = .imgZero ∨ i = .imgRecon ∨ (∃ sel, i = .imgFilter sel) →
      exec i s = .next t → (a < imgBase ∨ imgBase + s.imgLen.toNat ≤ a) → t.mem.read a = s.mem.read a

/-- STG_WRITE and STG_FRAME change only low nibbles of the channel bytes they address: every other byte, and the high
nibble of those, stays (spec/44_stego.md R222). -/
def Obligations.StegoWritesOnlyAddressedNibbles : Prop :=
  ∀ (s t : State) (a : Nat),
    (exec .stgWrite s = .next t →
      (∀ q, s.arg 0 / 4 ≤ q → q < s.arg 0 / 4 + 2 * s.arg 1 → a ≠ nibAddr s q) → t.mem.read a = s.mem.read a) ∧
    (exec .stgFrame s = .next t →
      (∀ q < 2 * (s.arg 1 + 10), a ≠ nibAddr s q) → t.mem.read a = s.mem.read a) ∧
    ∀ i b c, i = .stgWrite ∨ i = .stgFrame → exec i s = .next t → s.mem.read a = some b → t.mem.read a = some c →
      b.extractLsb' 4 4 = c.extractLsb' 4 4

/-! ### The CRC unit -/

/-- NOP, CRC_INIT and CRC_FINAL complete from every state, with exactly the effect their rules give
(spec/41_crc_frame.md R120, R121, R123). -/
def Obligations.CrcRegisterCommandsComplete : Prop :=
  ∀ s : State,
    exec .nop s = .next (completeCommand s) ∧
    exec .crcInit s = .next (completeCommand { s with crcState := 0xFFFFFFFF }) ∧
    exec .crcFinal s = .next (completeCommand { s with res := s.res.set 0 (s.crcState ^^^ 0xFFFFFFFF) })

/-- CRC_UPDATE folds a BUF range into CRC_STATE; CRC_BLOCK returns the CRC of a BUF range (R122, R124). -/
def Obligations.CrcRangeCommandsFollowTheirRules : Prop :=
  ∀ (s : State) (bs : List Byte),
    (s.arg 0 + s.arg 1 ≤ s.params.bufBytes → s.mem.readBytes (bufBase + s.arg 0) (s.arg 1) = some bs) →
      followsRule .crcUpdate s [bufLine s (s.arg 0) (s.arg 1)] { s with crcState := crcUpdate s.crcState bs } ∧
      followsRule .crcBlock s [bufLine s (s.arg 0) (s.arg 1)] { s with res := s.res.set 0 (crc32 bs) }

/-- `crc_update` takes the bytes one by one, eight right shifts each, with the reflected polynomial 0xEDB88320; `crc32`
starts from and ends with an XOR of 0xFFFF_FFFF; the check value of "IHDR" is 0xA8A1AE0A (R110, R111, R112; the polynomial is
the spec's own general knowledge, log 14); so splitting a sequence over two CRC_UPDATEs gives the CRC_STATE of one (R122). -/
def Obligations.CrcUpdateSplits : Prop :=
  (∀ c : Word, crcUpdate c [] = c) ∧
  (∀ (c : Word) (b : Byte) (bs : List Byte), crcUpdate c (b :: bs) =
    crcUpdate ((List.range 8).foldl (fun c _ => if c.getLsbD 0 = true then (c >>> 1) ^^^ 0xEDB88320 else c >>> 1)
      (c ^^^ b.setWidth 32)) bs) ∧
  (∀ bs : List Byte, crc32 bs = crcUpdate 0xFFFFFFFF bs ^^^ 0xFFFFFFFF) ∧
  crc32 [0x49, 0x48, 0x44, 0x52] = 0xA8A1AE0A ∧
  ∀ (s : State) (off n m : Nat) (xs ys : List Byte), s.params.legal → off + n + m ≤ s.params.bufBytes →
    s.mem.readBytes (bufBase + off) n = some xs → s.mem.readBytes (bufBase + off + n) m = some ys →
      ∃ t u v, exec .crcUpdate (atRange s off n) = .next t ∧ exec .crcUpdate (atRange t (off + n) m) = .next u ∧
        exec .crcUpdate (atRange s off (n + m)) = .next v ∧ u.crcState = v.crcState

/-- SIG_CHECK accepts exactly the eight signature bytes (R125). -/
def Obligations.SigCheckFollowsItsRule : Prop :=
  ∀ (s : State) (h : List Byte),
    (s.arg 0 + s.arg 1 ≤ s.params.bufBytes → 8 ≤ s.arg 1 → s.mem.readBytes (bufBase + s.arg 0) 8 = some h) →
      followsRule .sigCheck s
        [bufLine s (s.arg 0) (s.arg 1), (decide (s.arg 1 < 8), .truncated, 8, s.arg 1),
          (decide (h ≠ [0x89, 0x50, 0x4E, 0x47, 0x0D, 0x0A, 0x1A, 0x0A]), .badSignature, be32 (h.take 4), be32 (h.drop 4))]
        (s.setRes 0 (s.arg 0 + 8))

/-- CHUNK_CHECK: its errors in order, and the seven results of a chunk it accepts (R126). -/
def Obligations.ChunkCheckFollowsItsRule : Prop :=
  ∀ (v : Bool) (s : State) (h data cb : List Byte),
    let off := s.arg 0
    let avail := s.arg 1
    let len := be32 (h.take 4)
    let tag := h.drop 4
    let stored := be32 cb
    let comp := (crc32 (tag ++ data)).toNat
    let errors : List ErrorLine :=
      [bufLine s off avail, (decide (avail < 8), .truncated, 8, avail),
        (decide (len > 0x7FFFFFFF), .truncated, 12 + len, avail), (decide (avail < 12 + len), .truncated, 12 + len, avail),
        (s.params.tagCheck && !asciiTag tag, .invalidChunkTag, be32 tag, 0)]
    (off + avail ≤ s.params.bufBytes → 8 ≤ avail → s.mem.readBytes (bufBase + off) 8 = some h) →
    (firstError errors = none → s.mem.readBytes (bufBase + off + 8) len = some data ∧
      s.mem.readBytes (bufBase + off + 8 + len) 4 = some cb) →
      followsRule (.chunkCheck v) s (errors ++ [(v && decide (stored ≠ comp), .badCrc, stored, comp)])
        (((((((s.setRes 0 len).setRes 1 (be32 tag)).setRes 2 stored).setRes 3 comp).setRes 4 (off + 8)).setRes 5
          (off + 12 + len)).setRes 6 (if stored = comp then 1 else 0))

/-- CHUNK_EMIT: its errors in order, and the frame it writes (R127, spec/30_encoding.md R95). -/
def Obligations.ChunkEmitFollowsItsRule : Prop :=
  ∀ (s : State) (data : List Byte),
    let src := s.arg 0
    let n := s.arg 1
    let tag := toBe32 (s.arg 2)
    let dst := s.arg 3
    let c := (crc32 (tag ++ data)).toNat
    let errors : List ErrorLine :=
      [(decide (n > 0x7FFFFFFF), .integerOverflow, n, 0x7FFFFFFF),
        (s.params.tagCheck && !asciiTag tag, .invalidChunkTag, s.arg 2, 0), bufLine s src n,
        (decide (dst + 12 + n > s.params.bufBytes), .outOfBounds, dst + 12 + n, s.params.bufBytes)]
    (firstError errors = none → s.mem.readBytes (bufBase + src) n = some data) →
      followsRule .chunkEmit s errors
        (stored ((s.setRes 0 c).setRes 1 (dst + 12 + n)) (bufBase + dst) (toBe32 n ++ tag ++ data ++ toBe32 c))

/-- A chunk that CHUNK_EMIT wrote passes CHUNK_CHECK.V, with the same length, tag and CRC (R127: round trip). -/
def Obligations.EmittedChunkPassesCheck : Prop :=
  ∀ s t : State, s.params.legal → exec .chunkEmit s = .next t → t.err = false →
    ∃ u, exec (.chunkCheck true) (atRange t (s.arg 3) (12 + s.arg 1)) = .next u ∧ u.err = false ∧
      (u.res[0]).toNat = s.arg 1 ∧ u.res[1] = s.args[2] ∧ u.res[2] = t.res[0] ∧ u.res[3] = t.res[0] ∧ u.res[6] = 1

/-- A chunk that CHUNK_CHECK.V accepts is no longer accepted once one byte of its data is changed: BadCrc is raised
(from R110, R111, R126). -/
def Obligations.DamagedChunkRaisesBadCrc : Prop :=
  ∀ (s t : State) (j : Nat) (b b' : Byte), s.params.legal →
    exec (.chunkCheck true) s = .next t → t.err = false → j < (t.res[0]).toNat →
      s.mem.read (bufBase + s.arg 0 + 8 + j) = some b → b' ≠ b →
        let s' : State := { s with mem := s.mem.write (bufBase + s.arg 0 + 8 + j) b' }
        ∃ c, c ≠ (t.res[2]).toNat ∧
          exec (.chunkCheck true) s' = .next (raiseError .badCrc (t.res[2]).toNat c s')

/-! ### The pixel unit -/

/-- The kind table of R140, row by row, and the sizes of R142: the stride is ⌈W·BPP / 8⌉ and the span count ⌈W / SPS⌉, and for
every kind and width the stride is the span count times the span's bytes. The kind of a colour type and bit depth, and of a
code, is the row that has them (spec/42_pixel.md R141). Some columns are the spec's own general knowledge (logs 15, 16). -/
def Obligations.StrideIsSpansTimesSpanBytes : Prop :=
  (∀ row ∈ kindTable, let r := kindRow row.1
    [r.code, r.colorType, r.depth, r.chans, r.bpp, r.sps, r.spanBytes] = row.2) ∧
  ∀ (k : PixelKind) (w : Nat), 1 ≤ w →
    (∃ cols, (k, cols) ∈ kindTable) ∧
      strideOf (kindRow k) w = (w * (kindRow k).bpp + 7) / 8 ∧
      spanCountOf (kindRow k) w = (w + (kindRow k).sps - 1) / (kindRow k).sps ∧
      strideOf (kindRow k) w = spanCountOf (kindRow k) w * (kindRow k).spanBytes ∧
      (kindRow k).bpp = (kindRow k).chans * (kindRow k).depth ∧
        kindOf (kindRow k).colorType (kindRow k).depth = some k ∧ kindOfCode (kindRow k).code = some k

/-- HDR_LOAD: its errors in order, and every configuration register of a header it accepts (R150). -/
def Obligations.HdrLoadFollowsItsRule : Prop :=
  ∀ (s : State) (hd : List Byte) (k : PixelKind),
    let w := be32 (hd.take 4)
    let h := be32 ((hd.drop 4).take 4)
    let bd := byteAt hd 8
    let ct := byteAt hd 9
    let need := h * (1 + strideOf (kindRow k) w)
    let cap := if k = .rgb8 ∨ k = .rgba8 then 12 * w * h else 0
    (s.arg 0 + 13 ≤ s.params.bufBytes → s.mem.readBytes (bufBase + s.arg 0) 13 = some hd) →
    (∀ k', kindOf ct bd = some k' → k' = k) →
      followsRule .hdrLoad s
        [bufLine s (s.arg 0) 13, (decide (ct ∉ [0, 2, 3, 4, 6]), .invalidColorType, ct, 0),
          (decide (kindOf ct bd = none), .invalidBitDepth, bd, ct),
          (decide (byteAt hd 10 ≠ 0), .unsupportedMethod, 0, byteAt hd 10),
          (decide (byteAt hd 11 ≠ 0), .unsupportedMethod, 1, byteAt hd 11),
          (decide (byteAt hd 12 ≠ 0), .unsupportedMethod, 2, byteAt hd 12),
          (decide (w = 0 ∨ h = 0), .noPixels, w, h),
          (decide (need > s.params.imgBytes), .insufficientSize, s.params.imgBytes, need)]
        { s with
          width := BitVec.ofNat 32 w
          height := BitVec.ofNat 32 h
          hdrFields := BitVec.ofNat 32 (bd + ct * 256)
          hdrInterlace := 0
          kind := some k
          stride := BitVec.ofNat 32 (strideOf (kindRow k) w)
          spanCount := BitVec.ofNat 32 (spanCountOf (kindRow k) w)
          imgLen := BitVec.ofNat 32 need
          capBits := BitVec.ofNat 32 cap
          capBytes := BitVec.ofNat 32 (cap / 8)
          cfgValid := true
          imgState := .empty }

/-- PIX_READ: its errors in order, and the channels it returns (R151, spec/30_encoding.md R88). -/
def Obligations.PixReadFollowsItsRule : Prop :=
  ∀ (s : State) (sb : List Byte),
    let y := s.arg 0
    let sp := s.arg 1
    let i := s.arg 2
    let ch := spanRead s.kindRow sb i
    let errors : List ErrorLine :=
      [cfgLine s, imageLine s, filteredLine s,
        (decide (y ≥ s.height.toNat), .outOfBounds, y, s.height.toNat),
        (decide (sp ≥ s.spanCount.toNat), .outOfBounds, sp, s.spanCount.toNat),
        (decide (i ≥ s.kindRow.sps), .outOfBounds, i, s.kindRow.sps)]
    (firstError errors = none → s.mem.readBytes (spanAddr s y sp) s.kindRow.spanBytes = some sb) →
      followsRule .pixRead s errors
        (((s.setRes 0 (ch.getD 0 0 + ch.getD 1 0 * 2 ^ 16)).setRes 1 (ch.getD 2 0 + ch.getD 3 0 * 2 ^ 16)).setRes 2
          s.kindRow.code)

/-- PIX_WRITE: its errors in order, and the span it writes (R152, R148). -/
def Obligations.PixWriteFollowsItsRule : Prop :=
  ∀ (s : State) (sb : List Byte),
    let y := s.arg 0
    let sp := s.arg 1
    let i := s.arg 2
    let kk := s.arg 3
    let max := 2 ^ s.kindRow.depth - 1
    let ch := [s.arg 4 % 2 ^ 16, s.arg 4 / 2 ^ 16, s.arg 5 % 2 ^ 16, s.arg 5 / 2 ^ 16]
    let errors : List ErrorLine :=
      [cfgLine s, imageLine s, filteredLine s, (decide (kk > 14), .invalidPixelKind, kk, 0),
        (decide (kk ≠ s.kindRow.code), .pixelKindMismatch, kk, s.kindRow.code),
        (decide (y ≥ s.height.toNat), .outOfBounds, y, s.height.toNat),
        (decide (sp ≥ s.spanCount.toNat), .outOfBounds, sp, s.spanCount.toNat),
        (decide (i ≥ s.kindRow.sps), .outOfBounds, i, s.kindRow.sps)] ++
      (ch.take s.kindRow.chans).map fun v => (decide (v > max), .integerOverflow, v, max)
    (firstError errors = none → s.mem.readBytes (spanAddr s y sp) s.kindRow.spanBytes = some sb) →
      followsRule .pixWrite s errors (stored s (spanAddr s y sp) (spanWrite s.kindRow sb i ch))

/-- Where the channels of a span stand: sample `i` of a sub-byte kind in the bits from `(SPS − 1 − i)·M` up, an 8-bit channel in
its byte, a 16-bit channel in two bytes, the high one first (R144). The packing law: after any sequence of sample writes to one
span of a sub-byte kind, each sample reads as the value most recently written to it, or as it was; of the other kinds a written
pixel reads back whole, its unused channels 0 (R145, R146). Clearing the padding of a line keeps the used samples of its last
byte, makes the others 0 and changes nothing else (R147). The order of the channels in a pixel is the spec's own general
knowledge (R143; log 15). -/
def Obligations.SpanPackingLaw : Prop :=
  (∀ (k : PixelKind) (sb : List Byte) (i c : Nat), sb.length = (kindRow k).spanBytes → i < (kindRow k).sps → c < 4 →
    (spanRead (kindRow k) sb i).getD c 0 =
      if (kindRow k).chans ≤ c then 0
      else if (kindRow k).depth < 8 then
        (sb.getD 0 0).toNat / 2 ^ (((kindRow k).sps - 1 - i) * (kindRow k).depth) % 2 ^ (kindRow k).depth
      else if (kindRow k).depth = 8 then (sb.getD c 0).toNat
      else (sb.getD (2 * c) 0).toNat * 256 + (sb.getD (2 * c + 1) 0).toNat) ∧
  (∀ (k : PixelKind) (b : Byte) (ws : List (Nat × Nat)) (j : Nat), (kindRow k).depth < 8 →
    (∀ w ∈ ws, w.1 < (kindRow k).sps ∧ w.2 < 2 ^ (kindRow k).depth) → j < (kindRow k).sps →
      (ws.foldl (fun sb w => spanWrite (kindRow k) sb w.1 [w.2]) [b]).length = 1 ∧
      (spanRead (kindRow k) (ws.foldl (fun sb w => spanWrite (kindRow k) sb w.1 [w.2]) [b]) j).getD 0 0 =
        match ws.reverse.find? fun w => w.1 == j with
        | some w => w.2
        | none => (spanRead (kindRow k) [b] j).getD 0 0) ∧
  (∀ (k : PixelKind) (sb : List Byte) (c0 c1 c2 c3 : Nat), 8 ≤ (kindRow k).depth →
    (∀ c ∈ [c0, c1, c2, c3], c < 2 ^ (kindRow k).depth) →
      (spanWrite (kindRow k) sb 0 [c0, c1, c2, c3]).length = (kindRow k).spanBytes ∧
      ∀ c < 4, (spanRead (kindRow k) (spanWrite (kindRow k) sb 0 [c0, c1, c2, c3]) 0).getD c 0 =
        if c < (kindRow k).chans then [c0, c1, c2, c3].getD c 0 else 0) ∧
  ∀ (k : PixelKind) (w : Nat) (front : List Byte) (d : Byte), 1 ≤ w →
    ∃ d', padClear (kindRow k) w (front ++ [d]) = front ++ [d'] ∧
      (8 ≤ (kindRow k).depth → d' = d) ∧
      ((kindRow k).depth < 8 → ∀ i < (kindRow k).sps,
        (spanRead (kindRow k) [d'] i).getD 0 0 =
          if i < w - (spanCountOf (kindRow k) w - 1) * (kindRow k).sps then (spanRead (kindRow k) [d] i).getD 0 0 else 0)

/-- IMG_IMPORT: its errors in order, and the copy of the stream into IMG (R153). -/
def Obligations.ImgImportFollowsItsRule : Prop :=
  ∀ (s : State) (bs : List Byte),
    let off := s.arg 0
    let len := s.arg 1
    let errors : List ErrorLine :=
      [cfgLine s, (decide (len = 0), .noImageDataChunks, 0, 0), bufLine s off len,
        (decide (len ≠ s.imgLen.toNat), .pixelMismatch, len, s.imgLen.toNat)]
    (firstError errors = none → s.mem.readBytes (bufBase + off) len = some bs) →
      followsRule .imgImport s errors
        (stored { s with imgState := .filtered, res := s.res.set 0 s.imgLen } 0x02000000 bs)

/-- IMG_EXPORT and IMG_ZERO: their errors in order, the copy of the image to BUF, and the blank image (R154, R155). -/
def Obligations.ImgExportAndZeroFollowTheirRules : Prop :=
  ∀ (s : State) (bs : List Byte),
    let dst := s.arg 0
    let errors : List ErrorLine := [cfgLine s, imageLine s, bufLine s dst s.imgLen.toNat]
    followsRule .imgZero s [cfgLine s]
        (stored { s with imgState := .raw } 0x02000000 (List.replicate s.imgLen.toNat 0)) ∧
      ((firstError errors = none → s.mem.readBytes 0x02000000 s.imgLen.toNat = some bs) →
        followsRule .imgExport s errors
          (stored ((s.setRes 0 s.imgLen.toNat).setRes 1 (dst + s.imgLen.toNat)) (0x01000000 + dst) bs))

/-! ### The filter unit -/

/-- LINE_RECON: its errors in order, and the reconstructed line it writes (spec/43_filter.md R190). -/
def Obligations.LineReconFollowsItsRule : Prop :=
  ∀ (p : Bool) (s : State) (k : PixelKind) (line u : List Byte) (f : FilterType),
    let n := strideOf (kindRow k) (s.arg 4)
    let tag := byteAt line 0
    (s.arg 3 % 256 ≤ 14 → (kindRow k).code = s.arg 3 % 256) →
    (firstError (lineLines p s k) = none → s.mem.readBytes (bufBase + s.arg 0) (1 + n) = some line) →
    (firstError (lineLines p s k) = none → tag ≤ 4 → p = true → s.mem.readBytes (bufBase + s.arg 1 + 1) n = some u) →
    (tag ≤ 4 → filterTag f = tag) →
      followsRule (.lineRecon p) s (lineLines p s k ++ [(decide (tag > 4), .invalidFilterType, tag, 0)])
        (stored (s.setRes 0 (1 + n)) (bufBase + s.arg 2)
          (0 :: reconLine f (kindRow k).spanBytes (line.drop 1) (if p = true then some u else none)))

/-- LINE_FILTER: its errors in order, the filtered line it writes, the chosen tag and the five scores (R191, R186). -/
def Obligations.LineFilterFollowsItsRule : Prop :=
  ∀ (sel : Nat) (p : Bool) (s : State) (k : PixelKind) (raw rawPrev : List Byte) (f : FilterType),
    let n := strideOf (kindRow k) (s.arg 4)
    let d := (kindRow k).spanBytes
    let clear : Nat → List Byte → List Byte := fun w bs => if s.params.padMode = true then padClear (kindRow k) w bs else bs
    let r := clear (s.arg 4) raw
    let u := if p = true then some (clear (s.arg 5) rawPrev) else none
    let errors : List ErrorLine := (decide (sel > 5), .invalidFilterType, sel, 0) :: lineLines p s k
    (s.arg 3 % 256 ≤ 14 → (kindRow k).code = s.arg 3 % 256) →
    (firstError errors = none → s.mem.readBytes (bufBase + s.arg 0 + 1) n = some raw) →
    (firstError errors = none → p = true → s.mem.readBytes (bufBase + s.arg 1 + 1) n = some rawPrev) →
    (sel ≤ 5 → chosenFilter sel d r u f) →
      followsRule (.lineFilter sel p) s errors
        (stored
          (((((((s.setRes 0 (filterTag f)).setRes 1 (lineScore (filterLine .none d r u))).setRes 2
            (lineScore (filterLine .sub d r u))).setRes 3 (lineScore (filterLine .up d r u))).setRes 4
            (lineScore (filterLine .average d r u))).setRes 5 (lineScore (filterLine .paeth d r u))).setRes 6 (1 + n))
          (bufBase + s.arg 2) (BitVec.ofNat 8 (filterTag f) :: filterLine f d r u))

/-- The score of a line is the absolute value of the sum of its bytes taken as signed; the adaptive selector takes the least
score, and among equal scores the lowest tag (R185). -/
def Obligations.AdaptiveFilterHasLeastScore : Prop :=
  (∀ f : List Byte, lineScore f = ((f.map BitVec.toInt).sum).natAbs) ∧
  ∀ (d : Nat) (r : List Byte) (u : Option (List Byte)) (t : FilterType),
    let best := adaptiveFilter d r u
    lineScore (filterLine best d r u) ≤ lineScore (filterLine t d r u) ∧
      (filterTag t < filterTag best → lineScore (filterLine best d r u) < lineScore (filterLine t d r u))

/-- Byte `k` of a filtered line is the raw byte less its predictor, and byte `k` of a reconstructed line the filtered byte plus
its predictor, modulo 256, the predictor being that of the tag over left, up and upleft: of the raw line in filtering, of the
line being reconstructed in reconstruction (R180, R182, R183, R184, R187); and reconstructing a filtered line with the same tag
and the same previous line gives the raw line back (R184). -/
def Obligations.ReconstructUndoesFilter : Prop :=
  [FilterType.none, .sub, .up, .average, .paeth].map filterTag = [0, 1, 2, 3, 4] ∧
  ∀ (t : FilterType) (d : Nat) (r : List Byte) (u : Option (List Byte)), 1 ≤ d →
    let f := filterLine t d r u
    let out := reconLine t d r u
    reconLine t d f u = r ∧ f.length = r.length ∧ out.length = r.length ∧
      ∀ k < r.length,
        ((f.getD k 0).toNat : Int) = ((r.getD k 0).toNat - predictionOf (filterTag t) d r u k : Int) % 256 ∧
        (out.getD k 0).toNat = ((r.getD k 0).toNat + predictionOf (filterTag t) d out u k) % 256

/-- IMG_RECON: every line becomes tag 0 and the reconstruction of its filtered bytes over the reconstructed previous line;
the first line with a tag above 4 raises InvalidFilterType and nothing is written (R192). -/
def Obligations.ImgReconFollowsItsRule : Prop :=
  ∀ s : State, BlockInv s →
    (s.cfgValid = false → exec .imgRecon s = .next (raiseError .noHeaderChunk 0 0 s)) ∧
    (s.cfgValid = true → s.imgState = .empty → exec .imgRecon s = .next (raiseError .noImageData 0 0 s)) ∧
    (s.imgState ≠ .empty → ∀ (y : Nat) (tag : Byte), y < s.height.toNat →
      s.mem.read (imgBase + rowOff s y) = some tag → tag.toNat > 4 →
      (∀ x < y, ∀ b, s.mem.read (imgBase + rowOff s x) = some b → b.toNat ≤ 4) →
        exec .imgRecon s = .next (raiseError .invalidFilterType tag.toNat y s)) ∧
    (s.imgState ≠ .empty →
      (∀ y < s.height.toNat, ∀ b, s.mem.read (imgBase + rowOff s y) = some b → b.toNat ≤ 4) →
        ∃ t, exec .imgRecon s = .next t ∧ t.err = false ∧ t.imgState = .raw ∧
          ∀ y < s.height.toNat, ∃ line f,
            s.mem.readBytes (imgBase + rowOff s y) (1 + s.stride.toNat) = some line ∧
            filterTag f = byteAt line 0 ∧
            t.mem.readBytes (imgBase + rowOff s y) (1 + s.stride.toNat) =
              some (0 :: reconLine f s.kindRow.spanBytes (line.drop 1)
                (if y = 0 then none else t.mem.readBytes (imgBase + rowOff s (y - 1) + 1) s.stride.toNat)))

/-- IMG_FILTER: every line becomes its chosen tag and its raw bytes filtered over the raw previous line (R193, R186). -/
def Obligations.ImgFilterFollowsItsRule : Prop :=
  ∀ (sel : Nat) (s : State), BlockInv s →
    (∀ e a b, firstError [(decide (sel > 5), .invalidFilterType, sel, 0), cfgLine s, imageLine s, filteredLine s] =
      some (e, a, b) → exec (.imgFilter sel) s = .next (raiseError e a b s)) ∧
    (sel ≤ 5 → s.imgState = .raw →
      ∃ t, exec (.imgFilter sel) s = .next t ∧ t.err = false ∧ t.imgState = .filtered ∧ t.res = s.res ∧
        ∀ y < s.height.toNat, ∃ r f,
          encoderRow s y = some r ∧
          chosenFilter sel s.kindRow.spanBytes r (if y = 0 then none else encoderRow s (y - 1)) f ∧
          t.mem.readBytes (imgBase + rowOff s y) (1 + s.stride.toNat) =
            some (BitVec.ofNat 8 (filterTag f) ::
              filterLine f s.kindRow.spanBytes r (if y = 0 then none else encoderRow s (y - 1))))

/-- IMG_FILTER then IMG_RECON leaves the image as it was, but for tag bytes, which become 0, and, when PAD_MODE = 1,
padding bits, which become 0 (R194). -/
def Obligations.FilterThenReconRestoresImage : Prop :=
  ∀ (sel : Nat) (s : State), BlockInv s → s.imgState = .raw → sel ≤ 5 →
    ∃ t u, exec (.imgFilter sel) s = .next t ∧ exec .imgRecon t = .next u ∧ u.imgState = .raw ∧ u.err = false ∧
      (∀ y < s.height.toNat, ∃ r, encoderRow s y = some r ∧
        u.mem.readBytes (imgBase + rowOff s y) (1 + s.stride.toNat) = some (0 :: r)) ∧
      ∀ a, (a < imgBase ∨ imgBase + s.imgLen.toNat ≤ a) → u.mem.read a = s.mem.read a

/-! ### The stego unit -/

/-- Nibble `q` stands in the byte of R221: channel `q mod 3` of pixel `q div 3`, in row-major order. The nibbles of the stream
stand in bytes of their own, inside the image and never in a tag byte (spec/44_stego.md R221). -/
def Obligations.NibblesAreDistinctChannelBytes : Prop :=
  ∀ s : State, BlockInv s → s.kind = some .rgb8 ∨ s.kind = some .rgba8 →
    ∀ q < 3 * s.width.toNat * s.height.toNat,
      nibAddr s q = 0x02000000 + q / 3 / s.width.toNat * (1 + s.stride.toNat) + 1 +
        q / 3 % s.width.toNat * (if s.kind = some .rgb8 then 3 else 4) + q % 3 ∧
      (∀ q' < q, nibAddr s q' ≠ nibAddr s q) ∧
      (∀ y, nibAddr s q ≠ imgBase + rowOff s y) ∧
      imgBase ≤ nibAddr s q ∧ nibAddr s q < imgBase + s.imgLen.toNat

/-- STG_READ: its errors in order, and the bytes of the stream it copies to BUF (R230, R223). -/
def Obligations.StgReadFollowsItsRule : Prop :=
  ∀ s : State, BlockInv s →
    followsRule .stgRead s (stegoLines s ++ offsetLines s (s.arg 0) (s.arg 1) ++ [bufLine s (s.arg 2) (s.arg 1)])
      (stored s (bufBase + s.arg 2) ((List.range (s.arg 1)).map fun k => streamByte s (s.arg 0 + 8 * k)))

/-- STG_WRITE: its errors in order; completed, the stream holds the bytes written from the bit offset on (R231, R223). -/
def Obligations.StgWriteFollowsItsRule : Prop :=
  ∀ (s : State) (bs : List Byte), BlockInv s →
    let errors := stegoLines s ++ offsetLines s (s.arg 0) (s.arg 1) ++ [bufLine s (s.arg 2) (s.arg 1)]
    (∀ e a b, firstError errors = some (e, a, b) → exec .stgWrite s = .next (raiseError e a b s)) ∧
    (firstError errors = none → s.mem.readBytes (bufBase + s.arg 2) (s.arg 1) = some bs →
      ∃ t, exec .stgWrite s = .next t ∧ t.err = false ∧ t.imgState = .raw ∧ t.res = s.res ∧
        ∀ k (hk : k < bs.length), streamByte t (s.arg 0 + 8 * k) = bs[k])

/-- STG_FRAME: its errors in order; completed, the stream begins with the frame of the body (R232, spec/30_encoding.md R98). -/
def Obligations.StgFrameFollowsItsRule : Prop :=
  ∀ (s : State) (body : List Byte), BlockInv s →
    let errors := stegoLines s ++
      [(decide (s.arg 1 + 10 > s.capBytes.toNat), .imageTooSmall, s.capBytes.toNat, s.arg 1 + 10),
        bufLine s (s.arg 0) (s.arg 1)]
    (∀ e a b, firstError errors = some (e, a, b) → exec .stgFrame s = .next (raiseError e a b s)) ∧
    (firstError errors = none → s.mem.readBytes (bufBase + s.arg 0) (s.arg 1) = some body →
      let frame := [0x46, 0x43, 0x44] ++ toLe32 (s.arg 1) ++ body ++ [0x44, 0x43, 0x46]
      ∃ t, exec .stgFrame s = .next t ∧ t.err = false ∧ t.imgState = .raw ∧ (t.res[0]).toNat = s.arg 1 + 10 ∧
        frame.length = s.arg 1 + 10 ∧ ∀ k (hk : k < frame.length), streamByte t (8 * k) = frame[k])

/-- STG_DETECT: its errors in order; it reports a frame exactly when one is present, with its length (R233, R225). -/
def Obligations.StgDetectFollowsItsRule : Prop :=
  ∀ s : State, BlockInv s →
    (∀ len, framePresent s len → followsRule .stgDetect s (stegoLines s) ((s.setRes 0 1).setRes 1 len)) ∧
    ((∀ len, ¬framePresent s len) → followsRule .stgDetect s (stegoLines s) ((s.setRes 0 0).setRes 1 0))

/-- STG_EXTRACT: its errors in order; with a frame present it copies the body to BUF (R234). -/
def Obligations.StgExtractFollowsItsRule : Prop :=
  ∀ s : State, BlockInv s →
    (∀ len, framePresent s len →
      followsRule .stgExtract s (stegoLines s ++ [bufLine s (s.arg 0) len])
        (stored (s.setRes 0 len) (bufBase + s.arg 0) ((List.range len).map fun k => streamByte s (56 + 8 * k)))) ∧
    ((∀ len, ¬framePresent s len) →
      ∀ e a b, firstError (stegoLines s ++ [(true, .noStegoData, 0, 0)]) = some (e, a, b) →
        exec .stgExtract s = .next (raiseError e a b s))

/-- A body framed by STG_FRAME is detected with its length, and STG_EXTRACT gives it back, also after the image has
gone through IMG_FILTER and IMG_RECON (R232, R234). -/
def Obligations.FramedBodySurvivesFilterPipeline : Prop :=
  ∀ (s t : State) (sel dst : Nat) (body : List Byte), BlockInv s → sel ≤ 5 → exec .stgFrame s = .next t → t.err = false →
    s.mem.readBytes (bufBase + s.arg 0) (s.arg 1) = some body → dst + s.arg 1 ≤ s.params.bufBytes →
      ∃ u v w x, exec (.imgFilter sel) t = .next u ∧ exec .imgRecon u = .next v ∧
        exec .stgDetect v = .next w ∧ w.err = false ∧ w.res[0] = 1 ∧ w.res[1] = s.args[1] ∧
        exec .stgExtract (atRange w dst 0) = .next x ∧ x.err = false ∧ x.res[0] = s.args[1] ∧
        x.mem.readBytes (bufBase + dst) (s.arg 1) = some body

/-! ### The invariant -/

/-- The reset state meets the invariant; its parameters are the model's choice (log 1). -/
def Obligations.InvariantAtReset : Prop := BlockInv State.reset

/-- Every step, of the host, the sequencer or a hardware reset as the schedule has them (logs 2, 20), keeps the invariant: canonical memory inside BUF and
IMG, pending = BUSY, ERR and CODE agreeing, configuration registers that are functions of WIDTH, HEIGHT and KIND, and an
image whose every byte is written (spec/10_state.md R43, R48, R49, R53, spec/20_memory.md R65). -/
def Obligations.StepKeepsInvariant : Prop := ∀ s t : State, BlockInv s → step s = .next t → BlockInv t

/-- From a state that meets the invariant, the commands that read only the image and operands never stop: they complete
or raise an error (spec/10_state.md R48, R54, spec/20_memory.md R65). -/
def Obligations.ImageCommandsNeverStop : Prop :=
  ∀ (i : Instr) (s : State), BlockInv s →
    i = .pixRead ∨ i = .pixWrite ∨ i = .imgExport ∨ i = .imgZero ∨ i = .imgRecon ∨ (∃ sel, i = .imgFilter sel) ∨
      i = .stgRead ∨ i = .stgDetect ∨ i = .stgExtract → ∃ t, exec i s = .next t

/-! ### The host's accesses -/

/-- STATUS, KIND_INFO, IMG_INFO and PARAM_FLAGS as they are read: every field in its bits and every reserved bit 0, the error
codes 0x00 to 0x19 and the image states 0 to 2 by their numbers, and with no kind KIND = 15 and every other field of KIND_INFO 0
(spec/10_state.md R27, R31, R39, R43, R44, spec/60_exceptions.md R260). -/
def Obligations.StatusWordsHoldTheirFields : Prop :=
  ∀ s : State,
    (statusWord s).getLsbD 0 = s.busy ∧ (statusWord s).getLsbD 1 = s.err ∧ (statusWord s).getLsbD 2 = s.sticky ∧
    (statusWord s).extractLsb' 3 5 = 0 ∧ (s.code, ((statusWord s).extractLsb' 8 8).toNat) ∈ codeTable ∧
    (statusWord s).extractLsb' 16 16 = 0 ∧
    ((kindInfoWord s).extractLsb' 0 4).toNat = s.kindRow.code ∧ ((kindInfoWord s).extractLsb' 4 3).toNat = s.kindRow.chans ∧
    (kindInfoWord s).getLsbD 7 = false ∧ ((kindInfoWord s).extractLsb' 8 7).toNat = s.kindRow.bpp ∧
    (kindInfoWord s).getLsbD 15 = false ∧ ((kindInfoWord s).extractLsb' 16 4).toNat = s.kindRow.sps ∧
    ((kindInfoWord s).extractLsb' 20 4).toNat = s.kindRow.spanBytes ∧
    ((kindInfoWord s).extractLsb' 24 5).toNat = s.kindRow.depth ∧ (kindInfoWord s).extractLsb' 29 3 = 0 ∧
    (s.kind = none → kindInfoWord s = 0x0000000F) ∧ (∀ k, s.kind = some k → s.kindRow = kindRow k) ∧
    (imgInfoWord s).getLsbD 0 = s.cfgValid ∧ (s.imgState, ((imgInfoWord s).extractLsb' 1 2).toNat) ∈ imgStateTable ∧
    (imgInfoWord s).extractLsb' 3 29 = 0 ∧
    (paramFlagsWord s.params).getLsbD 0 = s.params.tagCheck ∧ (paramFlagsWord s.params).getLsbD 1 = s.params.padMode ∧
    (paramFlagsWord s.params).extractLsb' 2 30 = 0

/-- The offsets of the register map, and what a host read of each returns; a host write of a read-only register has no effect;
a reserved offset reads 0 and ignores writes (spec/10_state.md R22, R23, R52). That such a write has no effect while BUSY = 1 too, and that the model
records what a read returned, are the model's choices (logs 11, 5). -/
def Obligations.RegisterWindowFollowsItsMap : Prop :=
  ∀ (s : State) (v : Word),
    (∀ r, hostAccess s (.read (BitVec.ofNat 32 (regOffset r)) 4) = .next { s with reads := readReg s r :: s.reads }) ∧
    (∀ row ∈ registerTable s, hostAccess s (.read (BitVec.ofNat 32 row.1) 4) = .next { s with reads := row.2 :: s.reads }) ∧
    (∀ k : Fin 8,
      hostAccess s (.read (BitVec.ofNat 32 (0x020 + 4 * k.val)) 4) = .next { s with reads := s.args[k] :: s.reads } ∧
      hostAccess s (.read (BitVec.ofNat 32 (0x040 + 4 * k.val)) 4) = .next { s with reads := s.res[k] :: s.reads }) ∧
    (∀ r, readOnly r → hostAccess s (.write (BitVec.ofNat 32 (regOffset r)) 4 v) = .next s) ∧
    ∀ off : Nat, off < 0x1000 → off % 4 = 0 → (∀ r, regOffset r ≠ off) →
      hostAccess s (.read (BitVec.ofNat 32 off) 4) = .next { s with reads := 0 :: s.reads } ∧
      hostAccess s (.write (BitVec.ofNat 32 off) 4 v) = .next s

/-- A host write of CMD while BUSY = 0 stores the word and starts the command; a host write of an ARG register writes
it; no other field changes (spec/30_encoding.md R80, spec/10_state.md R25). -/
def Obligations.CmdWriteStartsCommand : Prop :=
  ∀ (s : State) (w : Word) (k : Fin 8), s.busy = false →
    hostAccess s (.write 0x000 4 w) = .next { s with cmd := w, pending := true, busy := true } ∧
    hostAccess s (.write (BitVec.ofNat 32 (0x020 + 4 * k.val)) 4 w) = .next { s with args := s.args.set k w }

/-- A host write of CTRL while BUSY = 0: bit 1 puts every register at its reset value and keeps BUF and IMG; without it
bit 0 clears STICKY; the other bits are ignored. While BUSY = 1 it is refused; CTRL reads 0 (spec/10_state.md R32,
spec/70_reset_and_hazards.md R291). That the value a read returns is recorded in `reads` is the model's choice (log 5). -/
def Obligations.CtrlWriteClearsOrResets : Prop :=
  ∀ (s : State) (v : Word),
    (s.busy = false → v.getLsbD 1 = true →
      hostAccess s (.write 0x008 4 v) = .next
        { s with
          cmd := 0, pending := false, busy := false, err := false, sticky := false, code := .ok, errA := 0, errB := 0
          args := Vector.replicate 8 0, res := Vector.replicate 8 0, crcState := 0xFFFFFFFF
          width := 0, height := 0, hdrFields := 0, hdrInterlace := 0, kind := none, stride := 0, spanCount := 0
          imgLen := 0, cfgValid := false, imgState := .empty, capBits := 0, capBytes := 0 }) ∧
    (s.busy = false → v.getLsbD 1 = false → v.getLsbD 0 = true →
      hostAccess s (.write 0x008 4 v) = .next { s with sticky := false }) ∧
    (s.busy = false → v.getLsbD 1 = false → v.getLsbD 0 = false → hostAccess s (.write 0x008 4 v) = .next s) ∧
    (s.busy = true → hostAccess s (.write 0x008 4 v) = .refused (.protocolViolation (.write 0x008 4 v))) ∧
    hostAccess s (.read 0x008 4) = .next { s with reads := 0 :: s.reads }

/-- A hardware reset, which may come at any time, leaves every register at its reset value, CTRL and the reserved offsets
reading 0, and no byte of BUF or IMG written (spec/70_reset_and_hazards.md R290). That the reset comes as an event of the
schedule (logs 20, 2) and that the value a read returns is recorded in `reads` (log 5) are the model's choices. -/
def Obligations.HardwareResetLeavesResetValues : Prop :=
  ∀ (s : State) (rest : List Event), s.schedule = .hardwareReset :: rest →
    ∃ t, step s = .next t ∧
      t.cmd = 0 ∧ statusWord t = 0 ∧ t.errA = 0 ∧ t.errB = 0 ∧ t.pending = false ∧
      (∀ k : Fin 8, t.args[k] = 0 ∧ t.res[k] = 0) ∧ t.crcState = 0xFFFFFFFF ∧
      t.width = 0 ∧ t.height = 0 ∧ t.hdrFields = 0 ∧ t.hdrInterlace = 0 ∧ t.stride = 0 ∧ t.spanCount = 0 ∧
      t.imgLen = 0 ∧ t.capBits = 0 ∧ t.capBytes = 0 ∧ kindInfoWord t = 0x0000000F ∧ imgInfoWord t = 0 ∧
      t.params = s.params ∧ (∀ a, t.mem.read a = none) ∧
      ∀ off : Nat, off < 0x1000 → off % 4 = 0 → off = 0x008 ∨ (∀ r, regOffset r ≠ off) →
        hostAccess t (.read (BitVec.ofNat 32 off) 4) = .next { t with reads := 0 :: t.reads }

/-- A host read has no side effect: it changes no register and no byte, only the model's own record of what the host has
read and its count of free values (spec/20_memory.md R67; logs 5, 6). -/
def Obligations.HostReadsHaveNoSideEffect : Prop :=
  ∀ (s t : State) (a : Word) (n : Nat), hostAccess s (.read a n) = .next t →
    ∃ v, t = { s with reads := v :: s.reads, draws := t.draws }

/-- A host access that is misaligned, of a wrong width, unmapped or past a memory's size is refused (R62, R63). It is the
model's, and no rule of the spec, that an access which begins inside BUF or IMG and ends past it is refused too (log 12, deduced)
and that a write which is also a protocol violation, BUSY being 1, is refused as a bus error (log 10, the model's choice). -/
def Obligations.BusErrorsAreRefused : Prop :=
  ∀ (s : State) (a v : Word) (n : Nat), ¬legalAccess s.params a.toNat n →
    hostAccess s (.read a n) = .refused (.busError (.read a n)) ∧
      hostAccess s (.write a n v) = .refused (.busError (.write a n v))

/-- A host write of `n` bytes to BUF or IMG while BUSY = 0 puts bits `8j+7 : 8j` of the value at the address plus `j` and
changes nothing else; the same access then reads the value back (R62, R76, spec/70_reset_and_hazards.md R302). It is the
model's, and no rule of the spec, that a narrow write takes the value's low bits and a narrow read is zero-extended (log 13,
deduced) and that the value a read returns goes in front of `reads` (log 5, the model's choice). -/
def Obligations.HostWriteIsLittleEndian : Prop :=
  ∀ (s : State) (a v : Word) (n : Nat), s.busy = false → s.pending = false → 0x1000 ≤ a.toNat →
    legalAccess s.params a.toNat n →
      ∃ t, hostAccess s (.write a n v) = .next t ∧ t = { s with mem := t.mem } ∧
        (∀ j < n, t.mem.read (a.toNat + j) = some (v.extractLsb' (8 * j) 8)) ∧
        (∀ x, (x < a.toNat ∨ a.toNat + n ≤ x) → t.mem.read x = s.mem.read x) ∧
        hostAccess t (.read a n) = .next { t with reads := BitVec.ofNat 32 (v.toNat % 2 ^ (8 * n)) :: t.reads }

/-- While BUSY = 1 a host write of CMD, CTRL, an ARG register or a byte of BUF or IMG is refused
(spec/70_reset_and_hazards.md R300), as a protocol violation when it is no bus error (log 10). -/
def Obligations.BusyBlockRefusesWrites : Prop :=
  ∀ (s : State) (a v : Word) (n : Nat), s.busy = true → legalAccess s.params a.toNat n →
    a = 0x000 ∨ a = 0x008 ∨ (∃ k : Fin 8, a.toNat = 0x020 + 4 * k.val) ∨ 0x1000 ≤ a.toNat →
      hostAccess s (.write a n v) = .refused (.protocolViolation (.write a n v))

/-- The write set of a pending command, and a host read of 1, 2 or 4 bytes of BUF or IMG. The sequencer's step changes no byte
outside `pendingWrites`, also when bytes never written are taken to hold any value; a completing command's write set is its
destination, and a failing or illegal one's, or one's that stores nothing, is empty (R69, R262). The read returns its bytes
little-endian: each byte of the write set as the next free value and every other byte as it stands, and it stops on a byte that
is neither in the write set nor written (R62, R69, spec/10_state.md R54). The model's choices: free values come in the order of
`draws` (log 6); an unwritten byte in the write set is drawn too (log 7); the write set of a command that would stop on an
unwritten byte is at most its destination (log 8); a narrow read is zero-extended (log 13, deduced); the value a read returns
goes in front of `reads` (log 5). -/
def Obligations.HostByteReadWhilePending : Prop :=
  (∀ (s t : State) (a : Nat), s.pending = true → sequencerTurn s = .next t → pendingWrites s a = false →
    t.mem.read a = s.mem.read a) ∧
  (∀ (s t : State) (m : Memory) (a : Nat), s.pending = true → (∀ x b, s.mem.read x = some b → m.read x = some b) →
    sequencerTurn { s with mem := m } = .next t → pendingWrites s a = false → t.mem.read a = m.read a) ∧
  (∀ (s : State) (a : Nat), pendingWrites s a = true →
    s.pending = true ∧ ∃ i, decode s.cmd = .ok i ∧ ¬storesNothing i ∧ inDestination i s a) ∧
  (∀ (s t : State) (i : Instr) (a : Nat), s.pending = true → decode s.cmd = .ok i → exec i s = .next t →
    (t.err = true → pendingWrites s a = false) ∧
    (t.err = false → i ≠ .stgExtract → (pendingWrites s a = true ↔ inDestination i s a)) ∧
    (t.err = false → i = .stgExtract →
      (pendingWrites s a = true ↔ bufBase + s.arg 0 ≤ a ∧ a < bufBase + s.arg 0 + (t.res[0]).toNat))) ∧
  ∀ (s : State) (a : Word) (n : Nat), 0x1000 ≤ a.toNat → legalAccess s.params a.toNat n →
    (∀ bs : List Byte, bs.length = n → (∀ j (hj : j < bs.length), seesByte s (a.toNat + j) (s.draws + j) bs[j]) →
      ∃ t v, hostAccess s (.read a n) = .next t ∧
        t = { s with reads := v :: s.reads, draws := if s.pending = true then s.draws + n else s.draws } ∧
        (∀ j (hj : j < bs.length), v.extractLsb' (8 * j) 8 = bs[j]) ∧ v.toNat < 2 ^ (8 * n)) ∧
    ∀ j < n, pendingWrites s (a.toNat + j) = false → s.mem.read (a.toNat + j) = none →
      ∃ x, hostAccess s (.read a n) = .fault (.uninitRead x) ∧
        a.toNat ≤ x ∧ x < a.toNat + n ∧ pendingWrites s x = false ∧ s.mem.read x = none
end

