-- ==== Sys2Proof/Laws/Memory.lean ====
section
/-! SUPPORT. The laws of BUF and IMG as one memory: what a write leaves and what a read then sees, the canonical
form, and the byte sequences that MemRead and MemWrite move. -/

namespace Sys2Proof.Machine

namespace Memory

/-! ### One byte -/

@[simp] theorem read_nil (a : Nat) : Memory.read [] a = none := rfl

theorem read_write (m : Memory) (a x : Nat) (b : Byte) :
    (m.write a b).read x = if x = a then some b else m.read x := by
  induction m with
  | nil => simp [write, read]
  | cons c m ih =>
    obtain ⟨k, v⟩ := c
    simp only [write]
    split
    · simp only [read]
    · split
      · rename_i h; subst h
        simp only [read]
        split <;> rfl
      · rename_i h1 h2
        simp only [read, ih]
        by_cases hx : x = k
        · subst hx; simp [Ne.symm h2]
        · simp [hx]

@[simp] theorem read_write_self (m : Memory) (a : Nat) (b : Byte) : (m.write a b).read a = some b := by
  simp [read_write]

theorem read_write_ne (m : Memory) {a x : Nat} (b : Byte) (h : x ≠ a) : (m.write a b).read x = m.read x := by
  simp [read_write, h]

theorem mem_write {m : Memory} {a : Nat} {b : Byte} {c : Host.Cell} (h : c ∈ m.write a b) :
    c = (a, b) ∨ c ∈ m := by
  induction m with
  | nil => simpa [write] using h
  | cons d m ih =>
    obtain ⟨k, v⟩ := d
    simp only [write] at h
    split at h
    · simpa using h
    · split at h
      · rcases List.mem_cons.mp h with h | h
        · exact .inl h
        · exact .inr (List.mem_cons_of_mem _ h)
      · rcases List.mem_cons.mp h with h | h
        · exact .inr (by simp [h])
        · exact (ih h).imp_right (List.mem_cons_of_mem _)

/-- Writing a byte keeps the canonical form. -/
theorem wf_write {m : Memory} (h : m.wf) (a : Nat) (b : Byte) : (m.write a b).wf := by
  induction m with
  | nil => simp [write, wf]
  | cons c m ih =>
    obtain ⟨k, v⟩ := c
    have hc := List.pairwise_cons.mp h
    simp only [write]
    split
    · rename_i hak
      refine List.pairwise_cons.mpr ⟨fun d hd => ?_, h⟩
      rcases List.mem_cons.mp hd with rfl | hd
      · exact hak
      · exact lt_trans hak (hc.1 d hd)
    · split
      · rename_i hak; subst hak
        exact List.pairwise_cons.mpr ⟨hc.1, hc.2⟩
      · rename_i h1 h2
        refine List.pairwise_cons.mpr ⟨fun d hd => ?_, ih hc.2⟩
        rcases mem_write hd with rfl | hd
        · exact lt_of_le_of_ne (Nat.le_of_not_lt h1) (Ne.symm h2)
        · exact hc.1 d hd

/-- A listed address is one that reads as something. -/
theorem mem_of_read {m : Memory} {a : Nat} {b : Byte} (h : m.read a = some b) : (a, b) ∈ m := by
  induction m with
  | nil => simp at h
  | cons c m ih =>
    obtain ⟨k, v⟩ := c
    simp only [read] at h
    split at h
    · simp_all
    · exact List.mem_cons_of_mem _ (ih h)

theorem read_of_mem {m : Memory} (hm : m.wf) {c : Host.Cell} (h : c ∈ m) : m.read c.1 = some c.2 := by
  induction m with
  | nil => simp at h
  | cons d m ih =>
    obtain ⟨k, v⟩ := d
    have hc := List.pairwise_cons.mp hm
    rcases List.mem_cons.mp h with rfl | h
    · simp [read]
    · have := hc.1 c h
      simp only [read]
      rw [if_neg (by simp at this; omega)]
      exact ih hc.2 h

/-- Two memories in canonical form that read the same everywhere are the same list. -/
theorem ext_of_read {m n : Memory} (hm : m.wf) (hn : n.wf) (h : ∀ a, m.read a = n.read a) : m = n := by
  induction m generalizing n with
  | nil =>
    cases n with
    | nil => rfl
    | cons c n => have := h c.1; simp [read] at this
  | cons c m ih =>
    cases n with
    | nil => have := h c.1; simp [read] at this
    | cons d n =>
      have hmc := List.pairwise_cons.mp hm
      have hnc := List.pairwise_cons.mp hn
      have hcn : c ∈ d :: n := mem_of_read (by rw [← h c.1]; simp [read])
      have hdm : d ∈ c :: m := mem_of_read (by rw [h d.1]; simp [read])
      have hcd : c = d := by
        rcases List.mem_cons.mp hcn with e | e
        · exact e
        · rcases List.mem_cons.mp hdm with e' | e'
          · exact e'.symm
          · exact absurd (hnc.1 c e) (Nat.lt_asymm (hmc.1 d e'))
      subst hcd
      congr 1
      refine ih hmc.2 hnc.2 fun a => ?_
      have ha := h a
      simp only [read] at ha
      by_cases hk : a = c.1
      · subst hk
        have none_of : ∀ {l : Memory}, (∀ p ∈ l, c.1 < p.1) → l.read c.1 = none := fun {l} hl => by
          cases hr : l.read c.1 with
          | none => rfl
          | some b => exact absurd (hl _ (mem_of_read hr)) (Nat.lt_irrefl _)
        rw [none_of hmc.1, none_of hnc.1]
      · simpa [hk] using ha

/-! ### A list of writes -/

@[simp] theorem writeCells_nil (m : Memory) : m.writeCells [] = m := rfl

@[simp] theorem writeCells_cons (m : Memory) (c : Host.Cell) (cs : List Host.Cell) :
    m.writeCells (c :: cs) = (m.write c.1 c.2).writeCells cs := rfl

theorem writeCells_append (m : Memory) (cs ds : List Host.Cell) :
    m.writeCells (cs ++ ds) = (m.writeCells cs).writeCells ds := by
  induction cs generalizing m with
  | nil => rfl
  | cons c cs ih => simp [ih]

/-- An address that no write names reads as before. -/
theorem read_writeCells_of_not_mem (m : Memory) (cs : List Host.Cell) (x : Nat) (h : ∀ c ∈ cs, c.1 ≠ x) :
    (m.writeCells cs).read x = m.read x := by
  induction cs generalizing m with
  | nil => rfl
  | cons c cs ih =>
    rw [writeCells_cons, ih _ fun d hd => h d (List.mem_cons_of_mem _ hd),
      read_write_ne _ _ (Ne.symm (h c (by simp)))]

theorem wf_writeCells {m : Memory} (h : m.wf) (cs : List Host.Cell) : (m.writeCells cs).wf := by
  induction cs generalizing m with
  | nil => exact h
  | cons c cs ih => exact ih (wf_write h c.1 c.2)

theorem mem_writeCells {m : Memory} {cs : List Host.Cell} {c : Host.Cell} (h : c ∈ m.writeCells cs) :
    c ∈ cs ∨ c ∈ m := by
  induction cs generalizing m with
  | nil => exact .inr h
  | cons d cs ih =>
    rcases ih h with h | h
    · exact .inl (List.mem_cons_of_mem _ h)
    · rcases mem_write h with rfl | h
      · exact .inl (by simp)
      · exact .inr h

/-- A byte that has been written stays written. -/
theorem isSome_read_writeCells {m : Memory} (cs : List Host.Cell) {x : Nat} (h : (m.read x).isSome = true) :
    ((m.writeCells cs).read x).isSome = true := by
  induction cs generalizing m with
  | nil => exact h
  | cons c cs ih =>
    refine ih ?_
    rw [read_write]
    split <;> simp [h]

/-! ### Consecutive bytes -/

end Memory

theorem mem_cellsAt {a : Nat} {bs : List Byte} {c : Host.Cell} (h : c ∈ cellsAt a bs) :
    a ≤ c.1 ∧ c.1 < a + bs.length := by
  induction bs generalizing a with
  | nil => simp [cellsAt] at h
  | cons b bs ih =>
    rcases List.mem_cons.mp h with rfl | h
    · simp
    · have := ih h
      simp only [List.length_cons]
      omega

namespace Memory

/-- MemWrite, read back: the bytes written, and every other byte as before. -/
theorem read_writeCells_cellsAt (m : Memory) (a : Nat) (bs : List Byte) (x : Nat) :
    (m.writeCells (cellsAt a bs)).read x = if a ≤ x ∧ x < a + bs.length then bs[x - a]? else m.read x := by
  induction bs generalizing m a with
  | nil => simp [cellsAt]
  | cons b bs ih =>
    simp only [cellsAt, writeCells_cons, ih, read_write, List.length_cons]
    by_cases hx : x = a
    · subst hx; simp
    · by_cases h : a + 1 ≤ x ∧ x < a + 1 + bs.length
      · rw [if_pos h, if_pos ⟨by omega, by omega⟩, show x - a = (x - (a + 1)) + 1 by omega,
          List.getElem?_cons_succ]
      · rw [if_neg h, if_neg hx, if_neg (by omega)]

theorem read_writeCells_cellsAt_in (m : Memory) {a : Nat} {bs : List Byte} {j : Nat} (h : j < bs.length) :
    (m.writeCells (cellsAt a bs)).read (a + j) = some bs[j] := by
  rw [read_writeCells_cellsAt, if_pos ⟨by omega, by omega⟩]
  simp [h]

theorem read_writeCells_cellsAt_out (m : Memory) {a : Nat} {bs : List Byte} {x : Nat}
    (h : x < a ∨ a + bs.length ≤ x) : (m.writeCells (cellsAt a bs)).read x = m.read x := by
  rw [read_writeCells_cellsAt, if_neg (by omega)]

/-- MemRead gives exactly `n` bytes, each the byte at its address. -/
theorem readBytes_eq_some {m : Memory} {a n : Nat} {bs : List Byte} :
    m.readBytes a n = some bs ↔ bs.length = n ∧ ∀ j (h : j < bs.length), m.read (a + j) = some bs[j] := by
  induction n generalizing a bs with
  | zero =>
    constructor
    · intro h
      simp only [readBytes, Option.some.injEq] at h
      subst h; simp
    · rintro ⟨h, -⟩
      simp [readBytes, List.length_eq_zero_iff.mp h]
  | succ n ih =>
    constructor
    · intro h
      simp only [readBytes] at h
      split at h
      · rename_i b bs' hb hbs
        simp only [Option.some.injEq] at h
        subst h
        obtain ⟨hl, hj⟩ := ih.mp hbs
        refine ⟨by simp [hl], fun j hjlt => ?_⟩
        cases j with
        | zero => simpa using hb
        | succ j =>
          have := hj j (by simpa using hjlt)
          rw [show a + (j + 1) = a + 1 + j by omega]
          simpa using this
      · cases h
    · rintro ⟨hl, hj⟩
      cases bs with
      | nil => simp at hl
      | cons b bs =>
        have h0 := hj 0 (by simp)
        have h1 : m.readBytes (a + 1) n = some bs := ih.mpr ⟨by simpa using hl, fun j hjlt => by
          have := hj (j + 1) (by simpa using hjlt)
          rw [show a + (j + 1) = a + 1 + j by omega] at this
          simpa using this⟩
        simp only [Nat.add_zero, List.getElem_cons_zero] at h0
        simp [readBytes, h0, h1]

theorem length_of_readBytes {m : Memory} {a n : Nat} {bs : List Byte} (h : m.readBytes a n = some bs) :
    bs.length = n := (readBytes_eq_some.mp h).1

theorem readBytes_getElem {m : Memory} {a n : Nat} {bs : List Byte} (h : m.readBytes a n = some bs) {j : Nat}
    (hj : j < n) : m.read (a + j) = bs[j]? := by
  obtain ⟨hl, hr⟩ := readBytes_eq_some.mp h
  rw [hr j (by omega), List.getElem?_eq_getElem (by omega)]

/-- MemRead succeeds exactly when every byte has been written. -/
theorem readBytes_isSome {m : Memory} {a n : Nat} :
    (m.readBytes a n).isSome = true ↔ ∀ j < n, (m.read (a + j)).isSome = true := by
  induction n generalizing a with
  | zero => simp [readBytes]
  | succ n ih =>
    constructor
    · intro h j hj
      obtain ⟨bs, hbs⟩ := Option.isSome_iff_exists.mp h
      rw [readBytes_getElem hbs hj, List.getElem?_eq_getElem (by rw [length_of_readBytes hbs]; exact hj)]
      rfl
    · intro h
      have h0 := h 0 (by omega)
      have h1 : (m.readBytes (a + 1) n).isSome = true := ih.mpr fun j hj => by
        have := h (j + 1) (by omega)
        rwa [show a + (j + 1) = a + 1 + j by omega] at this
      obtain ⟨b, hb⟩ := Option.isSome_iff_exists.mp h0
      obtain ⟨bs, hbs⟩ := Option.isSome_iff_exists.mp h1
      simp only [Nat.add_zero] at hb
      simp [readBytes, hb, hbs]

/-- Two memories that read the same in a range give the same bytes. -/
theorem readBytes_congr {m m' : Memory} {a n : Nat} (h : ∀ j < n, m.read (a + j) = m'.read (a + j)) :
    m.readBytes a n = m'.readBytes a n := by
  induction n generalizing a with
  | zero => rfl
  | succ n ih =>
    have h0 := h 0 (by omega)
    have h1 := ih (a := a + 1) fun j hj => by
      have := h (j + 1) (by omega)
      rwa [show a + (j + 1) = a + 1 + j by omega] at this
    simp only [Nat.add_zero] at h0
    simp only [readBytes, h0, h1]

/-- MemRead of what MemWrite wrote. -/
theorem readBytes_writeCells_cellsAt (m : Memory) (a : Nat) (bs : List Byte) :
    (m.writeCells (cellsAt a bs)).readBytes a bs.length = some bs :=
  readBytes_eq_some.mpr ⟨rfl, fun _ h => read_writeCells_cellsAt_in m h⟩

/-- Where MemRead has no value, the first gap is an address never written. -/
theorem read_firstGap {m : Memory} {a n : Nat} (h : m.readBytes a n = none) : m.read (m.firstGap a n) = none := by
  induction n generalizing a with
  | zero => simp [readBytes] at h
  | succ n ih =>
    simp only [firstGap]
    split
    · assumption
    · rename_i b hb
      refine ih ?_
      cases hr : m.readBytes (a + 1) n with
      | none => rfl
      | some bs => simp [readBytes, hb, hr] at h

end Memory

@[simp] theorem cellsAt_append (a : Nat) (bs cs : List Byte) :
    cellsAt a (bs ++ cs) = cellsAt a bs ++ cellsAt (a + bs.length) cs := by
  induction bs generalizing a with
  | nil => simp [cellsAt]
  | cons b bs ih => simp [cellsAt, ih, Nat.add_assoc, Nat.add_comm 1]

end Sys2Proof.Machine
end

