-- ==== Sys2Proof/Laws/State.lean ====
section
/-! SUPPORT. What each named update of State does to each field, by rfl, so that no proof unfolds a record update. -/

namespace Sys2Proof.Machine

/-! ### resetFor -/

@[simp] theorem resetFor_cmd (p : Params) : (State.resetFor p).cmd = 0 := rfl
@[simp] theorem resetFor_pending (p : Params) : (State.resetFor p).pending = false := rfl
@[simp] theorem resetFor_busy (p : Params) : (State.resetFor p).busy = false := rfl
@[simp] theorem resetFor_err (p : Params) : (State.resetFor p).err = false := rfl
@[simp] theorem resetFor_sticky (p : Params) : (State.resetFor p).sticky = false := rfl
@[simp] theorem resetFor_code (p : Params) : (State.resetFor p).code = .ok := rfl
@[simp] theorem resetFor_errA (p : Params) : (State.resetFor p).errA = 0 := rfl
@[simp] theorem resetFor_errB (p : Params) : (State.resetFor p).errB = 0 := rfl
@[simp] theorem resetFor_args (p : Params) : (State.resetFor p).args = Vector.replicate 8 0 := rfl
@[simp] theorem resetFor_res (p : Params) : (State.resetFor p).res = Vector.replicate 8 0 := rfl
@[simp] theorem resetFor_crcState (p : Params) : (State.resetFor p).crcState = 0xFFFFFFFF := rfl
@[simp] theorem resetFor_width (p : Params) : (State.resetFor p).width = 0 := rfl
@[simp] theorem resetFor_height (p : Params) : (State.resetFor p).height = 0 := rfl
@[simp] theorem resetFor_hdrFields (p : Params) : (State.resetFor p).hdrFields = 0 := rfl
@[simp] theorem resetFor_hdrInterlace (p : Params) : (State.resetFor p).hdrInterlace = 0 := rfl
@[simp] theorem resetFor_kind (p : Params) : (State.resetFor p).kind = none := rfl
@[simp] theorem resetFor_stride (p : Params) : (State.resetFor p).stride = 0 := rfl
@[simp] theorem resetFor_spanCount (p : Params) : (State.resetFor p).spanCount = 0 := rfl
@[simp] theorem resetFor_imgLen (p : Params) : (State.resetFor p).imgLen = 0 := rfl
@[simp] theorem resetFor_cfgValid (p : Params) : (State.resetFor p).cfgValid = false := rfl
@[simp] theorem resetFor_imgState (p : Params) : (State.resetFor p).imgState = .empty := rfl
@[simp] theorem resetFor_capBits (p : Params) : (State.resetFor p).capBits = 0 := rfl
@[simp] theorem resetFor_capBytes (p : Params) : (State.resetFor p).capBytes = 0 := rfl
@[simp] theorem resetFor_params (p : Params) : (State.resetFor p).params = p := rfl
@[simp] theorem resetFor_mem (p : Params) : (State.resetFor p).mem = [] := rfl
@[simp] theorem resetFor_schedule (p : Params) : (State.resetFor p).schedule = [] := rfl
@[simp] theorem resetFor_reads (p : Params) : (State.resetFor p).reads = [] := rfl
@[simp] theorem resetFor_draws (p : Params) : (State.resetFor p).draws = 0 := rfl

/-! ### raiseError -/

@[simp] theorem raiseError_cmd (e : ErrorCode) (a b : Nat) (s : State) :
    (raiseError e a b s).cmd = s.cmd := rfl
@[simp] theorem raiseError_pending (e : ErrorCode) (a b : Nat) (s : State) :
    (raiseError e a b s).pending = false := rfl
@[simp] theorem raiseError_busy (e : ErrorCode) (a b : Nat) (s : State) :
    (raiseError e a b s).busy = false := rfl
@[simp] theorem raiseError_err (e : ErrorCode) (a b : Nat) (s : State) :
    (raiseError e a b s).err = true := rfl
@[simp] theorem raiseError_sticky (e : ErrorCode) (a b : Nat) (s : State) :
    (raiseError e a b s).sticky = true := rfl
@[simp] theorem raiseError_code (e : ErrorCode) (a b : Nat) (s : State) :
    (raiseError e a b s).code = e := rfl
@[simp] theorem raiseError_errA (e : ErrorCode) (a b : Nat) (s : State) :
    (raiseError e a b s).errA = sat a := rfl
@[simp] theorem raiseError_errB (e : ErrorCode) (a b : Nat) (s : State) :
    (raiseError e a b s).errB = sat b := rfl
@[simp] theorem raiseError_args (e : ErrorCode) (a b : Nat) (s : State) :
    (raiseError e a b s).args = s.args := rfl
@[simp] theorem raiseError_res (e : ErrorCode) (a b : Nat) (s : State) :
    (raiseError e a b s).res = s.res := rfl
@[simp] theorem raiseError_crcState (e : ErrorCode) (a b : Nat) (s : State) :
    (raiseError e a b s).crcState = s.crcState := rfl
@[simp] theorem raiseError_width (e : ErrorCode) (a b : Nat) (s : State) :
    (raiseError e a b s).width = s.width := rfl
@[simp] theorem raiseError_height (e : ErrorCode) (a b : Nat) (s : State) :
    (raiseError e a b s).height = s.height := rfl
@[simp] theorem raiseError_hdrFields (e : ErrorCode) (a b : Nat) (s : State) :
    (raiseError e a b s).hdrFields = s.hdrFields := rfl
@[simp] theorem raiseError_hdrInterlace (e : ErrorCode) (a b : Nat) (s : State) :
    (raiseError e a b s).hdrInterlace = s.hdrInterlace := rfl
@[simp] theorem raiseError_kind (e : ErrorCode) (a b : Nat) (s : State) :
    (raiseError e a b s).kind = s.kind := rfl
@[simp] theorem raiseError_stride (e : ErrorCode) (a b : Nat) (s : State) :
    (raiseError e a b s).stride = s.stride := rfl
@[simp] theorem raiseError_spanCount (e : ErrorCode) (a b : Nat) (s : State) :
    (raiseError e a b s).spanCount = s.spanCount := rfl
@[simp] theorem raiseError_imgLen (e : ErrorCode) (a b : Nat) (s : State) :
    (raiseError e a b s).imgLen = s.imgLen := rfl
@[simp] theorem raiseError_cfgValid (e : ErrorCode) (a b : Nat) (s : State) :
    (raiseError e a b s).cfgValid = s.cfgValid := rfl
@[simp] theorem raiseError_imgState (e : ErrorCode) (a b : Nat) (s : State) :
    (raiseError e a b s).imgState = s.imgState := rfl
@[simp] theorem raiseError_capBits (e : ErrorCode) (a b : Nat) (s : State) :
    (raiseError e a b s).capBits = s.capBits := rfl
@[simp] theorem raiseError_capBytes (e : ErrorCode) (a b : Nat) (s : State) :
    (raiseError e a b s).capBytes = s.capBytes := rfl
@[simp] theorem raiseError_params (e : ErrorCode) (a b : Nat) (s : State) :
    (raiseError e a b s).params = s.params := rfl
@[simp] theorem raiseError_mem (e : ErrorCode) (a b : Nat) (s : State) :
    (raiseError e a b s).mem = s.mem := rfl
@[simp] theorem raiseError_schedule (e : ErrorCode) (a b : Nat) (s : State) :
    (raiseError e a b s).schedule = s.schedule := rfl
@[simp] theorem raiseError_reads (e : ErrorCode) (a b : Nat) (s : State) :
    (raiseError e a b s).reads = s.reads := rfl
@[simp] theorem raiseError_draws (e : ErrorCode) (a b : Nat) (s : State) :
    (raiseError e a b s).draws = s.draws := rfl

/-! ### completeCommand -/

@[simp] theorem completeCommand_cmd (s : State) :
    (completeCommand s).cmd = s.cmd := rfl
@[simp] theorem completeCommand_pending (s : State) :
    (completeCommand s).pending = false := rfl
@[simp] theorem completeCommand_busy (s : State) :
    (completeCommand s).busy = false := rfl
@[simp] theorem completeCommand_err (s : State) :
    (completeCommand s).err = false := rfl
@[simp] theorem completeCommand_sticky (s : State) :
    (completeCommand s).sticky = s.sticky := rfl
@[simp] theorem completeCommand_code (s : State) :
    (completeCommand s).code = .ok := rfl
@[simp] theorem completeCommand_errA (s : State) :
    (completeCommand s).errA = 0 := rfl
@[simp] theorem completeCommand_errB (s : State) :
    (completeCommand s).errB = 0 := rfl
@[simp] theorem completeCommand_args (s : State) :
    (completeCommand s).args = s.args := rfl
@[simp] theorem completeCommand_res (s : State) :
    (completeCommand s).res = s.res := rfl
@[simp] theorem completeCommand_crcState (s : State) :
    (completeCommand s).crcState = s.crcState := rfl
@[simp] theorem completeCommand_width (s : State) :
    (completeCommand s).width = s.width := rfl
@[simp] theorem completeCommand_height (s : State) :
    (completeCommand s).height = s.height := rfl
@[simp] theorem completeCommand_hdrFields (s : State) :
    (completeCommand s).hdrFields = s.hdrFields := rfl
@[simp] theorem completeCommand_hdrInterlace (s : State) :
    (completeCommand s).hdrInterlace = s.hdrInterlace := rfl
@[simp] theorem completeCommand_kind (s : State) :
    (completeCommand s).kind = s.kind := rfl
@[simp] theorem completeCommand_stride (s : State) :
    (completeCommand s).stride = s.stride := rfl
@[simp] theorem completeCommand_spanCount (s : State) :
    (completeCommand s).spanCount = s.spanCount := rfl
@[simp] theorem completeCommand_imgLen (s : State) :
    (completeCommand s).imgLen = s.imgLen := rfl
@[simp] theorem completeCommand_cfgValid (s : State) :
    (completeCommand s).cfgValid = s.cfgValid := rfl
@[simp] theorem completeCommand_imgState (s : State) :
    (completeCommand s).imgState = s.imgState := rfl
@[simp] theorem completeCommand_capBits (s : State) :
    (completeCommand s).capBits = s.capBits := rfl
@[simp] theorem completeCommand_capBytes (s : State) :
    (completeCommand s).capBytes = s.capBytes := rfl
@[simp] theorem completeCommand_params (s : State) :
    (completeCommand s).params = s.params := rfl
@[simp] theorem completeCommand_mem (s : State) :
    (completeCommand s).mem = s.mem := rfl
@[simp] theorem completeCommand_schedule (s : State) :
    (completeCommand s).schedule = s.schedule := rfl
@[simp] theorem completeCommand_reads (s : State) :
    (completeCommand s).reads = s.reads := rfl
@[simp] theorem completeCommand_draws (s : State) :
    (completeCommand s).draws = s.draws := rfl

/-! ### State.setRes -/

@[simp] theorem State.setRes_cmd (k : Fin 8) (v : Nat) (s : State) :
    (s.setRes k v).cmd = s.cmd := rfl
@[simp] theorem State.setRes_pending (k : Fin 8) (v : Nat) (s : State) :
    (s.setRes k v).pending = s.pending := rfl
@[simp] theorem State.setRes_busy (k : Fin 8) (v : Nat) (s : State) :
    (s.setRes k v).busy = s.busy := rfl
@[simp] theorem State.setRes_err (k : Fin 8) (v : Nat) (s : State) :
    (s.setRes k v).err = s.err := rfl
@[simp] theorem State.setRes_sticky (k : Fin 8) (v : Nat) (s : State) :
    (s.setRes k v).sticky = s.sticky := rfl
@[simp] theorem State.setRes_code (k : Fin 8) (v : Nat) (s : State) :
    (s.setRes k v).code = s.code := rfl
@[simp] theorem State.setRes_errA (k : Fin 8) (v : Nat) (s : State) :
    (s.setRes k v).errA = s.errA := rfl
@[simp] theorem State.setRes_errB (k : Fin 8) (v : Nat) (s : State) :
    (s.setRes k v).errB = s.errB := rfl
@[simp] theorem State.setRes_args (k : Fin 8) (v : Nat) (s : State) :
    (s.setRes k v).args = s.args := rfl
@[simp] theorem State.setRes_res (k : Fin 8) (v : Nat) (s : State) :
    (s.setRes k v).res = s.res.set k (BitVec.ofNat 32 v) := rfl
@[simp] theorem State.setRes_crcState (k : Fin 8) (v : Nat) (s : State) :
    (s.setRes k v).crcState = s.crcState := rfl
@[simp] theorem State.setRes_width (k : Fin 8) (v : Nat) (s : State) :
    (s.setRes k v).width = s.width := rfl
@[simp] theorem State.setRes_height (k : Fin 8) (v : Nat) (s : State) :
    (s.setRes k v).height = s.height := rfl
@[simp] theorem State.setRes_hdrFields (k : Fin 8) (v : Nat) (s : State) :
    (s.setRes k v).hdrFields = s.hdrFields := rfl
@[simp] theorem State.setRes_hdrInterlace (k : Fin 8) (v : Nat) (s : State) :
    (s.setRes k v).hdrInterlace = s.hdrInterlace := rfl
@[simp] theorem State.setRes_kind (k : Fin 8) (v : Nat) (s : State) :
    (s.setRes k v).kind = s.kind := rfl
@[simp] theorem State.setRes_stride (k : Fin 8) (v : Nat) (s : State) :
    (s.setRes k v).stride = s.stride := rfl
@[simp] theorem State.setRes_spanCount (k : Fin 8) (v : Nat) (s : State) :
    (s.setRes k v).spanCount = s.spanCount := rfl
@[simp] theorem State.setRes_imgLen (k : Fin 8) (v : Nat) (s : State) :
    (s.setRes k v).imgLen = s.imgLen := rfl
@[simp] theorem State.setRes_cfgValid (k : Fin 8) (v : Nat) (s : State) :
    (s.setRes k v).cfgValid = s.cfgValid := rfl
@[simp] theorem State.setRes_imgState (k : Fin 8) (v : Nat) (s : State) :
    (s.setRes k v).imgState = s.imgState := rfl
@[simp] theorem State.setRes_capBits (k : Fin 8) (v : Nat) (s : State) :
    (s.setRes k v).capBits = s.capBits := rfl
@[simp] theorem State.setRes_capBytes (k : Fin 8) (v : Nat) (s : State) :
    (s.setRes k v).capBytes = s.capBytes := rfl
@[simp] theorem State.setRes_params (k : Fin 8) (v : Nat) (s : State) :
    (s.setRes k v).params = s.params := rfl
@[simp] theorem State.setRes_mem (k : Fin 8) (v : Nat) (s : State) :
    (s.setRes k v).mem = s.mem := rfl
@[simp] theorem State.setRes_schedule (k : Fin 8) (v : Nat) (s : State) :
    (s.setRes k v).schedule = s.schedule := rfl
@[simp] theorem State.setRes_reads (k : Fin 8) (v : Nat) (s : State) :
    (s.setRes k v).reads = s.reads := rfl
@[simp] theorem State.setRes_draws (k : Fin 8) (v : Nat) (s : State) :
    (s.setRes k v).draws = s.draws := rfl

/-! ### issueCommand -/

@[simp] theorem issueCommand_cmd (w : Word) (s : State) :
    (issueCommand w s).cmd = w := rfl
@[simp] theorem issueCommand_pending (w : Word) (s : State) :
    (issueCommand w s).pending = true := rfl
@[simp] theorem issueCommand_busy (w : Word) (s : State) :
    (issueCommand w s).busy = true := rfl
@[simp] theorem issueCommand_err (w : Word) (s : State) :
    (issueCommand w s).err = s.err := rfl
@[simp] theorem issueCommand_sticky (w : Word) (s : State) :
    (issueCommand w s).sticky = s.sticky := rfl
@[simp] theorem issueCommand_code (w : Word) (s : State) :
    (issueCommand w s).code = s.code := rfl
@[simp] theorem issueCommand_errA (w : Word) (s : State) :
    (issueCommand w s).errA = s.errA := rfl
@[simp] theorem issueCommand_errB (w : Word) (s : State) :
    (issueCommand w s).errB = s.errB := rfl
@[simp] theorem issueCommand_args (w : Word) (s : State) :
    (issueCommand w s).args = s.args := rfl
@[simp] theorem issueCommand_res (w : Word) (s : State) :
    (issueCommand w s).res = s.res := rfl
@[simp] theorem issueCommand_crcState (w : Word) (s : State) :
    (issueCommand w s).crcState = s.crcState := rfl
@[simp] theorem issueCommand_width (w : Word) (s : State) :
    (issueCommand w s).width = s.width := rfl
@[simp] theorem issueCommand_height (w : Word) (s : State) :
    (issueCommand w s).height = s.height := rfl
@[simp] theorem issueCommand_hdrFields (w : Word) (s : State) :
    (issueCommand w s).hdrFields = s.hdrFields := rfl
@[simp] theorem issueCommand_hdrInterlace (w : Word) (s : State) :
    (issueCommand w s).hdrInterlace = s.hdrInterlace := rfl
@[simp] theorem issueCommand_kind (w : Word) (s : State) :
    (issueCommand w s).kind = s.kind := rfl
@[simp] theorem issueCommand_stride (w : Word) (s : State) :
    (issueCommand w s).stride = s.stride := rfl
@[simp] theorem issueCommand_spanCount (w : Word) (s : State) :
    (issueCommand w s).spanCount = s.spanCount := rfl
@[simp] theorem issueCommand_imgLen (w : Word) (s : State) :
    (issueCommand w s).imgLen = s.imgLen := rfl
@[simp] theorem issueCommand_cfgValid (w : Word) (s : State) :
    (issueCommand w s).cfgValid = s.cfgValid := rfl
@[simp] theorem issueCommand_imgState (w : Word) (s : State) :
    (issueCommand w s).imgState = s.imgState := rfl
@[simp] theorem issueCommand_capBits (w : Word) (s : State) :
    (issueCommand w s).capBits = s.capBits := rfl
@[simp] theorem issueCommand_capBytes (w : Word) (s : State) :
    (issueCommand w s).capBytes = s.capBytes := rfl
@[simp] theorem issueCommand_params (w : Word) (s : State) :
    (issueCommand w s).params = s.params := rfl
@[simp] theorem issueCommand_mem (w : Word) (s : State) :
    (issueCommand w s).mem = s.mem := rfl
@[simp] theorem issueCommand_schedule (w : Word) (s : State) :
    (issueCommand w s).schedule = s.schedule := rfl
@[simp] theorem issueCommand_reads (w : Word) (s : State) :
    (issueCommand w s).reads = s.reads := rfl
@[simp] theorem issueCommand_draws (w : Word) (s : State) :
    (issueCommand w s).draws = s.draws := rfl

/-! ### presentCommand -/

@[simp] theorem presentCommand_cmd (w : Word) (s : State) :
    (presentCommand w s).cmd = w := rfl
@[simp] theorem presentCommand_pending (w : Word) (s : State) :
    (presentCommand w s).pending = true := rfl
@[simp] theorem presentCommand_busy (w : Word) (s : State) :
    (presentCommand w s).busy = true := rfl
@[simp] theorem presentCommand_err (w : Word) (s : State) :
    (presentCommand w s).err = s.err := rfl
@[simp] theorem presentCommand_sticky (w : Word) (s : State) :
    (presentCommand w s).sticky = s.sticky := rfl
@[simp] theorem presentCommand_code (w : Word) (s : State) :
    (presentCommand w s).code = s.code := rfl
@[simp] theorem presentCommand_errA (w : Word) (s : State) :
    (presentCommand w s).errA = s.errA := rfl
@[simp] theorem presentCommand_errB (w : Word) (s : State) :
    (presentCommand w s).errB = s.errB := rfl
@[simp] theorem presentCommand_args (w : Word) (s : State) :
    (presentCommand w s).args = s.args := rfl
@[simp] theorem presentCommand_res (w : Word) (s : State) :
    (presentCommand w s).res = s.res := rfl
@[simp] theorem presentCommand_crcState (w : Word) (s : State) :
    (presentCommand w s).crcState = s.crcState := rfl
@[simp] theorem presentCommand_width (w : Word) (s : State) :
    (presentCommand w s).width = s.width := rfl
@[simp] theorem presentCommand_height (w : Word) (s : State) :
    (presentCommand w s).height = s.height := rfl
@[simp] theorem presentCommand_hdrFields (w : Word) (s : State) :
    (presentCommand w s).hdrFields = s.hdrFields := rfl
@[simp] theorem presentCommand_hdrInterlace (w : Word) (s : State) :
    (presentCommand w s).hdrInterlace = s.hdrInterlace := rfl
@[simp] theorem presentCommand_kind (w : Word) (s : State) :
    (presentCommand w s).kind = s.kind := rfl
@[simp] theorem presentCommand_stride (w : Word) (s : State) :
    (presentCommand w s).stride = s.stride := rfl
@[simp] theorem presentCommand_spanCount (w : Word) (s : State) :
    (presentCommand w s).spanCount = s.spanCount := rfl
@[simp] theorem presentCommand_imgLen (w : Word) (s : State) :
    (presentCommand w s).imgLen = s.imgLen := rfl
@[simp] theorem presentCommand_cfgValid (w : Word) (s : State) :
    (presentCommand w s).cfgValid = s.cfgValid := rfl
@[simp] theorem presentCommand_imgState (w : Word) (s : State) :
    (presentCommand w s).imgState = s.imgState := rfl
@[simp] theorem presentCommand_capBits (w : Word) (s : State) :
    (presentCommand w s).capBits = s.capBits := rfl
@[simp] theorem presentCommand_capBytes (w : Word) (s : State) :
    (presentCommand w s).capBytes = s.capBytes := rfl
@[simp] theorem presentCommand_params (w : Word) (s : State) :
    (presentCommand w s).params = s.params := rfl
@[simp] theorem presentCommand_mem (w : Word) (s : State) :
    (presentCommand w s).mem = s.mem := rfl
@[simp] theorem presentCommand_schedule (w : Word) (s : State) :
    (presentCommand w s).schedule = .sequencer :: s.schedule := rfl
@[simp] theorem presentCommand_reads (w : Word) (s : State) :
    (presentCommand w s).reads = s.reads := rfl
@[simp] theorem presentCommand_draws (w : Word) (s : State) :
    (presentCommand w s).draws = s.draws := rfl

/-! ### clearSticky -/

@[simp] theorem clearSticky_cmd (s : State) :
    (clearSticky s).cmd = s.cmd := rfl
@[simp] theorem clearSticky_pending (s : State) :
    (clearSticky s).pending = s.pending := rfl
@[simp] theorem clearSticky_busy (s : State) :
    (clearSticky s).busy = s.busy := rfl
@[simp] theorem clearSticky_err (s : State) :
    (clearSticky s).err = s.err := rfl
@[simp] theorem clearSticky_sticky (s : State) :
    (clearSticky s).sticky = false := rfl
@[simp] theorem clearSticky_code (s : State) :
    (clearSticky s).code = s.code := rfl
@[simp] theorem clearSticky_errA (s : State) :
    (clearSticky s).errA = s.errA := rfl
@[simp] theorem clearSticky_errB (s : State) :
    (clearSticky s).errB = s.errB := rfl
@[simp] theorem clearSticky_args (s : State) :
    (clearSticky s).args = s.args := rfl
@[simp] theorem clearSticky_res (s : State) :
    (clearSticky s).res = s.res := rfl
@[simp] theorem clearSticky_crcState (s : State) :
    (clearSticky s).crcState = s.crcState := rfl
@[simp] theorem clearSticky_width (s : State) :
    (clearSticky s).width = s.width := rfl
@[simp] theorem clearSticky_height (s : State) :
    (clearSticky s).height = s.height := rfl
@[simp] theorem clearSticky_hdrFields (s : State) :
    (clearSticky s).hdrFields = s.hdrFields := rfl
@[simp] theorem clearSticky_hdrInterlace (s : State) :
    (clearSticky s).hdrInterlace = s.hdrInterlace := rfl
@[simp] theorem clearSticky_kind (s : State) :
    (clearSticky s).kind = s.kind := rfl
@[simp] theorem clearSticky_stride (s : State) :
    (clearSticky s).stride = s.stride := rfl
@[simp] theorem clearSticky_spanCount (s : State) :
    (clearSticky s).spanCount = s.spanCount := rfl
@[simp] theorem clearSticky_imgLen (s : State) :
    (clearSticky s).imgLen = s.imgLen := rfl
@[simp] theorem clearSticky_cfgValid (s : State) :
    (clearSticky s).cfgValid = s.cfgValid := rfl
@[simp] theorem clearSticky_imgState (s : State) :
    (clearSticky s).imgState = s.imgState := rfl
@[simp] theorem clearSticky_capBits (s : State) :
    (clearSticky s).capBits = s.capBits := rfl
@[simp] theorem clearSticky_capBytes (s : State) :
    (clearSticky s).capBytes = s.capBytes := rfl
@[simp] theorem clearSticky_params (s : State) :
    (clearSticky s).params = s.params := rfl
@[simp] theorem clearSticky_mem (s : State) :
    (clearSticky s).mem = s.mem := rfl
@[simp] theorem clearSticky_schedule (s : State) :
    (clearSticky s).schedule = s.schedule := rfl
@[simp] theorem clearSticky_reads (s : State) :
    (clearSticky s).reads = s.reads := rfl
@[simp] theorem clearSticky_draws (s : State) :
    (clearSticky s).draws = s.draws := rfl

/-! ### softReset -/

@[simp] theorem softReset_cmd (s : State) :
    (softReset s).cmd = (State.resetFor s.params).cmd := rfl
@[simp] theorem softReset_pending (s : State) :
    (softReset s).pending = (State.resetFor s.params).pending := rfl
@[simp] theorem softReset_busy (s : State) :
    (softReset s).busy = (State.resetFor s.params).busy := rfl
@[simp] theorem softReset_err (s : State) :
    (softReset s).err = (State.resetFor s.params).err := rfl
@[simp] theorem softReset_sticky (s : State) :
    (softReset s).sticky = (State.resetFor s.params).sticky := rfl
@[simp] theorem softReset_code (s : State) :
    (softReset s).code = (State.resetFor s.params).code := rfl
@[simp] theorem softReset_errA (s : State) :
    (softReset s).errA = (State.resetFor s.params).errA := rfl
@[simp] theorem softReset_errB (s : State) :
    (softReset s).errB = (State.resetFor s.params).errB := rfl
@[simp] theorem softReset_args (s : State) :
    (softReset s).args = (State.resetFor s.params).args := rfl
@[simp] theorem softReset_res (s : State) :
    (softReset s).res = (State.resetFor s.params).res := rfl
@[simp] theorem softReset_crcState (s : State) :
    (softReset s).crcState = (State.resetFor s.params).crcState := rfl
@[simp] theorem softReset_width (s : State) :
    (softReset s).width = (State.resetFor s.params).width := rfl
@[simp] theorem softReset_height (s : State) :
    (softReset s).height = (State.resetFor s.params).height := rfl
@[simp] theorem softReset_hdrFields (s : State) :
    (softReset s).hdrFields = (State.resetFor s.params).hdrFields := rfl
@[simp] theorem softReset_hdrInterlace (s : State) :
    (softReset s).hdrInterlace = (State.resetFor s.params).hdrInterlace := rfl
@[simp] theorem softReset_kind (s : State) :
    (softReset s).kind = (State.resetFor s.params).kind := rfl
@[simp] theorem softReset_stride (s : State) :
    (softReset s).stride = (State.resetFor s.params).stride := rfl
@[simp] theorem softReset_spanCount (s : State) :
    (softReset s).spanCount = (State.resetFor s.params).spanCount := rfl
@[simp] theorem softReset_imgLen (s : State) :
    (softReset s).imgLen = (State.resetFor s.params).imgLen := rfl
@[simp] theorem softReset_cfgValid (s : State) :
    (softReset s).cfgValid = (State.resetFor s.params).cfgValid := rfl
@[simp] theorem softReset_imgState (s : State) :
    (softReset s).imgState = (State.resetFor s.params).imgState := rfl
@[simp] theorem softReset_capBits (s : State) :
    (softReset s).capBits = (State.resetFor s.params).capBits := rfl
@[simp] theorem softReset_capBytes (s : State) :
    (softReset s).capBytes = (State.resetFor s.params).capBytes := rfl
@[simp] theorem softReset_params (s : State) :
    (softReset s).params = s.params := rfl
@[simp] theorem softReset_mem (s : State) :
    (softReset s).mem = s.mem := rfl
@[simp] theorem softReset_schedule (s : State) :
    (softReset s).schedule = s.schedule := rfl
@[simp] theorem softReset_reads (s : State) :
    (softReset s).reads = s.reads := rfl
@[simp] theorem softReset_draws (s : State) :
    (softReset s).draws = s.draws := rfl

/-! ### hardReset -/

@[simp] theorem hardReset_cmd (s : State) :
    (hardReset s).cmd = (State.resetFor s.params).cmd := rfl
@[simp] theorem hardReset_pending (s : State) :
    (hardReset s).pending = (State.resetFor s.params).pending := rfl
@[simp] theorem hardReset_busy (s : State) :
    (hardReset s).busy = (State.resetFor s.params).busy := rfl
@[simp] theorem hardReset_err (s : State) :
    (hardReset s).err = (State.resetFor s.params).err := rfl
@[simp] theorem hardReset_sticky (s : State) :
    (hardReset s).sticky = (State.resetFor s.params).sticky := rfl
@[simp] theorem hardReset_code (s : State) :
    (hardReset s).code = (State.resetFor s.params).code := rfl
@[simp] theorem hardReset_errA (s : State) :
    (hardReset s).errA = (State.resetFor s.params).errA := rfl
@[simp] theorem hardReset_errB (s : State) :
    (hardReset s).errB = (State.resetFor s.params).errB := rfl
@[simp] theorem hardReset_args (s : State) :
    (hardReset s).args = (State.resetFor s.params).args := rfl
@[simp] theorem hardReset_res (s : State) :
    (hardReset s).res = (State.resetFor s.params).res := rfl
@[simp] theorem hardReset_crcState (s : State) :
    (hardReset s).crcState = (State.resetFor s.params).crcState := rfl
@[simp] theorem hardReset_width (s : State) :
    (hardReset s).width = (State.resetFor s.params).width := rfl
@[simp] theorem hardReset_height (s : State) :
    (hardReset s).height = (State.resetFor s.params).height := rfl
@[simp] theorem hardReset_hdrFields (s : State) :
    (hardReset s).hdrFields = (State.resetFor s.params).hdrFields := rfl
@[simp] theorem hardReset_hdrInterlace (s : State) :
    (hardReset s).hdrInterlace = (State.resetFor s.params).hdrInterlace := rfl
@[simp] theorem hardReset_kind (s : State) :
    (hardReset s).kind = (State.resetFor s.params).kind := rfl
@[simp] theorem hardReset_stride (s : State) :
    (hardReset s).stride = (State.resetFor s.params).stride := rfl
@[simp] theorem hardReset_spanCount (s : State) :
    (hardReset s).spanCount = (State.resetFor s.params).spanCount := rfl
@[simp] theorem hardReset_imgLen (s : State) :
    (hardReset s).imgLen = (State.resetFor s.params).imgLen := rfl
@[simp] theorem hardReset_cfgValid (s : State) :
    (hardReset s).cfgValid = (State.resetFor s.params).cfgValid := rfl
@[simp] theorem hardReset_imgState (s : State) :
    (hardReset s).imgState = (State.resetFor s.params).imgState := rfl
@[simp] theorem hardReset_capBits (s : State) :
    (hardReset s).capBits = (State.resetFor s.params).capBits := rfl
@[simp] theorem hardReset_capBytes (s : State) :
    (hardReset s).capBytes = (State.resetFor s.params).capBytes := rfl
@[simp] theorem hardReset_params (s : State) :
    (hardReset s).params = s.params := rfl
@[simp] theorem hardReset_mem (s : State) :
    (hardReset s).mem = (State.resetFor s.params).mem := rfl
@[simp] theorem hardReset_schedule (s : State) :
    (hardReset s).schedule = s.schedule := rfl
@[simp] theorem hardReset_reads (s : State) :
    (hardReset s).reads = s.reads := rfl
@[simp] theorem hardReset_draws (s : State) :
    (hardReset s).draws = s.draws := rfl

/-! ### pushRead -/

@[simp] theorem pushRead_cmd (v : Word) (s : State) :
    (pushRead v s).cmd = s.cmd := rfl
@[simp] theorem pushRead_pending (v : Word) (s : State) :
    (pushRead v s).pending = s.pending := rfl
@[simp] theorem pushRead_busy (v : Word) (s : State) :
    (pushRead v s).busy = s.busy := rfl
@[simp] theorem pushRead_err (v : Word) (s : State) :
    (pushRead v s).err = s.err := rfl
@[simp] theorem pushRead_sticky (v : Word) (s : State) :
    (pushRead v s).sticky = s.sticky := rfl
@[simp] theorem pushRead_code (v : Word) (s : State) :
    (pushRead v s).code = s.code := rfl
@[simp] theorem pushRead_errA (v : Word) (s : State) :
    (pushRead v s).errA = s.errA := rfl
@[simp] theorem pushRead_errB (v : Word) (s : State) :
    (pushRead v s).errB = s.errB := rfl
@[simp] theorem pushRead_args (v : Word) (s : State) :
    (pushRead v s).args = s.args := rfl
@[simp] theorem pushRead_res (v : Word) (s : State) :
    (pushRead v s).res = s.res := rfl
@[simp] theorem pushRead_crcState (v : Word) (s : State) :
    (pushRead v s).crcState = s.crcState := rfl
@[simp] theorem pushRead_width (v : Word) (s : State) :
    (pushRead v s).width = s.width := rfl
@[simp] theorem pushRead_height (v : Word) (s : State) :
    (pushRead v s).height = s.height := rfl
@[simp] theorem pushRead_hdrFields (v : Word) (s : State) :
    (pushRead v s).hdrFields = s.hdrFields := rfl
@[simp] theorem pushRead_hdrInterlace (v : Word) (s : State) :
    (pushRead v s).hdrInterlace = s.hdrInterlace := rfl
@[simp] theorem pushRead_kind (v : Word) (s : State) :
    (pushRead v s).kind = s.kind := rfl
@[simp] theorem pushRead_stride (v : Word) (s : State) :
    (pushRead v s).stride = s.stride := rfl
@[simp] theorem pushRead_spanCount (v : Word) (s : State) :
    (pushRead v s).spanCount = s.spanCount := rfl
@[simp] theorem pushRead_imgLen (v : Word) (s : State) :
    (pushRead v s).imgLen = s.imgLen := rfl
@[simp] theorem pushRead_cfgValid (v : Word) (s : State) :
    (pushRead v s).cfgValid = s.cfgValid := rfl
@[simp] theorem pushRead_imgState (v : Word) (s : State) :
    (pushRead v s).imgState = s.imgState := rfl
@[simp] theorem pushRead_capBits (v : Word) (s : State) :
    (pushRead v s).capBits = s.capBits := rfl
@[simp] theorem pushRead_capBytes (v : Word) (s : State) :
    (pushRead v s).capBytes = s.capBytes := rfl
@[simp] theorem pushRead_params (v : Word) (s : State) :
    (pushRead v s).params = s.params := rfl
@[simp] theorem pushRead_mem (v : Word) (s : State) :
    (pushRead v s).mem = s.mem := rfl
@[simp] theorem pushRead_schedule (v : Word) (s : State) :
    (pushRead v s).schedule = s.schedule := rfl
@[simp] theorem pushRead_reads (v : Word) (s : State) :
    (pushRead v s).reads = v :: s.reads := rfl
@[simp] theorem pushRead_draws (v : Word) (s : State) :
    (pushRead v s).draws = s.draws := rfl

/-! ### writeBytesAccess -/

@[simp] theorem writeBytesAccess_cmd (a n : Nat) (v : Word) (s : State) :
    (writeBytesAccess s a n v).cmd = s.cmd := rfl
@[simp] theorem writeBytesAccess_pending (a n : Nat) (v : Word) (s : State) :
    (writeBytesAccess s a n v).pending = s.pending := rfl
@[simp] theorem writeBytesAccess_busy (a n : Nat) (v : Word) (s : State) :
    (writeBytesAccess s a n v).busy = s.busy := rfl
@[simp] theorem writeBytesAccess_err (a n : Nat) (v : Word) (s : State) :
    (writeBytesAccess s a n v).err = s.err := rfl
@[simp] theorem writeBytesAccess_sticky (a n : Nat) (v : Word) (s : State) :
    (writeBytesAccess s a n v).sticky = s.sticky := rfl
@[simp] theorem writeBytesAccess_code (a n : Nat) (v : Word) (s : State) :
    (writeBytesAccess s a n v).code = s.code := rfl
@[simp] theorem writeBytesAccess_errA (a n : Nat) (v : Word) (s : State) :
    (writeBytesAccess s a n v).errA = s.errA := rfl
@[simp] theorem writeBytesAccess_errB (a n : Nat) (v : Word) (s : State) :
    (writeBytesAccess s a n v).errB = s.errB := rfl
@[simp] theorem writeBytesAccess_args (a n : Nat) (v : Word) (s : State) :
    (writeBytesAccess s a n v).args = s.args := rfl
@[simp] theorem writeBytesAccess_res (a n : Nat) (v : Word) (s : State) :
    (writeBytesAccess s a n v).res = s.res := rfl
@[simp] theorem writeBytesAccess_crcState (a n : Nat) (v : Word) (s : State) :
    (writeBytesAccess s a n v).crcState = s.crcState := rfl
@[simp] theorem writeBytesAccess_width (a n : Nat) (v : Word) (s : State) :
    (writeBytesAccess s a n v).width = s.width := rfl
@[simp] theorem writeBytesAccess_height (a n : Nat) (v : Word) (s : State) :
    (writeBytesAccess s a n v).height = s.height := rfl
@[simp] theorem writeBytesAccess_hdrFields (a n : Nat) (v : Word) (s : State) :
    (writeBytesAccess s a n v).hdrFields = s.hdrFields := rfl
@[simp] theorem writeBytesAccess_hdrInterlace (a n : Nat) (v : Word) (s : State) :
    (writeBytesAccess s a n v).hdrInterlace = s.hdrInterlace := rfl
@[simp] theorem writeBytesAccess_kind (a n : Nat) (v : Word) (s : State) :
    (writeBytesAccess s a n v).kind = s.kind := rfl
@[simp] theorem writeBytesAccess_stride (a n : Nat) (v : Word) (s : State) :
    (writeBytesAccess s a n v).stride = s.stride := rfl
@[simp] theorem writeBytesAccess_spanCount (a n : Nat) (v : Word) (s : State) :
    (writeBytesAccess s a n v).spanCount = s.spanCount := rfl
@[simp] theorem writeBytesAccess_imgLen (a n : Nat) (v : Word) (s : State) :
    (writeBytesAccess s a n v).imgLen = s.imgLen := rfl
@[simp] theorem writeBytesAccess_cfgValid (a n : Nat) (v : Word) (s : State) :
    (writeBytesAccess s a n v).cfgValid = s.cfgValid := rfl
@[simp] theorem writeBytesAccess_imgState (a n : Nat) (v : Word) (s : State) :
    (writeBytesAccess s a n v).imgState = s.imgState := rfl
@[simp] theorem writeBytesAccess_capBits (a n : Nat) (v : Word) (s : State) :
    (writeBytesAccess s a n v).capBits = s.capBits := rfl
@[simp] theorem writeBytesAccess_capBytes (a n : Nat) (v : Word) (s : State) :
    (writeBytesAccess s a n v).capBytes = s.capBytes := rfl
@[simp] theorem writeBytesAccess_params (a n : Nat) (v : Word) (s : State) :
    (writeBytesAccess s a n v).params = s.params := rfl
@[simp] theorem writeBytesAccess_mem (a n : Nat) (v : Word) (s : State) :
    (writeBytesAccess s a n v).mem = s.mem.writeCells (cellsAt a (toLe n v.toNat)) := rfl
@[simp] theorem writeBytesAccess_schedule (a n : Nat) (v : Word) (s : State) :
    (writeBytesAccess s a n v).schedule = s.schedule := rfl
@[simp] theorem writeBytesAccess_reads (a n : Nat) (v : Word) (s : State) :
    (writeBytesAccess s a n v).reads = s.reads := rfl
@[simp] theorem writeBytesAccess_draws (a n : Nat) (v : Word) (s : State) :
    (writeBytesAccess s a n v).draws = s.draws := rfl

/-! ### configure -/

@[simp] theorem configure_cmd (k : PixelKind) (w h bd ct cm fm im : Nat) (s : State) :
    (configure k w h bd ct cm fm im s).cmd = s.cmd := (rfl)
@[simp] theorem configure_pending (k : PixelKind) (w h bd ct cm fm im : Nat) (s : State) :
    (configure k w h bd ct cm fm im s).pending = s.pending := (rfl)
@[simp] theorem configure_busy (k : PixelKind) (w h bd ct cm fm im : Nat) (s : State) :
    (configure k w h bd ct cm fm im s).busy = s.busy := (rfl)
@[simp] theorem configure_err (k : PixelKind) (w h bd ct cm fm im : Nat) (s : State) :
    (configure k w h bd ct cm fm im s).err = s.err := (rfl)
@[simp] theorem configure_sticky (k : PixelKind) (w h bd ct cm fm im : Nat) (s : State) :
    (configure k w h bd ct cm fm im s).sticky = s.sticky := (rfl)
@[simp] theorem configure_code (k : PixelKind) (w h bd ct cm fm im : Nat) (s : State) :
    (configure k w h bd ct cm fm im s).code = s.code := (rfl)
@[simp] theorem configure_errA (k : PixelKind) (w h bd ct cm fm im : Nat) (s : State) :
    (configure k w h bd ct cm fm im s).errA = s.errA := (rfl)
@[simp] theorem configure_errB (k : PixelKind) (w h bd ct cm fm im : Nat) (s : State) :
    (configure k w h bd ct cm fm im s).errB = s.errB := (rfl)
@[simp] theorem configure_args (k : PixelKind) (w h bd ct cm fm im : Nat) (s : State) :
    (configure k w h bd ct cm fm im s).args = s.args := (rfl)
@[simp] theorem configure_res (k : PixelKind) (w h bd ct cm fm im : Nat) (s : State) :
    (configure k w h bd ct cm fm im s).res = s.res := (rfl)
@[simp] theorem configure_crcState (k : PixelKind) (w h bd ct cm fm im : Nat) (s : State) :
    (configure k w h bd ct cm fm im s).crcState = s.crcState := (rfl)
@[simp] theorem configure_width (k : PixelKind) (w h bd ct cm fm im : Nat) (s : State) :
    (configure k w h bd ct cm fm im s).width = BitVec.ofNat 32 w := (rfl)
@[simp] theorem configure_height (k : PixelKind) (w h bd ct cm fm im : Nat) (s : State) :
    (configure k w h bd ct cm fm im s).height = BitVec.ofNat 32 h := (rfl)
@[simp] theorem configure_hdrFields (k : PixelKind) (w h bd ct cm fm im : Nat) (s : State) :
    (configure k w h bd ct cm fm im s).hdrFields = hdrFieldsOf bd ct cm fm := (rfl)
@[simp] theorem configure_hdrInterlace (k : PixelKind) (w h bd ct cm fm im : Nat) (s : State) :
    (configure k w h bd ct cm fm im s).hdrInterlace = BitVec.ofNat 32 im := (rfl)
@[simp] theorem configure_kind (k : PixelKind) (w h bd ct cm fm im : Nat) (s : State) :
    (configure k w h bd ct cm fm im s).kind = some k := (rfl)
@[simp] theorem configure_stride (k : PixelKind) (w h bd ct cm fm im : Nat) (s : State) :
    (configure k w h bd ct cm fm im s).stride = BitVec.ofNat 32 (strideOf (kindRow k) w) := (rfl)
@[simp] theorem configure_spanCount (k : PixelKind) (w h bd ct cm fm im : Nat) (s : State) :
    (configure k w h bd ct cm fm im s).spanCount = BitVec.ofNat 32 (spanCountOf (kindRow k) w) := (rfl)
@[simp] theorem configure_imgLen (k : PixelKind) (w h bd ct cm fm im : Nat) (s : State) :
    (configure k w h bd ct cm fm im s).imgLen = BitVec.ofNat 32 (h * (1 + strideOf (kindRow k) w)) := (rfl)
@[simp] theorem configure_cfgValid (k : PixelKind) (w h bd ct cm fm im : Nat) (s : State) :
    (configure k w h bd ct cm fm im s).cfgValid = true := (rfl)
@[simp] theorem configure_imgState (k : PixelKind) (w h bd ct cm fm im : Nat) (s : State) :
    (configure k w h bd ct cm fm im s).imgState = .empty := (rfl)
@[simp] theorem configure_capBits (k : PixelKind) (w h bd ct cm fm im : Nat) (s : State) :
    (configure k w h bd ct cm fm im s).capBits = BitVec.ofNat 32 (capBitsOf k w h) := (rfl)
@[simp] theorem configure_capBytes (k : PixelKind) (w h bd ct cm fm im : Nat) (s : State) :
    (configure k w h bd ct cm fm im s).capBytes = BitVec.ofNat 32 (capBitsOf k w h / 8) := (rfl)
@[simp] theorem configure_params (k : PixelKind) (w h bd ct cm fm im : Nat) (s : State) :
    (configure k w h bd ct cm fm im s).params = s.params := (rfl)
@[simp] theorem configure_mem (k : PixelKind) (w h bd ct cm fm im : Nat) (s : State) :
    (configure k w h bd ct cm fm im s).mem = s.mem := (rfl)
@[simp] theorem configure_schedule (k : PixelKind) (w h bd ct cm fm im : Nat) (s : State) :
    (configure k w h bd ct cm fm im s).schedule = s.schedule := (rfl)
@[simp] theorem configure_reads (k : PixelKind) (w h bd ct cm fm im : Nat) (s : State) :
    (configure k w h bd ct cm fm im s).reads = s.reads := (rfl)
@[simp] theorem configure_draws (k : PixelKind) (w h bd ct cm fm im : Nat) (s : State) :
    (configure k w h bd ct cm fm im s).draws = s.draws := (rfl)

/-! ### commitStores -/

@[simp] theorem commitStores_cmd (d : Done) : (commitStores d).cmd = d.regs.cmd := rfl
@[simp] theorem commitStores_pending (d : Done) : (commitStores d).pending = d.regs.pending := rfl
@[simp] theorem commitStores_busy (d : Done) : (commitStores d).busy = d.regs.busy := rfl
@[simp] theorem commitStores_err (d : Done) : (commitStores d).err = d.regs.err := rfl
@[simp] theorem commitStores_sticky (d : Done) : (commitStores d).sticky = d.regs.sticky := rfl
@[simp] theorem commitStores_code (d : Done) : (commitStores d).code = d.regs.code := rfl
@[simp] theorem commitStores_errA (d : Done) : (commitStores d).errA = d.regs.errA := rfl
@[simp] theorem commitStores_errB (d : Done) : (commitStores d).errB = d.regs.errB := rfl
@[simp] theorem commitStores_args (d : Done) : (commitStores d).args = d.regs.args := rfl
@[simp] theorem commitStores_res (d : Done) : (commitStores d).res = d.regs.res := rfl
@[simp] theorem commitStores_crcState (d : Done) : (commitStores d).crcState = d.regs.crcState := rfl
@[simp] theorem commitStores_width (d : Done) : (commitStores d).width = d.regs.width := rfl
@[simp] theorem commitStores_height (d : Done) : (commitStores d).height = d.regs.height := rfl
@[simp] theorem commitStores_hdrFields (d : Done) : (commitStores d).hdrFields = d.regs.hdrFields := rfl
@[simp] theorem commitStores_hdrInterlace (d : Done) : (commitStores d).hdrInterlace = d.regs.hdrInterlace := rfl
@[simp] theorem commitStores_kind (d : Done) : (commitStores d).kind = d.regs.kind := rfl
@[simp] theorem commitStores_stride (d : Done) : (commitStores d).stride = d.regs.stride := rfl
@[simp] theorem commitStores_spanCount (d : Done) : (commitStores d).spanCount = d.regs.spanCount := rfl
@[simp] theorem commitStores_imgLen (d : Done) : (commitStores d).imgLen = d.regs.imgLen := rfl
@[simp] theorem commitStores_cfgValid (d : Done) : (commitStores d).cfgValid = d.regs.cfgValid := rfl
@[simp] theorem commitStores_imgState (d : Done) : (commitStores d).imgState = d.regs.imgState := rfl
@[simp] theorem commitStores_capBits (d : Done) : (commitStores d).capBits = d.regs.capBits := rfl
@[simp] theorem commitStores_capBytes (d : Done) : (commitStores d).capBytes = d.regs.capBytes := rfl
@[simp] theorem commitStores_params (d : Done) : (commitStores d).params = d.regs.params := rfl
@[simp] theorem commitStores_mem (d : Done) : (commitStores d).mem = d.regs.mem.writeCells d.stores := rfl
@[simp] theorem commitStores_schedule (d : Done) : (commitStores d).schedule = d.regs.schedule := rfl
@[simp] theorem commitStores_reads (d : Done) : (commitStores d).reads = d.regs.reads := rfl
@[simp] theorem commitStores_draws (d : Done) : (commitStores d).draws = d.regs.draws := rfl

/-! ### countDraws, which draws only while a command is pending -/

@[simp] theorem countDraws_cmd (n : Nat) (s : State) : (countDraws n s).cmd = s.cmd := by
  unfold countDraws; split <;> rfl
@[simp] theorem countDraws_pending (n : Nat) (s : State) : (countDraws n s).pending = s.pending := by
  unfold countDraws; split <;> rfl
@[simp] theorem countDraws_busy (n : Nat) (s : State) : (countDraws n s).busy = s.busy := by
  unfold countDraws; split <;> rfl
@[simp] theorem countDraws_err (n : Nat) (s : State) : (countDraws n s).err = s.err := by
  unfold countDraws; split <;> rfl
@[simp] theorem countDraws_sticky (n : Nat) (s : State) : (countDraws n s).sticky = s.sticky := by
  unfold countDraws; split <;> rfl
@[simp] theorem countDraws_code (n : Nat) (s : State) : (countDraws n s).code = s.code := by
  unfold countDraws; split <;> rfl
@[simp] theorem countDraws_errA (n : Nat) (s : State) : (countDraws n s).errA = s.errA := by
  unfold countDraws; split <;> rfl
@[simp] theorem countDraws_errB (n : Nat) (s : State) : (countDraws n s).errB = s.errB := by
  unfold countDraws; split <;> rfl
@[simp] theorem countDraws_args (n : Nat) (s : State) : (countDraws n s).args = s.args := by
  unfold countDraws; split <;> rfl
@[simp] theorem countDraws_res (n : Nat) (s : State) : (countDraws n s).res = s.res := by
  unfold countDraws; split <;> rfl
@[simp] theorem countDraws_crcState (n : Nat) (s : State) : (countDraws n s).crcState = s.crcState := by
  unfold countDraws; split <;> rfl
@[simp] theorem countDraws_width (n : Nat) (s : State) : (countDraws n s).width = s.width := by
  unfold countDraws; split <;> rfl
@[simp] theorem countDraws_height (n : Nat) (s : State) : (countDraws n s).height = s.height := by
  unfold countDraws; split <;> rfl
@[simp] theorem countDraws_hdrFields (n : Nat) (s : State) : (countDraws n s).hdrFields = s.hdrFields := by
  unfold countDraws; split <;> rfl
@[simp] theorem countDraws_hdrInterlace (n : Nat) (s : State) : (countDraws n s).hdrInterlace = s.hdrInterlace := by
  unfold countDraws; split <;> rfl
@[simp] theorem countDraws_kind (n : Nat) (s : State) : (countDraws n s).kind = s.kind := by
  unfold countDraws; split <;> rfl
@[simp] theorem countDraws_stride (n : Nat) (s : State) : (countDraws n s).stride = s.stride := by
  unfold countDraws; split <;> rfl
@[simp] theorem countDraws_spanCount (n : Nat) (s : State) : (countDraws n s).spanCount = s.spanCount := by
  unfold countDraws; split <;> rfl
@[simp] theorem countDraws_imgLen (n : Nat) (s : State) : (countDraws n s).imgLen = s.imgLen := by
  unfold countDraws; split <;> rfl
@[simp] theorem countDraws_cfgValid (n : Nat) (s : State) : (countDraws n s).cfgValid = s.cfgValid := by
  unfold countDraws; split <;> rfl
@[simp] theorem countDraws_imgState (n : Nat) (s : State) : (countDraws n s).imgState = s.imgState := by
  unfold countDraws; split <;> rfl
@[simp] theorem countDraws_capBits (n : Nat) (s : State) : (countDraws n s).capBits = s.capBits := by
  unfold countDraws; split <;> rfl
@[simp] theorem countDraws_capBytes (n : Nat) (s : State) : (countDraws n s).capBytes = s.capBytes := by
  unfold countDraws; split <;> rfl
@[simp] theorem countDraws_params (n : Nat) (s : State) : (countDraws n s).params = s.params := by
  unfold countDraws; split <;> rfl
@[simp] theorem countDraws_mem (n : Nat) (s : State) : (countDraws n s).mem = s.mem := by
  unfold countDraws; split <;> rfl
@[simp] theorem countDraws_schedule (n : Nat) (s : State) : (countDraws n s).schedule = s.schedule := by
  unfold countDraws; split <;> rfl
@[simp] theorem countDraws_reads (n : Nat) (s : State) : (countDraws n s).reads = s.reads := by
  unfold countDraws; split <;> rfl
theorem countDraws_draws (n : Nat) (s : State) :
    (countDraws n s).draws = if s.pending = true then s.draws + n else s.draws := by
  unfold countDraws; split <;> rfl

end Sys2Proof.Machine
end

