-- ==== Sys2Proof/Laws/Ops.lean ====
section
/-! SUPPORT. What each shared operation and each command's rule can do, said once: when a check passes, what a completed
rule writes, and what step `finish` makes of it. -/

namespace Sys2Proof.Machine

/-! ### Checks -/

@[simp] theorem check_bind_eq_ok {α β : Type} {x : Check α} {f : α → Check β} {r : β} :
    (x >>= f) = .ok r ↔ ∃ a, x = .ok a ∧ f a = .ok r := by
  cases x with
  | error e => simp [bind, Except.bind]
  | ok a => simp [bind, Except.bind]

theorem check_bind_eq_error {α β : Type} {x : Check α} {f : α → Check β} {e : Stop} :
    (x >>= f) = .error e ↔ x = .error e ∨ ∃ a, x = .ok a ∧ f a = .error e := by
  cases x with
  | error e' => simp [bind, Except.bind]
  | ok a => simp [bind, Except.bind]

@[simp] theorem ok_bind {α β : Type} (a : α) (f : α → Check β) : ((.ok a : Check α) >>= f) = f a := rfl

@[simp] theorem error_bind {α β : Type} (e : Stop) (f : α → Check β) :
    ((.error e : Check α) >>= f) = .error e := rfl

@[simp] theorem raiseIf_eq_ok {bad : Prop} [Decidable bad] {e : ErrorCode} {a b : Nat} {u : Unit} :
    raiseIf bad e a b = .ok u ↔ ¬bad := by
  unfold raiseIf; split <;> simp_all

theorem raiseIf_of {bad : Prop} [Decidable bad] (h : bad) (e : ErrorCode) (a b : Nat) :
    raiseIf bad e a b = .error (.raise e a b) := if_pos h

theorem raiseIf_of_not {bad : Prop} [Decidable bad] (h : ¬bad) (e : ErrorCode) (a b : Nat) :
    raiseIf bad e a b = .ok () := if_neg h

@[simp] theorem raiseIf_ne_uninit {bad : Prop} [Decidable bad] {e : ErrorCode} {a b x : Nat} :
    raiseIf bad e a b = .error (.uninit x) ↔ False := by
  unfold raiseIf; split <;> simp

@[simp] theorem orRaise_eq_ok {α : Type} {v : Option α} {e : ErrorCode} {a b : Nat} {x : α} :
    orRaise v e a b = .ok x ↔ v = some x := by
  cases v <;> simp [orRaise]

@[simp] theorem orRaise_ne_uninit {α : Type} {v : Option α} {e : ErrorCode} {a b x : Nat} :
    orRaise v e a b = .error (.uninit x) ↔ False := by
  cases v <;> simp [orRaise]

@[simp] theorem bufCheck_eq_ok {s : State} {off n : Nat} {u : Unit} :
    bufCheck s off n = .ok u ↔ off + n ≤ s.params.bufBytes := by
  simp [bufCheck]

@[simp] theorem bufCheck_ne_uninit {s : State} {off n x : Nat} :
    bufCheck s off n = .error (.uninit x) ↔ False := by
  simp [bufCheck]

@[simp] theorem memRead_eq_ok {s : State} {a n : Nat} {bs : List Byte} :
    memRead s a n = .ok bs ↔ s.mem.readBytes a n = some bs := by
  unfold memRead; split <;> simp_all

@[simp] theorem memRead_eq_uninit {s : State} {a n x : Nat} :
    memRead s a n = .error (.uninit x) ↔ s.mem.readBytes a n = none ∧ x = s.mem.firstGap a n := by
  unfold memRead
  cases s.mem.readBytes a n <;> simp [eq_comm]

@[simp] theorem memRead_ne_raise {s : State} {a n : Nat} {e : ErrorCode} {x y : Nat} :
    memRead s a n = .error (.raise e x y) ↔ False := by
  unfold memRead; split <;> simp

@[simp] theorem needCfg_eq_ok {s : State} {u : Unit} : needCfg s = .ok u ↔ s.cfgValid = true := by
  simp [needCfg]

@[simp] theorem needCfg_ne_uninit {s : State} {x : Nat} : needCfg s = .error (.uninit x) ↔ False := by
  simp [needCfg]

@[simp] theorem needImage_eq_ok {s : State} {u : Unit} : needImage s = .ok u ↔ s.imgState ≠ .empty := by
  simp [needImage]

@[simp] theorem needImage_ne_uninit {s : State} {x : Nat} : needImage s = .error (.uninit x) ↔ False := by
  simp [needImage]

@[simp] theorem needRaw_eq_ok {s : State} {u : Unit} : needRaw s = .ok u ↔ s.imgState = .raw := by
  cases h : s.imgState <;> simp [needRaw, h]

@[simp] theorem needRaw_ne_uninit {s : State} {x : Nat} : needRaw s = .error (.uninit x) ↔ False := by
  simp [needRaw, check_bind_eq_error]

@[simp] theorem doneRegs_eq_ok {s : State} {d : Done} : doneRegs s = .ok d ↔ d = ⟨s, []⟩ := by
  simp [doneRegs, eq_comm]

@[simp] theorem doneRegs_ne_error {s : State} {e : Stop} : doneRegs s = .error e ↔ False := by
  simp [doneRegs]

@[simp] theorem doneStores_eq_ok {s : State} {cs : List Host.Cell} {d : Done} :
    doneStores s cs = .ok d ↔ d = ⟨s, cs⟩ := by
  simp [doneStores, eq_comm]

@[simp] theorem doneStores_ne_error {s : State} {cs : List Host.Cell} {e : Stop} :
    doneStores s cs = .error e ↔ False := by
  simp [doneStores]

/-! ### The step a rule makes -/

/-- A completed rule that stores nothing leaves its register writes. -/
@[simp] theorem commitStores_no_stores (s : State) : commitStores ⟨s, []⟩ = s := rfl


/-- Every command's meaning is the step its rule makes. -/
theorem exec_eq_finish (i : Instr) (s : State) : exec i s = finish s (endOf i s) := by
  cases i <;> rfl

/-- A next state is a completion or an error, and nothing else. -/
theorem finish_eq_next {s t : State} {c : Check Done} :
    finish s c = .next t ↔
      (∃ d, c = .ok d ∧ t = completeCommand (commitStores d)) ∨
        ∃ e a b, c = .error (.raise e a b) ∧ t = raiseError e a b s := by
  match c with
  | .ok d => simp [finish, eq_comm]
  | .error (.raise e a b) =>
    simp only [finish, Host.Outcome.next.injEq, Except.error.injEq, Stop.raise.injEq]
    constructor
    · rintro rfl; exact .inr ⟨e, a, b, ⟨rfl, rfl, rfl⟩, rfl⟩
    · rintro (⟨d, h, -⟩ | ⟨e', a', b', ⟨rfl, rfl, rfl⟩, rfl⟩)
      · cases h
      · rfl
  | .error (.uninit a) => simp [finish]

/-- A fault is a read of a byte never written. -/
theorem finish_eq_fault {s : State} {c : Check Done} {f : Fault} :
    finish s c = .fault f ↔ ∃ a, c = .error (.uninit a) ∧ f = .uninitRead a := by
  match c with
  | .ok d => simp [finish]
  | .error (.raise e a b) => simp [finish]
  | .error (.uninit a) => simp [finish, eq_comm]

/-- No command's rule is refused. -/
theorem finish_ne_refused {s : State} {c : Check Done} {r : Refusal} : finish s c ≠ .refused r := by
  match c with
  | .ok d => simp [finish]
  | .error (.raise e a b) => simp [finish]
  | .error (.uninit a) => simp [finish]

/-! ### What the rules of the CRC unit complete with -/

theorem endCrcUpdate_eq_ok {s : State} {d : Done} :
    endCrcUpdate s = .ok d ↔
      s.arg 0 + s.arg 1 ≤ s.params.bufBytes ∧
        ∃ bs, s.mem.readBytes (bufBase + s.arg 0) (s.arg 1) = some bs ∧
          d = ⟨{ s with crcState := crcUpdate s.crcState bs }, []⟩ := by
  simp [endCrcUpdate]

theorem endCrcBlock_eq_ok {s : State} {d : Done} :
    endCrcBlock s = .ok d ↔
      s.arg 0 + s.arg 1 ≤ s.params.bufBytes ∧
        ∃ bs, s.mem.readBytes (bufBase + s.arg 0) (s.arg 1) = some bs ∧
          d = ⟨s.setRes 0 (crc32 bs).toNat, []⟩ := by
  simp [endCrcBlock]

theorem endSigCheck_eq_ok {s : State} {d : Done} :
    endSigCheck s = .ok d ↔
      s.arg 0 + s.arg 1 ≤ s.params.bufBytes ∧ 8 ≤ s.arg 1 ∧
        s.mem.readBytes (bufBase + s.arg 0) 8 = some pngSignature ∧ d = ⟨s.setRes 0 (s.arg 0 + 8), []⟩ := by
  simp [endSigCheck]

theorem endChunkCheck_eq_ok {v : Bool} {s : State} {d : Done} :
    endChunkCheck v s = .ok d ↔
      s.arg 0 + s.arg 1 ≤ s.params.bufBytes ∧ 8 ≤ s.arg 1 ∧
        ∃ h, s.mem.readBytes (bufBase + s.arg 0) 8 = some h ∧ be32 h ≤ maxChunkLen ∧ 12 + be32 h ≤ s.arg 1 ∧
          ¬(s.params.tagCheck = true ∧ tagOk (h.drop 4) = false) ∧
            ∃ data, s.mem.readBytes (bufBase + s.arg 0 + 8) (be32 h) = some data ∧
              ∃ cb, s.mem.readBytes (bufBase + s.arg 0 + 8 + be32 h) 4 = some cb ∧
                ¬(v = true ∧ be32 cb ≠ (crc32 (h.drop 4 ++ data)).toNat) ∧
                  d = ⟨((((((s.setRes 0 (be32 h)).setRes 1 (be32 (h.drop 4))).setRes 2 (be32 cb)).setRes 3
                    (crc32 (h.drop 4 ++ data)).toNat).setRes 4 (s.arg 0 + 8)).setRes 5
                    (s.arg 0 + 12 + be32 h)).setRes 6
                    (if be32 cb = (crc32 (h.drop 4 ++ data)).toNat then 1 else 0), []⟩ := by
  simp only [endChunkCheck, checkTag, check_bind_eq_ok, bufCheck_eq_ok, raiseIf_eq_ok, memRead_eq_ok, doneRegs_eq_ok,
    exists_const, not_lt, gt_iff_lt]

theorem endChunkEmit_eq_ok {s : State} {d : Done} :
    endChunkEmit s = .ok d ↔
      s.arg 1 ≤ maxChunkLen ∧ ¬(s.params.tagCheck = true ∧ tagOk (toBe32 (s.arg 2)) = false) ∧
        s.arg 0 + s.arg 1 ≤ s.params.bufBytes ∧ s.arg 3 + (12 + s.arg 1) ≤ s.params.bufBytes ∧
          ∃ data, s.mem.readBytes (bufBase + s.arg 0) (s.arg 1) = some data ∧
            d = ⟨(s.setRes 0 (crc32 (toBe32 (s.arg 2) ++ data)).toNat).setRes 1 (s.arg 3 + 12 + s.arg 1),
              cellsAt (bufBase + s.arg 3) (chunkFrame (toBe32 (s.arg 2)) data)⟩ := by
  simp only [endChunkEmit, checkTag, check_bind_eq_ok, bufCheck_eq_ok, raiseIf_eq_ok, memRead_eq_ok,
    doneStores_eq_ok, exists_const, not_lt, gt_iff_lt]

/-! ### What the rules of the pixel unit complete with -/

theorem endHdrLoad_eq_ok {s : State} {d : Done} :
    endHdrLoad s = .ok d ↔
      s.arg 0 + 13 ≤ s.params.bufBytes ∧
        ∃ hd, s.mem.readBytes (bufBase + s.arg 0) 13 = some hd ∧ byteAt hd 9 ∈ colorTypes ∧
          ∃ k, kindOf (byteAt hd 9) (byteAt hd 8) = some k ∧ byteAt hd 10 = 0 ∧ byteAt hd 11 = 0 ∧
            byteAt hd 12 = 0 ∧ ¬(be32 hd = 0 ∨ be32 (hd.drop 4) = 0) ∧
              be32 (hd.drop 4) * (1 + strideOf (kindRow k) (be32 hd)) ≤ s.params.imgBytes ∧
                d = ⟨configure k (be32 hd) (be32 (hd.drop 4)) (byteAt hd 8) (byteAt hd 9) (byteAt hd 10) (byteAt hd 11)
                  (byteAt hd 12) s, []⟩ := by
  simp only [endHdrLoad, check_bind_eq_ok, bufCheck_eq_ok, raiseIf_eq_ok, orRaise_eq_ok, memRead_eq_ok,
    doneRegs_eq_ok, exists_const, not_lt, gt_iff_lt, not_not, ne_eq]

@[simp] theorem pixelBounds_eq_ok {s : State} {y sp i : Nat} {u : Unit} :
    pixelBounds s y sp i = .ok u ↔ y < s.height.toNat ∧ sp < s.spanCount.toNat ∧ i < s.kindRow.sps := by
  simp [pixelBounds]

@[simp] theorem pixelBounds_ne_uninit {s : State} {y sp i x : Nat} :
    pixelBounds s y sp i = .error (.uninit x) ↔ False := by
  simp [pixelBounds, check_bind_eq_error]

theorem checkSamples_eq_ok {max : Nat} {vs : List Nat} {u : Unit} :
    checkSamples max vs = .ok u ↔ ∀ v ∈ vs, v ≤ max := by
  induction vs with
  | nil => simp [checkSamples]
  | cons v vs ih => simp [checkSamples, ih]

@[simp] theorem checkSamples_ne_uninit {max x : Nat} {vs : List Nat} :
    checkSamples max vs = .error (.uninit x) ↔ False := by
  induction vs with
  | nil => simp [checkSamples]
  | cons v vs ih => simp [checkSamples, check_bind_eq_error, ih]

theorem endPixRead_eq_ok {s : State} {d : Done} :
    endPixRead s = .ok d ↔
      s.cfgValid = true ∧ s.imgState = .raw ∧
        (s.arg 0 < s.height.toNat ∧ s.arg 1 < s.spanCount.toNat ∧ s.arg 2 < s.kindRow.sps) ∧
          ∃ sb, s.mem.readBytes (spanAddr s (s.arg 0) (s.arg 1)) s.kindRow.spanBytes = some sb ∧
            d = ⟨((s.setRes 0 (packPair ((spanRead s.kindRow sb (s.arg 2)).getD 0 0)
              ((spanRead s.kindRow sb (s.arg 2)).getD 1 0)).toNat).setRes 1
                (packPair ((spanRead s.kindRow sb (s.arg 2)).getD 2 0)
                  ((spanRead s.kindRow sb (s.arg 2)).getD 3 0)).toNat).setRes 2 s.kindRow.code, []⟩ := by
  simp only [endPixRead, check_bind_eq_ok, needCfg_eq_ok, needRaw_eq_ok, pixelBounds_eq_ok, memRead_eq_ok,
    doneRegs_eq_ok, exists_const]

theorem endPixWrite_eq_ok {s : State} {d : Done} :
    endPixWrite s = .ok d ↔
      s.cfgValid = true ∧ s.imgState = .raw ∧ s.arg 3 ≤ 14 ∧ s.arg 3 = s.kindRow.code ∧
        (s.arg 0 < s.height.toNat ∧ s.arg 1 < s.spanCount.toNat ∧ s.arg 2 < s.kindRow.sps) ∧
          (∀ v ∈ (argChannels s).take s.kindRow.chans, v ≤ sampleMax s.kindRow) ∧
            ∃ sb, s.mem.readBytes (spanAddr s (s.arg 0) (s.arg 1)) s.kindRow.spanBytes = some sb ∧
              d = ⟨s, cellsAt (spanAddr s (s.arg 0) (s.arg 1))
                (spanWrite s.kindRow sb (s.arg 2) (argChannels s))⟩ := by
  simp only [endPixWrite, check_bind_eq_ok, needCfg_eq_ok, needRaw_eq_ok, raiseIf_eq_ok, pixelBounds_eq_ok,
    checkSamples_eq_ok, memRead_eq_ok, doneStores_eq_ok, exists_const, not_lt, gt_iff_lt, not_not, ne_eq]

theorem endImgImport_eq_ok {s : State} {d : Done} :
    endImgImport s = .ok d ↔
      s.cfgValid = true ∧ s.arg 1 ≠ 0 ∧ s.arg 0 + s.arg 1 ≤ s.params.bufBytes ∧ s.arg 1 = s.imgLen.toNat ∧
        ∃ bs, s.mem.readBytes (bufBase + s.arg 0) (s.arg 1) = some bs ∧
          d = ⟨{ s with imgState := .filtered }.setRes 0 s.imgLen.toNat, cellsAt imgBase bs⟩ := by
  simp only [endImgImport, check_bind_eq_ok, needCfg_eq_ok, raiseIf_eq_ok, bufCheck_eq_ok, memRead_eq_ok,
    doneStores_eq_ok, exists_const, not_not, ne_eq]

theorem endImgExport_eq_ok {s : State} {d : Done} :
    endImgExport s = .ok d ↔
      s.cfgValid = true ∧ s.imgState ≠ .empty ∧ s.arg 0 + s.imgLen.toNat ≤ s.params.bufBytes ∧
        ∃ bs, s.mem.readBytes imgBase s.imgLen.toNat = some bs ∧
          d = ⟨(s.setRes 0 s.imgLen.toNat).setRes 1 (s.arg 0 + s.imgLen.toNat), cellsAt (bufBase + s.arg 0) bs⟩ := by
  simp only [endImgExport, imageBytes, check_bind_eq_ok, needCfg_eq_ok, needImage_eq_ok, bufCheck_eq_ok,
    memRead_eq_ok, doneStores_eq_ok, exists_const]

theorem endImgZero_eq_ok {s : State} {d : Done} :
    endImgZero s = .ok d ↔
      s.cfgValid = true ∧ d = ⟨{ s with imgState := .raw }, cellsAt imgBase (zeroBytes s.imgLen.toNat)⟩ := by
  simp only [endImgZero, check_bind_eq_ok, needCfg_eq_ok, doneStores_eq_ok, exists_const]

end Sys2Proof.Machine
end

