-- ==== Sys2Proof/Laws/Filter.lean ====
section
/-! SUPPORT. The laws of the filter pipeline: lengths, what the line functions do byte by byte, and what the loops over
the image's lines write. -/

namespace Sys2Proof.Machine

/-! ### Filters and tags -/

@[simp] theorem filterOfTag_filterTag (t : FilterType) : filterOfTag (filterTag t) = some t := by
  cases t <;> rfl

theorem filterTag_le (t : FilterType) : filterTag t ≤ 4 := by
  cases t <;> decide

theorem filterTag_inj {t u : FilterType} (h : filterTag t = filterTag u) : t = u := by
  cases t <;> cases u <;> simp [filterTag] at h ⊢

theorem filterOfTag_eq_some {n : Nat} {t : FilterType} : filterOfTag n = some t ↔ filterTag t = n := by
  constructor
  · intro h
    simpa using List.find?_some h
  · rintro rfl
    exact filterOfTag_filterTag t

theorem filterOfTag_eq_none {n : Nat} : filterOfTag n = none ↔ 4 < n := by
  simp only [filterOfTag, List.find?_eq_none, decide_eq_true_eq]
  constructor
  · intro h
    have h0 := h .none (by decide)
    have h1 := h .sub (by decide)
    have h2 := h .up (by decide)
    have h3 := h .average (by decide)
    have h4 := h .paeth (by decide)
    simp only [filterTag] at h0 h1 h2 h3 h4
    omega
  · intro h t _
    have := filterTag_le t
    omega

theorem filterOfTag_of_le {n : Nat} (h : n ≤ 4) : ∃ t, filterOfTag n = some t ∧ filterTag t = n := by
  cases hn : filterOfTag n with
  | none => have := filterOfTag_eq_none.mp hn; omega
  | some t => exact ⟨t, rfl, filterOfTag_eq_some.mp hn⟩

/-! ### Lengths -/

@[simp] theorem length_lineBytes (tag : Nat) (data : List Byte) : (lineBytes tag data).length = 1 + data.length := by
  simp [lineBytes, Nat.add_comm]

@[simp] theorem length_filterLine (t : FilterType) (d : Nat) (r : List Byte) (u : Option (List Byte)) :
    (filterLine t d r u).length = r.length := by
  simp [filterLine]

theorem length_reconFrom (t : FilterType) (d : Nat) (u : Option (List Byte)) (out xs : List Byte) :
    (reconFrom t d u out xs).length = out.length + xs.length := by
  induction xs generalizing out with
  | nil => rfl
  | cons x xs ih => simp [reconFrom, ih]; omega

@[simp] theorem length_reconLine (t : FilterType) (d : Nat) (x : List Byte) (u : Option (List Byte)) :
    (reconLine t d x u).length = x.length := by
  simp [reconLine, length_reconFrom]

@[simp] theorem length_padClear (r : KindRow) (w : Nat) (line : List Byte) : (padClear r w line).length = line.length := by
  unfold padClear
  cases h : line.getLast? with
  | none => rfl
  | some d =>
    have : line ≠ [] := by rintro rfl; simp at h
    have := List.length_pos_iff.mpr this
    simp; omega

@[simp] theorem length_padOnEncode (s : State) (r : KindRow) (w : Nat) (line : List Byte) :
    (padOnEncode s r w line).length = line.length := by
  unfold padOnEncode; split <;> simp

/-! ### Reconstruction undoes filtering, byte by byte -/

theorem leftByte_append {d : Nat} (hd : 1 ≤ d) (v w : List Byte) (k : Nat) (hk : k ≤ v.length) :
    leftByte d (v ++ w) k = leftByte d v k := by
  unfold leftByte
  split
  · rw [List.getD_append _ _ _ _ (by omega)]
  · rfl

/-- The predictor of a byte looks only at earlier bytes of its own line. -/
theorem predAt_append {d : Nat} (hd : 1 ≤ d) (t : FilterType) (v w : List Byte) (u : Option (List Byte)) (k : Nat)
    (hk : k ≤ v.length) : predAt t d (v ++ w) u k = predAt t d v u k := by
  simp only [predAt, leftByte_append hd v w k hk]

/-- The bytes of a filtered line from byte `k` on. -/
theorem drop_filterLine {t : FilterType} {d : Nat} {r : List Byte} {u : Option (List Byte)} {k : Nat} (hk : k < r.length) :
    (filterLine t d r u).drop k = (r[k] - predAt t d r u k) :: (filterLine t d r u).drop (k + 1) := by
  rw [List.drop_eq_getElem_cons (by simpa using hk)]
  simp [filterLine, hk]

/-! ### What the checks of the line commands pass -/

theorem lineChecks_eq_ok {p : Bool} {s : State} {shape : LineShape} :
    lineChecks p s = .ok shape ↔
      ∃ kc, kindOfCode (currentKindCode s) = some kc ∧
        ∃ kp, (p = true ∧ kindOfCode (previousKindCode s) = some kp ∨ p = false ∧ kp = kc) ∧
          ¬(s.arg 4 = 0 ∨ p = true ∧ s.arg 5 = 0) ∧
          ¬(p = true ∧ (kp ≠ kc ∨ spanCountOf (kindRow kp) (s.arg 5) ≠ spanCountOf (kindRow kc) (s.arg 4))) ∧
          s.arg 0 + lineLen (kindRow kc) (s.arg 4) ≤ s.params.bufBytes ∧
          (p = true → s.arg 1 + lineLen (kindRow kc) (s.arg 4) ≤ s.params.bufBytes) ∧
          s.arg 2 + lineLen (kindRow kc) (s.arg 4) ≤ s.params.bufBytes ∧
          shape = ⟨kindRow kc, kindRow kp, strideOf (kindRow kc) (s.arg 4)⟩ := by
  cases p <;> simp [lineChecks, @eq_comm _ shape]

theorem lineChecks_ne_uninit {p : Bool} {s : State} {x : Nat} : lineChecks p s ≠ .error (.uninit x) := by
  intro h
  cases p <;> simp [lineChecks, check_bind_eq_error] at h

theorem previousData_eq_ok {p : Bool} {s : State} {n : Nat} {u : Option (List Byte)} :
    previousData p s n = .ok u ↔
      (p = true ∧ ∃ bs, s.mem.readBytes (bufBase + s.arg 1 + 1) n = some bs ∧ u = some bs) ∨ (p = false ∧ u = none) := by
  cases p <;> simp [previousData, @eq_comm _ u]

/-! ### What the rules complete with -/

theorem endLineRecon_eq_ok {p : Bool} {s : State} {d : Done} :
    endLineRecon p s = .ok d ↔
      ∃ shape, lineChecks p s = .ok shape ∧
        ∃ line, s.mem.readBytes (bufBase + s.arg 0) (1 + shape.stride) = some line ∧
          ∃ t, filterOfTag (byteAt line 0) = some t ∧
            ∃ u, previousData p s shape.stride = .ok u ∧
              d = ⟨s.setRes 0 (1 + shape.stride),
                cellsAt (bufBase + s.arg 2) (lineBytes 0 (reconLine t shape.cur.spanBytes (line.drop 1) u))⟩ := by
  simp only [endLineRecon, check_bind_eq_ok, memRead_eq_ok, orRaise_eq_ok, doneStores_eq_ok]

theorem endLineFilter_eq_ok {sel : Nat} {p : Bool} {s : State} {d : Done} :
    endLineFilter sel p s = .ok d ↔
      sel ≤ 5 ∧ ∃ shape, lineChecks p s = .ok shape ∧
        ∃ raw, s.mem.readBytes (bufBase + s.arg 0 + 1) shape.stride = some raw ∧
          ∃ rawPrev, previousData p s shape.stride = .ok rawPrev ∧
            ∃ r u t, r = padOnEncode s shape.cur (s.arg 4) raw ∧
              u = rawPrev.map (padOnEncode s shape.prev (s.arg 5)) ∧
              t = filterOfSel sel shape.cur.spanBytes r u ∧
              d = ⟨((((((s.setRes 0 (filterTag t)).setRes 1 (scoreOf shape.cur.spanBytes r u .none)).setRes 2
                (scoreOf shape.cur.spanBytes r u .sub)).setRes 3 (scoreOf shape.cur.spanBytes r u .up)).setRes 4
                (scoreOf shape.cur.spanBytes r u .average)).setRes 5 (scoreOf shape.cur.spanBytes r u .paeth)).setRes 6
                (1 + shape.stride),
                cellsAt (bufBase + s.arg 2) (lineBytes (filterTag t) (filterLine t shape.cur.spanBytes r u))⟩ := by
  simp only [endLineFilter, check_bind_eq_ok, raiseIf_eq_ok, memRead_eq_ok, doneStores_eq_ok, exists_const,
    not_lt, gt_iff_lt]
  simp

theorem endImgRecon_eq_ok {s : State} {d : Done} :
    endImgRecon s = .ok d ↔
      s.cfgValid = true ∧ s.imgState ≠ .empty ∧ checkTags s (List.range s.height.toNat) = .ok () ∧
        ∃ cells, reconRows s (List.range s.height.toNat) none = .ok cells ∧
          d = ⟨{ s with imgState := .raw }, cells⟩ := by
  simp only [endImgRecon, check_bind_eq_ok, needCfg_eq_ok, needImage_eq_ok, doneStores_eq_ok, exists_const]
  exact ⟨fun ⟨a, b, _, c, d⟩ => ⟨a, b, c, d⟩, fun ⟨a, b, c, d⟩ => ⟨a, b, (), c, d⟩⟩

theorem endImgFilter_eq_ok {sel : Nat} {s : State} {d : Done} :
    endImgFilter sel s = .ok d ↔
      sel ≤ 5 ∧ s.cfgValid = true ∧ s.imgState = .raw ∧
        ∃ cells, filterRows s sel (List.range s.height.toNat) none = .ok cells ∧
          d = ⟨{ s with imgState := .filtered }, cells⟩ := by
  simp only [endImgFilter, check_bind_eq_ok, raiseIf_eq_ok, needCfg_eq_ok, needRaw_eq_ok, doneStores_eq_ok,
    exists_const, not_lt, gt_iff_lt]

/-! ### The loops over the image's lines -/

theorem rowOff_succ (s : State) (y : Nat) : rowOff s (y + 1) = rowOff s y + (1 + s.stride.toNat) := by
  simp [rowOff, Nat.succ_mul]

/-- Lines of equal length written one after another from `a` on: reading line `i` gives it back. -/
theorem readBytes_rows {m : Memory} {a n : Nat} {rows : List (List Byte)} (hl : ∀ r ∈ rows, r.length = n) {i : Nat}
    (hi : i < rows.length) :
    (m.writeCells (cellsAt a rows.flatten)).readBytes (a + i * n) n = some rows[i] := by
  induction rows generalizing a m i with
  | nil => simp at hi
  | cons r rows ih =>
    have hr : r.length = n := hl r (by simp)
    rw [List.flatten_cons, cellsAt_append, Memory.writeCells_append]
    cases i with
    | zero =>
      rw [Memory.readBytes_congr (m' := m.writeCells (cellsAt a r))]
      · subst hr; simpa using Memory.readBytes_writeCells_cellsAt m a r
      · intro j hj
        exact Memory.read_writeCells_cellsAt_out _ (by omega)
    | succ i =>
      have := ih (m := m.writeCells (cellsAt a r)) (a := a + r.length) (i := i)
        (fun r' h => hl r' (List.mem_cons_of_mem _ h)) (by simpa using hi)
      rw [hr] at this ⊢
      rw [Nat.succ_mul, show a + (i * n + n) = a + n + i * n by omega]
      simpa using this

theorem length_flatten_rows {n : Nat} {rows : List (List Byte)} (hl : ∀ r ∈ rows, r.length = n) :
    rows.flatten.length = rows.length * n := by
  induction rows with
  | nil => simp
  | cons r rows ih =>
    rw [List.flatten_cons, List.length_append, hl r (by simp), ih fun r' h => hl r' (List.mem_cons_of_mem _ h)]
    simp [Nat.succ_mul]; omega

/-- IMG_RECON's loop writes whole lines one after another: each is tag 0 and the reconstruction over the line before it. -/
theorem reconRows_eq_ok {s : State} {y0 n : Nat} {prev : Option (List Byte)} {cells : List Host.Cell}
    (h : reconRows s (List.range' y0 n) prev = .ok cells) :
    ∃ rows : List (List Byte), rows.length = n ∧ (∀ r ∈ rows, r.length = 1 + s.stride.toNat) ∧
      cells = cellsAt (imgBase + rowOff s y0) rows.flatten ∧
      ∀ i (hi : i < rows.length), ∃ line t,
        s.mem.readBytes (imgBase + rowOff s (y0 + i)) (1 + s.stride.toNat) = some line ∧
        filterTag t = byteAt line 0 ∧
        rows[i] = lineBytes 0 (reconLine t s.kindRow.spanBytes (line.drop 1)
          (if i = 0 then prev else rows[i - 1]?.map (List.drop 1))) := by
  induction n generalizing y0 prev cells with
  | zero =>
    simp only [List.range'_zero, reconRows, Except.ok.injEq] at h
    exact ⟨[], rfl, by simp, by simp [← h, cellsAt], by simp⟩
  | succ n ih =>
    simp only [List.range'_succ, reconRows, check_bind_eq_ok, memRead_eq_ok, orRaise_eq_ok,
      filterOfTag_eq_some, Except.ok.injEq] at h
    obtain ⟨line, hline, t, ht, rest, hrest, rfl⟩ := h
    obtain ⟨rows, hlen, hall, rfl, hrow⟩ := ih hrest
    have hl := Memory.length_of_readBytes hline
    have hhead : (lineBytes 0 (reconLine t s.kindRow.spanBytes (line.drop 1) prev)).length = 1 + s.stride.toNat := by
      simp [hl]
    refine ⟨lineBytes 0 (reconLine t s.kindRow.spanBytes (line.drop 1) prev) :: rows, by simp [hlen], ?_, ?_, ?_⟩
    · intro r hr
      rcases List.mem_cons.mp hr with rfl | hr
      · exact hhead
      · exact hall r hr
    · rw [List.flatten_cons, cellsAt_append, hhead, rowOff_succ, Nat.add_assoc imgBase]
    · intro i hi
      cases i with
      | zero => exact ⟨line, t, by simpa using hline, ht, by simp⟩
      | succ i =>
        obtain ⟨line', t', h1, h2, h3⟩ := hrow i (by simpa using hi)
        refine ⟨line', t', by rw [show y0 + (i + 1) = y0 + 1 + i by omega]; exact h1, h2, ?_⟩
        simp only [List.getElem_cons_succ, h3]
        cases i <;> simp [lineBytes]

/-- IMG_FILTER's loop writes whole lines one after another: each is its tag and the raw line filtered over the raw line
before it. -/
theorem filterRows_eq_ok {s : State} {sel y0 n : Nat} {prev : Option (List Byte)} {cells : List Host.Cell}
    (h : filterRows s sel (List.range' y0 n) prev = .ok cells) :
    ∃ raws : List (List Byte), raws.length = n ∧
      (∀ i (hi : i < raws.length), rawRow s (y0 + i) = .ok raws[i]) ∧
      ∃ rows : List (List Byte), rows.length = n ∧ (∀ r ∈ rows, r.length = 1 + s.stride.toNat) ∧
        cells = cellsAt (imgBase + rowOff s y0) rows.flatten ∧
        ∀ i (hi : i < rows.length) (hi' : i < raws.length),
          rows[i] =
            let u := if i = 0 then prev else raws[i - 1]?
            let t := filterOfSel sel s.kindRow.spanBytes raws[i] u
            lineBytes (filterTag t) (filterLine t s.kindRow.spanBytes raws[i] u) := by
  induction n generalizing y0 prev cells with
  | zero =>
    simp only [List.range'_zero, filterRows, Except.ok.injEq] at h
    exact ⟨[], rfl, by simp, [], rfl, by simp, by simp [← h, cellsAt], by simp⟩
  | succ n ih =>
    simp only [List.range'_succ, filterRows, check_bind_eq_ok, Except.ok.injEq] at h
    obtain ⟨r, hr, rest, hrest, rfl⟩ := h
    obtain ⟨raws, hrl, hraw, rows, hlen, hall, rfl, hrow⟩ := ih hrest
    have hl : r.length = s.stride.toNat := by
      simp only [rawRow, check_bind_eq_ok, memRead_eq_ok, Except.ok.injEq] at hr
      obtain ⟨bs, hbs, rfl⟩ := hr
      simp [Memory.length_of_readBytes hbs]
    let t := filterOfSel sel s.kindRow.spanBytes r prev
    have hhead : (lineBytes (filterTag t) (filterLine t s.kindRow.spanBytes r prev)).length = 1 + s.stride.toNat := by
      simp [hl]
    refine ⟨r :: raws, by simp [hrl], ?_, lineBytes (filterTag t) (filterLine t s.kindRow.spanBytes r prev) :: rows,
      by simp [hlen], ?_, ?_, ?_⟩
    · intro i hi
      cases i with
      | zero => simpa using hr
      | succ i =>
        rw [show y0 + (i + 1) = y0 + 1 + i by omega]
        exact hraw i (by simpa using hi)
    · intro r' hr'
      rcases List.mem_cons.mp hr' with rfl | hr'
      · exact hhead
      · exact hall r' hr'
    · rw [List.flatten_cons, cellsAt_append, hhead, rowOff_succ, Nat.add_assoc imgBase]
    · intro i hi hi'
      cases i with
      | zero => rfl
      | succ i =>
        have := hrow i (by simpa using hi) (by simpa using hi')
        simp only [List.getElem_cons_succ, this]
        cases i <;> simp

/-- The loop completes when every line can be read and its tag names a filter. -/
theorem reconRows_isOk {s : State} {ys : List Nat} {prev : Option (List Byte)}
    (h : ∀ y ∈ ys, ∃ line, s.mem.readBytes (imgBase + rowOff s y) (1 + s.stride.toNat) = some line ∧ byteAt line 0 ≤ 4) :
    ∃ cells, reconRows s ys prev = .ok cells := by
  induction ys generalizing prev with
  | nil => exact ⟨[], rfl⟩
  | cons y ys ih =>
    obtain ⟨line, hl, ht⟩ := h y (by simp)
    obtain ⟨t, ht, -⟩ := filterOfTag_of_le ht
    obtain ⟨cells, hc⟩ := ih (prev := some (reconLine t s.kindRow.spanBytes (line.drop 1) prev))
      fun y' h' => h y' (List.mem_cons_of_mem _ h')
    refine ⟨_, check_bind_eq_ok.mpr ⟨line, memRead_eq_ok.mpr hl, check_bind_eq_ok.mpr ⟨t, orRaise_eq_ok.mpr ht,
      check_bind_eq_ok.mpr ⟨cells, hc, rfl⟩⟩⟩⟩

/-- The loop completes when every line can be read. -/
theorem filterRows_isOk {s : State} {sel : Nat} {ys : List Nat} {prev : Option (List Byte)}
    (h : ∀ y ∈ ys, ∃ bs, s.mem.readBytes (imgBase + rowOff s y + 1) s.stride.toNat = some bs) :
    ∃ cells, filterRows s sel ys prev = .ok cells := by
  induction ys generalizing prev with
  | nil => exact ⟨[], rfl⟩
  | cons y ys ih =>
    obtain ⟨bs, hb⟩ := h y (by simp)
    obtain ⟨cells, hc⟩ := ih (prev := some (padOnEncode s s.kindRow s.width.toNat bs))
      fun y' h' => h y' (List.mem_cons_of_mem _ h')
    exact ⟨_, check_bind_eq_ok.mpr ⟨_, check_bind_eq_ok.mpr ⟨bs, memRead_eq_ok.mpr hb, rfl⟩,
      check_bind_eq_ok.mpr ⟨cells, hc, rfl⟩⟩⟩

theorem checkTags_eq_ok {s : State} {ys : List Nat} {u : Unit} :
    checkTags s ys = .ok u ↔ ∀ y ∈ ys, ∃ b, s.mem.read (imgBase + rowOff s y) = some b ∧ b.toNat ≤ 4 := by
  induction ys with
  | nil => simp [checkTags]
  | cons y ys ih =>
    simp only [checkTags, check_bind_eq_ok, memRead_eq_ok, raiseIf_eq_ok, exists_const, ih, List.forall_mem_cons]
    constructor
    · rintro ⟨tag, h1, h2, h3⟩
      obtain ⟨hl, hr⟩ := Memory.readBytes_eq_some.mp h1
      refine ⟨⟨tag[0], by simpa using hr 0 (by omega), ?_⟩, h3⟩
      have : byteAt tag 0 = tag[0].toNat := by simp [byteAt, List.getElem?_eq_getElem (show 0 < tag.length by omega)]
      omega
    · rintro ⟨⟨b, h1, h2⟩, h3⟩
      exact ⟨[b], by simp [Memory.readBytes, h1], by simpa [byteAt] using h2, h3⟩

end Sys2Proof.Machine
end

