-- ==== Sys2Proof/Laws/HostBus.lean ====
section
/-! SUPPORT. What a host read of BUF or IMG is made of: the write set of the pending command by how its rule ends, the
bytes read, the first byte that has no value, and the number they make. -/

namespace Sys2Proof.Machine

/-! ### The write set, by how the pending command's rule ends -/

theorem pendingWrites_of_done {s : State} {i : Instr} {d : Done} (hp : s.pending = true) (hd : decode s.cmd = .ok i)
    (he : endOf i s = .ok d) (a : Nat) : pendingWrites s a = true ↔ ∃ c ∈ d.stores, c.1 = a := by
  simp [pendingWrites, hp, hd, he]

theorem pendingWrites_of_raise {s : State} {i : Instr} {e : ErrorCode} {x y : Nat} (hp : s.pending = true)
    (hd : decode s.cmd = .ok i) (he : endOf i s = .error (.raise e x y)) (a : Nat) : pendingWrites s a = false := by
  simp [pendingWrites, hp, hd, he]

theorem pendingWrites_of_uninit {s : State} {i : Instr} {x : Nat} (hp : s.pending = true) (hd : decode s.cmd = .ok i)
    (he : endOf i s = .error (.uninit x)) (a : Nat) : pendingWrites s a = mayStore i s a := by
  simp [pendingWrites, hp, hd, he]

theorem pendingWrites_of_illegal {s : State} {r : Reject} (hd : decode s.cmd = .error r) (a : Nat) :
    pendingWrites s a = false := by
  simp [pendingWrites, hd]

theorem pendingWrites_of_idle {s : State} (hp : s.pending = false) (a : Nat) : pendingWrites s a = false := by
  simp [pendingWrites, hp]

/-! ### The bytes of a host read -/

theorem hostBytes_eq_some {s : State} {a draw n : Nat} {bs : List Byte} :
    hostBytes s a draw n = some bs ↔
      bs.length = n ∧ ∀ j (hj : j < bs.length), hostByte s (a + j) (draw + j) = some bs[j] := by
  induction n generalizing a draw bs with
  | zero =>
    simp only [hostBytes, Option.some.injEq]
    constructor
    · rintro rfl; exact ⟨rfl, fun j hj => absurd hj (Nat.not_lt_zero j)⟩
    · rintro ⟨h, -⟩; exact (List.length_eq_zero_iff.mp h).symm
  | succ n ih =>
    simp only [hostBytes]
    cases bs with
    | nil => constructor <;> intro h <;> [(split at h <;> simp_all); simp at h]
    | cons b bs =>
      have shift : ∀ j, a + 1 + j = a + (j + 1) ∧ draw + 1 + j = draw + (j + 1) := fun j => by omega
      constructor
      · intro h
        split at h
        · rename_i b' bs' h1 h2
          obtain ⟨rfl, rfl⟩ := List.cons.inj (Option.some.inj h)
          obtain ⟨hl, hr⟩ := ih.mp h2
          refine ⟨by simp [hl], fun j hj => ?_⟩
          cases j with
          | zero => exact h1
          | succ j => rw [← (shift j).1, ← (shift j).2]; exact hr j (by simpa using hj)
        · cases h
      · rintro ⟨hl, hr⟩
        have h0 : hostByte s a draw = some b := hr 0 (by simp)
        have ht : hostBytes s (a + 1) (draw + 1) n = some bs := ih.mpr ⟨by simpa using hl, fun j hj => by
          rw [(shift j).1, (shift j).2]; exact hr (j + 1) (by simpa using hj)⟩
        simp only [h0, ht]

/-- A host read that stops does so at an address of its own, neither written nor in the write set. -/
theorem hostGap_spec {s : State} {a draw n : Nat} (h : hostBytes s a draw n = none) :
    a ≤ hostGap s a draw n ∧ hostGap s a draw n < a + n ∧ pendingWrites s (hostGap s a draw n) = false ∧
      s.mem.read (hostGap s a draw n) = none := by
  induction n generalizing a draw with
  | zero => cases h
  | succ n ih =>
    simp only [hostBytes] at h
    simp only [hostGap]
    cases hb : hostByte s a draw with
    | none =>
      unfold hostByte at hb
      split at hb
      · cases hb
      · rename_i hw
        exact ⟨Nat.le_refl a, Nat.lt_add_of_pos_right (Nat.succ_pos n), by simpa using hw, hb⟩
    | some b =>
      cases hr : hostBytes s (a + 1) (draw + 1) n with
      | some bs => simp [hb, hr] at h
      | none =>
        obtain ⟨h1, h2, h3⟩ := ih hr
        exact ⟨Nat.le_of_succ_le h1, Nat.lt_of_lt_of_eq h2 (by omega), h3⟩

/-! ### Little-endian numbers -/

theorem leNat_lt (bs : List Byte) : leNat bs < 2 ^ (8 * bs.length) := by
  induction bs with
  | nil => exact Nat.one_pos
  | cons b bs ih =>
    have := b.isLt
    simp only [leNat, List.length_cons]
    rw [show 8 * (bs.length + 1) = 8 + 8 * bs.length by omega, Nat.pow_add]
    omega

/-- Byte `j` of the number a little-endian sequence stands for. -/
theorem leNat_byte (bs : List Byte) (j : Nat) (hj : j < bs.length) : leNat bs / 2 ^ (8 * j) % 256 = bs[j].toNat := by
  induction bs generalizing j with
  | nil => cases hj
  | cons b bs ih =>
    have hb := b.isLt
    cases j with
    | zero => simp only [leNat, Nat.mul_zero, Nat.pow_zero, Nat.div_one, List.getElem_cons_zero]; omega
    | succ j =>
      have := ih j (by simpa using hj)
      simp only [leNat, List.getElem_cons_succ, ← this]
      rw [show 8 * (j + 1) = 8 + 8 * j by omega, Nat.pow_add, ← Nat.div_div_eq_div_mul]
      congr 2; omega

end Sys2Proof.Machine
end

