-- ==== Sys2Proof/Laws/PerInstr.lean ====
section
/-! SUPPORT. The per-instruction family OpcodeWord: the encoder's word keeps to the map and the masks. -/

namespace Sys2Proof.Laws.OpcodeWord

/-- The command's word has RSV = 0, an OPCODE of the map and no MODE bit outside the command's mask: it is no illegal word
(spec/30_encoding.md R81, R83, R84, R85). -/
def Statement (i : Instr) : Prop :=
  rsvOf (encode i) = 0 ∧
    ∃ row, opcodeRow (opcodeOf (encode i)).toNat = some row ∧ modeOf (encode i) &&& ~~~row.mask = 0

theorem nop : Statement .nop := ⟨by decide, _, rfl, by decide⟩

theorem crcInit : Statement .crcInit := ⟨by decide, _, rfl, by decide⟩

theorem crcUpdate : Statement .crcUpdate := ⟨by decide, _, rfl, by decide⟩

theorem crcFinal : Statement .crcFinal := ⟨by decide, _, rfl, by decide⟩

theorem crcBlock : Statement .crcBlock := ⟨by decide, _, rfl, by decide⟩

theorem sigCheck : Statement .sigCheck := ⟨by decide, _, rfl, by decide⟩

theorem chunkCheck (v : Bool) : Statement (.chunkCheck v) := by
  cases v <;> exact ⟨by decide, _, rfl, by decide⟩

theorem chunkEmit : Statement .chunkEmit := ⟨by decide, _, rfl, by decide⟩

theorem hdrLoad : Statement .hdrLoad := ⟨by decide, _, rfl, by decide⟩

theorem pixRead : Statement .pixRead := ⟨by decide, _, rfl, by decide⟩

theorem pixWrite : Statement .pixWrite := ⟨by decide, _, rfl, by decide⟩

theorem imgImport : Statement .imgImport := ⟨by decide, _, rfl, by decide⟩

theorem imgExport : Statement .imgExport := ⟨by decide, _, rfl, by decide⟩

theorem imgZero : Statement .imgZero := ⟨by decide, _, rfl, by decide⟩

theorem lineRecon (p : Bool) : Statement (.lineRecon p) := by
  cases p <;> exact ⟨by decide, _, rfl, by decide⟩

theorem lineFilter (sel : Nat) (p : Bool) : Statement (.lineFilter sel p) := by
  have h : ∀ m : BitVec 3, rsvOf (commandWord (0#4 ++ BitVec.ofBool p ++ m) 0x21) = 0 ∧
      opcodeOf (commandWord (0#4 ++ BitVec.ofBool p ++ m) 0x21) = 0x21 ∧
      modeOf (commandWord (0#4 ++ BitVec.ofBool p ++ m) 0x21) &&& ~~~0x0F#8 = 0 := by cases p <;> decide
  obtain ⟨h1, h2, h3⟩ := h (BitVec.ofNat 3 sel)
  exact ⟨h1, ⟨0x0F, fun m => .lineFilter (modeSel m) (modeP m)⟩, by simp only [encode, encodePSel, h2]; rfl, h3⟩

theorem imgRecon : Statement .imgRecon := ⟨by decide, _, rfl, by decide⟩

theorem imgFilter (sel : Nat) : Statement (.imgFilter sel) := by
  have h : ∀ m : BitVec 3, rsvOf (commandWord (0#4 ++ BitVec.ofBool false ++ m) 0x23) = 0 ∧
      opcodeOf (commandWord (0#4 ++ BitVec.ofBool false ++ m) 0x23) = 0x23 ∧
      modeOf (commandWord (0#4 ++ BitVec.ofBool false ++ m) 0x23) &&& ~~~0x07#8 = 0 := by decide
  obtain ⟨h1, h2, h3⟩ := h (BitVec.ofNat 3 sel)
  exact ⟨h1, ⟨0x07, fun m => .imgFilter (modeSel m)⟩, by simp only [encode, encodePSel, h2]; rfl, h3⟩

theorem stgRead : Statement .stgRead := ⟨by decide, _, rfl, by decide⟩

theorem stgWrite : Statement .stgWrite := ⟨by decide, _, rfl, by decide⟩

theorem stgFrame : Statement .stgFrame := ⟨by decide, _, rfl, by decide⟩

theorem stgDetect : Statement .stgDetect := ⟨by decide, _, rfl, by decide⟩

theorem stgExtract : Statement .stgExtract := ⟨by decide, _, rfl, by decide⟩

end Sys2Proof.Laws.OpcodeWord
end

