-- ==== Sys2Proof/Laws/Stego.lean ====
section
/-! SUPPORT. The laws of the nibble stream: what reading it gives, which bytes writing it stores, and what the rules of the
stego unit complete with. -/

namespace Sys2Proof.Machine

/-! ### One byte, and memory after a list of byte writes -/

theorem readBytes_one {m : Memory} {a : Nat} {bs : List Byte} :
    m.readBytes a 1 = some bs ↔ ∃ b, m.read a = some b ∧ bs = [b] := by
  simp only [Memory.readBytes]
  cases m.read a <;> simp [eq_comm]

/-- After a list of byte writes, a byte is as it was or holds the value of one of the writes to it. -/
theorem read_writeCells_cases (m : Memory) (cs : List Host.Cell) (x : Nat) :
    (m.writeCells cs).read x = m.read x ∨ ∃ c ∈ cs, c.1 = x ∧ (m.writeCells cs).read x = some c.2 := by
  induction cs generalizing m with
  | nil => exact .inl rfl
  | cons c cs ih =>
    rcases ih (m.write c.1 c.2) with h | ⟨c', hc, h1, h2⟩
    · by_cases hx : x = c.1
      · subst hx; exact .inr ⟨c, by simp, rfl, by simp [h]⟩
      · exact .inl (by simp [h, Memory.read_write_ne _ _ hx])
    · exact .inr ⟨c', List.mem_cons_of_mem _ hc, h1, h2⟩

/-- Byte writes to addresses that do not repeat: each is read back. -/
theorem read_writeCells_of_mem {m : Memory} {cs : List Host.Cell} (hn : (cs.map Prod.fst).Nodup) {c : Host.Cell}
    (hc : c ∈ cs) : (m.writeCells cs).read c.1 = some c.2 := by
  induction cs generalizing m with
  | nil => simp at hc
  | cons d cs ih =>
    simp only [List.map_cons, List.nodup_cons] at hn
    rcases List.mem_cons.mp hc with rfl | hc
    · rw [Memory.writeCells_cons, Memory.read_writeCells_of_not_mem]
      · simp
      · intro c' hc' h
        exact hn.1 (List.mem_map.mpr ⟨c', hc', h⟩)
    · exact ih hn.2 hc

/-! ### Nibbles -/

theorem nibRead_eq_ok {s : State} {q v : Nat} :
    nibRead s q = .ok v ↔ ∃ b, s.mem.read (nibAddr s q) = some b ∧ v = b.toNat % 16 := by
  simp only [nibRead, check_bind_eq_ok, memRead_eq_ok, readBytes_one, Except.ok.injEq]
  constructor
  · rintro ⟨bs, ⟨b, h, rfl⟩, rfl⟩
    exact ⟨b, h, by simp [byteAt, Nat.and_two_pow_sub_one_eq_mod _ 4]⟩
  · rintro ⟨b, h, rfl⟩
    exact ⟨[b], ⟨b, h, rfl⟩, by simp [byteAt, Nat.and_two_pow_sub_one_eq_mod _ 4]⟩

theorem nibWrite_eq_ok {s : State} {q v : Nat} {c : Host.Cell} :
    nibWrite s q v = .ok c ↔
      ∃ b, s.mem.read (nibAddr s q) = some b ∧ c = (nibAddr s q, BitVec.ofNat 8 ((b.toNat &&& 0xF0) ||| v)) := by
  simp only [nibWrite, check_bind_eq_ok, memRead_eq_ok, readBytes_one, Except.ok.injEq]
  constructor
  · rintro ⟨bs, ⟨b, h, rfl⟩, rfl⟩
    exact ⟨b, h, rfl⟩
  · rintro ⟨b, h, rfl⟩
    exact ⟨[b], ⟨b, h, rfl⟩, rfl⟩

/-- Replacing a byte's low nibble keeps its high nibble. -/
theorem high_of_replaced_nibble (b : Byte) {v : Nat} (hv : v < 16) :
    (BitVec.ofNat 8 ((b.toNat &&& 0xF0) ||| v)).extractLsb' 4 4 = b.extractLsb' 4 4 := by
  revert b; interval_cases v <;> decide

/-- Replacing a byte's low nibble sets it. -/
theorem low_of_replaced_nibble (b : Byte) {v : Nat} (hv : v < 16) :
    (BitVec.ofNat 8 ((b.toNat &&& 0xF0) ||| v)).toNat % 16 = v := by
  revert b; interval_cases v <;> decide

/-- Two nibbles side by side are their sum. -/
theorem nibble_pair {lo hi : Nat} (h : lo < 16) : lo ||| hi <<< 4 = lo + 16 * hi := by
  rw [Nat.or_comm, ← Nat.shiftLeft_add_eq_or_of_lt (by simpa using h), Nat.shiftLeft_eq]
  omega

/-- What reading `n` bytes of the stream gives: each from two nibbles, its low one first. -/
theorem readNibbles_eq_ok {s : State} {q n : Nat} {bs : List Byte} :
    readNibbles s q n = .ok bs ↔
      bs.length = n ∧ ∀ k (hk : k < bs.length), ∃ lo hi, s.mem.read (nibAddr s (q + 2 * k)) = some lo ∧
        s.mem.read (nibAddr s (q + 2 * k + 1)) = some hi ∧
          bs[k] = BitVec.ofNat 8 (lo.toNat % 16 + 16 * (hi.toNat % 16)) := by
  induction n generalizing q bs with
  | zero =>
    constructor
    · intro h
      simp only [readNibbles, Except.ok.injEq] at h
      subst h
      simp
    · rintro ⟨h, -⟩
      simp [readNibbles, List.eq_nil_of_length_eq_zero h]
  | succ n ih =>
    simp only [readNibbles, check_bind_eq_ok, nibRead_eq_ok, ih, Except.ok.injEq]
    constructor
    · rintro ⟨-, ⟨lo, hlo, rfl⟩, -, ⟨hi, hhi, rfl⟩, rest, ⟨hl, hr⟩, rfl⟩
      refine ⟨by simp [hl], fun k hk => ?_⟩
      cases k with
      | zero => exact ⟨lo, hi, hlo, hhi, by simp [nibble_pair (Nat.mod_lt lo.toNat (by decide : 0 < 16))]⟩
      | succ k =>
        obtain ⟨lo', hi', h1, h2, h3⟩ := hr k (by simpa using hk)
        rw [show q + 2 + 2 * k = q + 2 * (k + 1) by omega] at h1 h2
        exact ⟨lo', hi', h1, h2, by simpa using h3⟩
    · rintro ⟨hl, hr⟩
      obtain ⟨b, rest, rfl⟩ := List.exists_cons_of_length_eq_add_one hl
      obtain ⟨lo, hi, h1, h2, h3⟩ := hr 0 (by simp)
      refine ⟨_, ⟨lo, by simpa using h1, rfl⟩, _, ⟨hi, by simpa using h2, rfl⟩, rest, ⟨by simpa using hl, fun k hk => ?_⟩, ?_⟩
      · obtain ⟨lo', hi', g1, g2, g3⟩ := hr (k + 1) (by simpa using hk)
        rw [show q + 2 * (k + 1) = q + 2 + 2 * k by omega] at g1 g2
        exact ⟨lo', hi', g1, g2, by simpa using g3⟩
      · rw [nibble_pair (Nat.mod_lt _ (by decide))]
        simpa using h3.symm

/-- Reading the stream completes when every nibble's byte is written. -/
theorem readNibbles_isOk {s : State} {q n : Nat}
    (h : ∀ j < 2 * n, (s.mem.read (nibAddr s (q + j))).isSome = true) : ∃ bs, readNibbles s q n = .ok bs := by
  induction n generalizing q with
  | zero => exact ⟨[], rfl⟩
  | succ n ih =>
    obtain ⟨lo, hlo⟩ := Option.isSome_iff_exists.mp (h 0 (by omega))
    obtain ⟨hi, hhi⟩ := Option.isSome_iff_exists.mp (h 1 (by omega))
    obtain ⟨bs, hb⟩ := ih (q := q + 2) fun j hj => by
      have := h (j + 2) (by omega)
      rwa [show q + (j + 2) = q + 2 + j by omega] at this
    exact ⟨_, check_bind_eq_ok.mpr ⟨_, nibRead_eq_ok.mpr ⟨lo, hlo, rfl⟩,
      check_bind_eq_ok.mpr ⟨_, nibRead_eq_ok.mpr ⟨hi, hhi, rfl⟩, check_bind_eq_ok.mpr ⟨bs, hb, rfl⟩⟩⟩⟩

/-- The nibbles of a byte sequence, each byte's low one first. -/
theorem nibble_lt (v : Byte) : v.toNat &&& 0x0F < 16 ∧ v.toNat >>> 4 < 16 := by
  have := v.isLt
  rw [Nat.and_two_pow_sub_one_eq_mod _ 4, Nat.shiftRight_eq_div_pow]
  omega

/-- Writing bytes to the stream stores, in the order of the nibbles, each channel byte with its low nibble replaced. -/
theorem writeNibbles_eq_ok {s : State} {q : Nat} {bs : List Byte} {cells : List Host.Cell}
    (h : writeNibbles s q bs = .ok cells) :
    cells.length = 2 * bs.length ∧ cells.map Prod.fst = (List.range' q (2 * bs.length)).map (nibAddr s) ∧
      (∀ c ∈ cells, ∃ b v, s.mem.read c.1 = some b ∧ v < 16 ∧ c.2 = BitVec.ofNat 8 ((b.toNat &&& 0xF0) ||| v)) ∧
      ∀ k (hk : k < bs.length), ∃ lo hi : Byte,
        (nibAddr s (q + 2 * k), lo) ∈ cells ∧ lo.toNat % 16 = bs[k].toNat % 16 ∧
          (nibAddr s (q + 2 * k + 1), hi) ∈ cells ∧ hi.toNat % 16 = bs[k].toNat / 16 := by
  induction bs generalizing q cells with
  | nil =>
    simp only [writeNibbles, Except.ok.injEq] at h
    subst h
    simp
  | cons v vs ih =>
    simp only [writeNibbles, check_bind_eq_ok, nibWrite_eq_ok, Except.ok.injEq] at h
    obtain ⟨-, ⟨b0, h0, rfl⟩, -, ⟨b1, h1, rfl⟩, rest, hrest, rfl⟩ := h
    obtain ⟨hl, ha, hc, hk⟩ := ih hrest
    obtain ⟨v0, v1⟩ := nibble_lt v
    refine ⟨by simp [hl]; omega, ?_, ?_, ?_⟩
    · rw [List.length_cons, show 2 * (vs.length + 1) = 2 * vs.length + 1 + 1 by omega]
      simp [List.range'_succ, ha]
    · intro c hc'
      rcases List.mem_cons.mp hc' with rfl | hc'
      · exact ⟨b0, _, h0, v0, rfl⟩
      rcases List.mem_cons.mp hc' with rfl | hc'
      · exact ⟨b1, _, h1, v1, rfl⟩
      exact hc c hc'
    · intro k hk'
      cases k with
      | zero =>
        refine ⟨_, _, List.mem_cons_self, ?_, List.mem_cons_of_mem _ List.mem_cons_self, ?_⟩
        · rw [low_of_replaced_nibble _ v0]
          simp [Nat.and_two_pow_sub_one_eq_mod _ 4]
        · rw [low_of_replaced_nibble _ v1]
          simp [Nat.shiftRight_eq_div_pow]
      | succ k =>
        obtain ⟨lo, hi, g1, g2, g3, g4⟩ := hk k (by simpa using hk')
        refine ⟨lo, hi, ?_, by simpa using g2, ?_, by simpa using g4⟩ <;>
          rw [show q + 2 * (k + 1) = q + 2 + 2 * k by omega] <;>
          exact List.mem_cons_of_mem _ (List.mem_cons_of_mem _ ‹_›)

/-- Writing to the stream completes when every nibble's byte is written. -/
theorem writeNibbles_isOk {s : State} {q : Nat} {bs : List Byte}
    (h : ∀ j < 2 * bs.length, (s.mem.read (nibAddr s (q + j))).isSome = true) : ∃ cells, writeNibbles s q bs = .ok cells := by
  induction bs generalizing q with
  | nil => exact ⟨[], rfl⟩
  | cons v vs ih =>
    simp only [List.length_cons] at h
    obtain ⟨b0, h0⟩ := Option.isSome_iff_exists.mp (h 0 (by omega))
    obtain ⟨b1, h1⟩ := Option.isSome_iff_exists.mp (h 1 (by omega))
    obtain ⟨rest, hr⟩ := ih (q := q + 2) fun j hj => by
      have := h (j + 2) (by omega)
      rwa [show q + (j + 2) = q + 2 + j by omega] at this
    exact ⟨_, check_bind_eq_ok.mpr ⟨_, nibWrite_eq_ok.mpr ⟨b0, h0, rfl⟩,
      check_bind_eq_ok.mpr ⟨_, nibWrite_eq_ok.mpr ⟨b1, h1, rfl⟩, check_bind_eq_ok.mpr ⟨rest, hr, rfl⟩⟩⟩⟩

/-! ### Checks -/

@[simp] theorem stegoKind_eq_true {k : Option PixelKind} : stegoKind k = true ↔ k = some .rgb8 ∨ k = some .rgba8 := by
  simp [stegoKind]

theorem stegoChecks_eq_ok {s : State} {u : Unit} :
    stegoChecks s = .ok u ↔ s.cfgValid = true ∧ (s.kind = some .rgb8 ∨ s.kind = some .rgba8) ∧ s.imgState = .raw := by
  simp only [stegoChecks, check_bind_eq_ok, needCfg_eq_ok, raiseIf_eq_ok, needRaw_eq_ok, exists_const,
    Bool.not_eq_false, stegoKind_eq_true]

theorem stegoChecks_ne_uninit {s : State} {x : Nat} : stegoChecks s ≠ .error (.uninit x) := by
  simp [stegoChecks, check_bind_eq_error]

theorem offsetChecks_eq_ok {s : State} {b n : Nat} {u : Unit} :
    offsetChecks s b n = .ok u ↔ b % 4 = 0 ∧ b + 8 * n ≤ s.capBits.toNat := by
  simp [offsetChecks]

theorem offsetChecks_ne_uninit {s : State} {b n x : Nat} : offsetChecks s b n ≠ .error (.uninit x) := by
  simp [offsetChecks, check_bind_eq_error]

/-! ### The frame -/

@[simp] theorem length_stegoFrame (body : List Byte) : (stegoFrame body).length = body.length + 10 := by
  simp [stegoFrame, stegoMagic, stegoTrailer, toLe32]

theorem detect_eq_ok {s : State} {r : Option Nat} :
    detect s = .ok r ↔
      (s.capBytes.toNat < 10 ∧ r = none) ∨
      (10 ≤ s.capBytes.toNat ∧ ∃ magic, stegoRead s 0 3 = .ok magic ∧
        ((magic ≠ stegoMagic ∧ r = none) ∨
        (magic = stegoMagic ∧ ∃ lb, stegoRead s 24 4 = .ok lb ∧
          ((s.capBytes.toNat < 10 + le32 lb ∧ r = none) ∨
          (10 + le32 lb ≤ s.capBytes.toNat ∧ ∃ tr, stegoRead s (56 + 8 * le32 lb) 3 = .ok tr ∧
            ((tr ≠ stegoTrailer ∧ r = none) ∨ (tr = stegoTrailer ∧ r = some (le32 lb)))))))) := by
  unfold detect
  by_cases h0 : s.capBytes.toNat < 10
  · simp [h0, Nat.not_le.mpr h0, eq_comm]
  · rw [if_neg h0]
    simp only [h0, Nat.not_lt.mp h0, check_bind_eq_ok, false_and, false_or, true_and]
    refine exists_congr fun magic => and_congr_right fun _ => ?_
    by_cases h1 : magic = stegoMagic
    · simp only [h1, ne_eq, not_true_eq_false, if_false, check_bind_eq_ok, false_and, false_or, true_and]
      refine exists_congr fun lb => and_congr_right fun _ => ?_
      by_cases h2 : s.capBytes.toNat < 10 + le32 lb
      · simp [h2, Nat.not_le.mpr h2, eq_comm]
      · rw [if_neg (by omega)]
        simp only [h2, Nat.not_lt.mp h2, check_bind_eq_ok, false_and, false_or, true_and]
        refine exists_congr fun tr => and_congr_right fun _ => ?_
        by_cases h3 : tr = stegoTrailer <;> simp [h3, eq_comm]
    · simp [h1, eq_comm]

/-! ### What the rules complete with -/

theorem endStgRead_eq_ok {s : State} {d : Done} :
    endStgRead s = .ok d ↔
      stegoChecks s = .ok () ∧ offsetChecks s (s.arg 0) (s.arg 1) = .ok () ∧ s.arg 2 + s.arg 1 ≤ s.params.bufBytes ∧
        ∃ bs, stegoRead s (s.arg 0) (s.arg 1) = .ok bs ∧ d = ⟨s, cellsAt (bufBase + s.arg 2) bs⟩ := by
  simp only [endStgRead, check_bind_eq_ok, bufCheck_eq_ok, doneStores_eq_ok, exists_const]
  exact ⟨fun ⟨_, a, _, b, c⟩ => ⟨a, b, c⟩, fun ⟨a, b, c⟩ => ⟨(), a, (), b, c⟩⟩

theorem endStgWrite_eq_ok {s : State} {d : Done} :
    endStgWrite s = .ok d ↔
      stegoChecks s = .ok () ∧ offsetChecks s (s.arg 0) (s.arg 1) = .ok () ∧ s.arg 2 + s.arg 1 ≤ s.params.bufBytes ∧
        ∃ bs, s.mem.readBytes (bufBase + s.arg 2) (s.arg 1) = some bs ∧
          ∃ cells, stegoWrite s (s.arg 0) bs = .ok cells ∧ d = ⟨s, cells⟩ := by
  simp only [endStgWrite, check_bind_eq_ok, bufCheck_eq_ok, memRead_eq_ok, doneStores_eq_ok, exists_const]
  exact ⟨fun ⟨_, a, _, b, c⟩ => ⟨a, b, c⟩, fun ⟨a, b, c⟩ => ⟨(), a, (), b, c⟩⟩

theorem endStgFrame_eq_ok {s : State} {d : Done} :
    endStgFrame s = .ok d ↔
      stegoChecks s = .ok () ∧ s.arg 1 + 10 ≤ s.capBytes.toNat ∧ s.arg 0 + s.arg 1 ≤ s.params.bufBytes ∧
        ∃ body, s.mem.readBytes (bufBase + s.arg 0) (s.arg 1) = some body ∧
          ∃ cells, stegoWrite s 0 (stegoFrame body) = .ok cells ∧ d = ⟨s.setRes 0 (s.arg 1 + 10), cells⟩ := by
  simp only [endStgFrame, check_bind_eq_ok, raiseIf_eq_ok, bufCheck_eq_ok, memRead_eq_ok, doneStores_eq_ok,
    exists_const, not_lt, gt_iff_lt]
  exact ⟨fun ⟨_, a, b⟩ => ⟨a, b⟩, fun ⟨a, b⟩ => ⟨(), a, b⟩⟩

theorem endStgDetect_eq_ok {s : State} {d : Done} :
    endStgDetect s = .ok d ↔
      stegoChecks s = .ok () ∧ ∃ found, detect s = .ok found ∧
        d = ⟨(s.setRes 0 (if found.isSome then 1 else 0)).setRes 1 (found.getD 0), []⟩ := by
  simp only [endStgDetect, check_bind_eq_ok, doneRegs_eq_ok]
  exact ⟨fun ⟨_, a, b⟩ => ⟨a, b⟩, fun ⟨a, b⟩ => ⟨(), a, b⟩⟩

theorem endStgExtract_eq_ok {s : State} {d : Done} :
    endStgExtract s = .ok d ↔
      stegoChecks s = .ok () ∧ ∃ len, detect s = .ok (some len) ∧ s.arg 0 + len ≤ s.params.bufBytes ∧
        ∃ bs, stegoRead s 56 len = .ok bs ∧ d = ⟨s.setRes 0 len, cellsAt (bufBase + s.arg 0) bs⟩ := by
  simp only [endStgExtract, check_bind_eq_ok, orRaise_eq_ok, bufCheck_eq_ok, doneStores_eq_ok, exists_const]
  constructor
  · rintro ⟨_, a, -, b, len, rfl, c⟩; exact ⟨a, len, b, c⟩
  · rintro ⟨a, len, b, c⟩; exact ⟨(), a, _, b, len, rfl, c⟩

end Sys2Proof.Machine
end

