-- ==== Sys2Proof/Laws/WriteSet.lean ====
section
/-! SUPPORT. The laws of the write set (spec/20_memory.md R69): a completed command stores inside `mayStore`, and a command
that ends without reading a byte never written ends so whatever those bytes hold. -/

namespace Sys2Proof.Machine

/-! ### A completed command stores inside `mayStore` -/

@[simp] theorem inRange_eq_true {base n a : Nat} : inRange base n a = true ↔ base ≤ a ∧ a < base + n := by
  simp [inRange]

theorem inRange_of_mem_cellsAt {base n : Nat} {bs : List Byte} {c : Host.Cell} (h : c ∈ cellsAt base bs)
    (hl : bs.length = n) : inRange base n c.1 = true := by
  rw [inRange_eq_true, ← hl]; exact mem_cellsAt h

theorem length_spanWrite (k : PixelKind) (sb : List Byte) (i : Nat) (ch : List Nat) :
    (spanWrite (kindRow k) sb i ch).length = (kindRow k).spanBytes := by
  cases k <;> simp [spanWrite, kindRow]

theorem lineChecks_destination {p : Bool} {s : State} {shape : LineShape} (h : lineChecks p s = .ok shape) {bs : List Byte}
    {c : Host.Cell} (hl : bs.length = 1 + shape.stride) (hc : c ∈ cellsAt (bufBase + s.arg 2) bs) :
    inLineDestination s c.1 = true := by
  obtain ⟨kc, hk, kp, -, -, -, -, -, -, rfl⟩ := lineChecks_eq_ok.mp h
  simp only [inLineDestination, hk]
  exact inRange_of_mem_cellsAt hc hl

theorem tagMayPass_of_readBytes {s : State} {a n : Nat} {line : List Byte}
    (h : s.mem.readBytes a (1 + n) = some line) (ht : byteAt line 0 ≤ 4) : tagMayPass s a = true := by
  rw [Nat.add_comm] at h
  simp only [Memory.readBytes] at h
  unfold tagMayPass
  cases hr : s.mem.read a with
  | none => rfl
  | some b =>
    rw [hr] at h
    cases hb : s.mem.readBytes (a + 1) n with
    | none => simp [hb] at h
    | some bs =>
      simp only [hb, Option.some.injEq] at h
      subst h
      exact decide_eq_true ht

theorem amongNibbles_of_writeNibbles {s : State} {q : Nat} {bs : List Byte} {cells : List Host.Cell}
    (h : writeNibbles s q bs = .ok cells) {c : Host.Cell} (hc : c ∈ cells) :
    amongNibbles s q (2 * bs.length) c.1 = true := by
  obtain ⟨-, ha, -, -⟩ := writeNibbles_eq_ok h
  have hm : c.1 ∈ cells.map Prod.fst := List.mem_map_of_mem hc
  rw [ha] at hm
  obtain ⟨x, hx, hxa⟩ := List.mem_map.mp hm
  rw [List.mem_range'] at hx
  obtain ⟨i, hi, rfl⟩ := hx
  simp only [amongNibbles, List.any_eq_true, beq_iff_eq, List.mem_range]
  exact ⟨i, hi, by simpa using hxa⟩

theorem inImageLines_of_rows {s : State} {rows : List (List Byte)} (hn : rows.length = s.height.toNat)
    (hl : ∀ r ∈ rows, r.length = 1 + s.stride.toNat) {c : Host.Cell}
    (hc : c ∈ cellsAt (imgBase + rowOff s 0) rows.flatten) : inImageLines s c.1 = true := by
  refine inRange_of_mem_cellsAt (by simpa [rowOff] using hc) ?_
  rw [length_flatten_rows hl, hn, rowOff]

/-- Every byte a completed command stores is one it may store by its operands. -/
theorem mayStore_of_stored {i : Instr} {s : State} {d : Done} (h : endOf i s = .ok d) {c : Host.Cell} (hc : c ∈ d.stores) :
    mayStore i s c.1 = true := by
  cases i <;> simp only [endOf] at h
  case nop => cases h; cases hc
  case crcInit => cases h; cases hc
  case crcUpdate => obtain ⟨-, _, -, rfl⟩ := endCrcUpdate_eq_ok.mp h; cases hc
  case crcFinal => cases h; cases hc
  case crcBlock => obtain ⟨-, _, -, rfl⟩ := endCrcBlock_eq_ok.mp h; cases hc
  case sigCheck => obtain ⟨-, -, -, rfl⟩ := endSigCheck_eq_ok.mp h; cases hc
  case chunkCheck v =>
    obtain ⟨-, -, _, -, -, -, -, _, -, _, -, -, rfl⟩ := endChunkCheck_eq_ok.mp h; cases hc
  case chunkEmit =>
    obtain ⟨-, -, -, -, data, hd, rfl⟩ := endChunkEmit_eq_ok.mp h
    exact inRange_of_mem_cellsAt hc (by simp [chunkFrame, toBe32, Memory.length_of_readBytes hd]; omega)
  case hdrLoad => obtain ⟨-, _, -, -, _, -, -, -, -, -, -, rfl⟩ := endHdrLoad_eq_ok.mp h; cases hc
  case pixRead => obtain ⟨-, -, -, _, -, rfl⟩ := endPixRead_eq_ok.mp h; cases hc
  case pixWrite =>
    obtain ⟨-, -, h14, hk, -, -, sb, -, rfl⟩ := endPixWrite_eq_ok.mp h
    refine inRange_of_mem_cellsAt hc ?_
    cases hs : s.kind with
    | none => simp only [State.kindRow, hs, noKindRow] at hk; omega
    | some k => simp only [State.kindRow, hs]; exact length_spanWrite ..
  case imgImport =>
    obtain ⟨-, -, -, he, bs, hb, rfl⟩ := endImgImport_eq_ok.mp h
    exact inRange_of_mem_cellsAt hc (by rw [Memory.length_of_readBytes hb, he])
  case imgExport =>
    obtain ⟨-, -, -, bs, hb, rfl⟩ := endImgExport_eq_ok.mp h
    exact inRange_of_mem_cellsAt hc (Memory.length_of_readBytes hb)
  case imgZero =>
    obtain ⟨-, rfl⟩ := endImgZero_eq_ok.mp h
    exact inRange_of_mem_cellsAt hc (by simp [zeroBytes])
  case lineRecon p =>
    obtain ⟨shape, hs, line, hline, t, ht, u, -, rfl⟩ := endLineRecon_eq_ok.mp h
    have ht4 : byteAt line 0 ≤ 4 := by rw [← filterOfTag_eq_some.mp ht]; exact filterTag_le t
    simp only [mayStore, Bool.and_eq_true]
    exact ⟨tagMayPass_of_readBytes hline ht4,
      lineChecks_destination hs (by simp [Memory.length_of_readBytes hline]) hc⟩
  case lineFilter sel p =>
    obtain ⟨-, shape, hs, raw, hraw, _, -, r, u, t, rfl, rfl, rfl, rfl⟩ := endLineFilter_eq_ok.mp h
    exact lineChecks_destination hs (by simp [Memory.length_of_readBytes hraw]) hc
  case imgRecon =>
    obtain ⟨-, -, -, cells, hcells, rfl⟩ := endImgRecon_eq_ok.mp h
    rw [List.range_eq_range'] at hcells
    obtain ⟨rows, hn, hl, rfl, hrow⟩ := reconRows_eq_ok hcells
    simp only [mayStore, Bool.and_eq_true, List.all_eq_true, List.mem_range]
    refine ⟨fun y hy => ?_, inImageLines_of_rows hn hl hc⟩
    obtain ⟨line, t, h1, h2, -⟩ := hrow y (by omega)
    rw [Nat.zero_add] at h1
    exact tagMayPass_of_readBytes h1 (by rw [← h2]; exact filterTag_le t)
  case imgFilter sel =>
    obtain ⟨-, -, -, cells, hcells, rfl⟩ := endImgFilter_eq_ok.mp h
    rw [List.range_eq_range'] at hcells
    obtain ⟨_, -, -, rows, hn, hl, rfl, -⟩ := filterRows_eq_ok hcells
    exact inImageLines_of_rows hn hl hc
  case stgRead =>
    obtain ⟨-, -, -, bs, hb, rfl⟩ := endStgRead_eq_ok.mp h
    exact inRange_of_mem_cellsAt hc (readNibbles_eq_ok.mp hb).1
  case stgWrite =>
    obtain ⟨-, -, -, bs, hb, cells, hcells, rfl⟩ := endStgWrite_eq_ok.mp h
    have := amongNibbles_of_writeNibbles hcells hc
    rwa [Memory.length_of_readBytes hb] at this
  case stgFrame =>
    obtain ⟨-, -, -, body, hb, cells, hcells, rfl⟩ := endStgFrame_eq_ok.mp h
    have := amongNibbles_of_writeNibbles hcells hc
    rwa [length_stegoFrame, Memory.length_of_readBytes hb] at this
  case stgDetect => obtain ⟨-, _, -, rfl⟩ := endStgDetect_eq_ok.mp h; cases hc
  case stgExtract =>
    obtain ⟨-, len, hd, hb, bs, hbs, rfl⟩ := endStgExtract_eq_ok.mp h
    have hlen : bs.length = len := (readNibbles_eq_ok.mp hbs).1
    have hcap : 10 + len ≤ s.capBytes.toNat := by
      rcases detect_eq_ok.mp hd with ⟨-, h⟩ | ⟨-, _, -, ⟨-, h⟩ | ⟨-, _, -, ⟨-, h⟩ | ⟨hle, _, -, ⟨-, h⟩ | ⟨-, h⟩⟩⟩⟩
      all_goals first
        | cases h; done
        | (rw [Option.some.inj h]; exact hle)
    have := mem_cellsAt hc
    simp only [mayStore, inRange_eq_true]
    omega

/-! ### The end of a command does not depend on bytes it does not read -/

/-- `x` and `y` end alike, with values that `R` relates, unless `x` reads a byte never written. -/
def Alike {α : Type} (R : α → α → Prop) (x y : Check α) : Prop :=
  match x with
  | .ok v => ∃ w, y = .ok w ∧ R v w
  | .error (.raise e a b) => y = .error (.raise e a b)
  | .error (.uninit _) => True

namespace Alike

theorem rfl' {α : Type} (x : Check α) : Alike Eq x x := by
  match x with
  | .ok v => exact ⟨v, rfl, rfl⟩
  | .error (.raise _ _ _) => exact rfl
  | .error (.uninit _) => trivial

theorem bind {α β : Type} {R : β → β → Prop} {x y : Check α} {f g : α → Check β} (hx : Alike Eq x y)
    (hf : ∀ v, Alike R (f v) (g v)) : Alike R (x >>= f) (y >>= g) := by
  match x with
  | .ok v =>
    obtain ⟨w, rfl, rfl⟩ := hx
    exact hf v
  | .error (.raise _ _ _) =>
    have hy : y = _ := hx
    subst hy; exact rfl
  | .error (.uninit _) => trivial

variable {s : State} {m : Memory} (h : ∀ a b, s.mem.read a = some b → m.read a = some b)
include h

theorem memRead (a n : Nat) : Alike Eq (memRead s a n) (memRead { s with mem := m } a n) := by
  have key : ∀ n a bs, s.mem.readBytes a n = some bs → m.readBytes a n = some bs := by
    intro n
    induction n with
    | zero => exact fun _ _ h => h
    | succ n ih =>
      intro a bs hb
      simp only [Memory.readBytes] at hb ⊢
      split at hb
      · rename_i b bs' h1 h2
        rw [h _ _ h1, ih _ _ h2]; exact hb
      · cases hb
  unfold Machine.memRead
  cases hb : s.mem.readBytes a n with
  | none => trivial
  | some bs => exact ⟨bs, by simp only [key n a bs hb], rfl⟩

theorem previousData (p : Bool) (n : Nat) : Alike Eq (previousData p s n) (previousData p { s with mem := m } n) := by
  cases p
  · exact rfl' _
  · exact bind (memRead h _ _) fun _ => rfl' _

theorem checkTags (ys : List Nat) : Alike Eq (checkTags s ys) (checkTags { s with mem := m } ys) := by
  induction ys with
  | nil => exact rfl' _
  | cons y ys ih => exact bind (memRead h _ _) fun _ => bind (rfl' _) fun _ => ih

theorem reconRows (ys : List Nat) (prev : Option (List Byte)) :
    Alike Eq (reconRows s ys prev) (reconRows { s with mem := m } ys prev) := by
  induction ys generalizing prev with
  | nil => exact rfl' _
  | cons y ys ih => exact bind (memRead h _ _) fun _ => bind (rfl' _) fun _ => bind (ih _) fun _ => rfl' _

theorem filterRows (sel : Nat) (ys : List Nat) (prev : Option (List Byte)) :
    Alike Eq (filterRows s sel ys prev) (filterRows { s with mem := m } sel ys prev) := by
  induction ys generalizing prev with
  | nil => exact rfl' _
  | cons y ys ih => exact bind (bind (memRead h _ _) fun _ => rfl' _) fun _ => bind (ih _) fun _ => rfl' _

theorem nibRead (q : Nat) : Alike Eq (nibRead s q) (nibRead { s with mem := m } q) :=
  bind (memRead h _ _) fun _ => rfl' _

theorem nibWrite (q v : Nat) : Alike Eq (nibWrite s q v) (nibWrite { s with mem := m } q v) :=
  bind (memRead h _ _) fun _ => rfl' _

theorem readNibbles (q n : Nat) : Alike Eq (readNibbles s q n) (readNibbles { s with mem := m } q n) := by
  induction n generalizing q with
  | zero => exact rfl' _
  | succ n ih => exact bind (nibRead h _) fun _ => bind (nibRead h _) fun _ => bind (ih _) fun _ => rfl' _

theorem writeNibbles (q : Nat) (bs : List Byte) :
    Alike Eq (writeNibbles s q bs) (writeNibbles { s with mem := m } q bs) := by
  induction bs generalizing q with
  | nil => exact rfl' _
  | cons v vs ih => exact bind (nibWrite h _ _) fun _ => bind (nibWrite h _ _) fun _ => bind (ih _) fun _ => rfl' _

theorem detect : Alike Eq (detect s) (detect { s with mem := m }) := by
  unfold Machine.detect
  by_cases h0 : s.capBytes.toNat < 10
  · rw [if_pos h0, if_pos h0]; exact rfl' _
  rw [if_neg h0, if_neg h0]
  refine bind (readNibbles h _ _) fun magic => ?_
  by_cases h1 : magic ≠ stegoMagic
  · rw [if_pos h1, if_pos h1]; exact rfl' _
  rw [if_neg h1, if_neg h1]
  refine bind (readNibbles h _ _) fun lb => ?_
  by_cases h2 : 10 + le32 lb > s.capBytes.toNat
  · simp only [h2, if_true]; exact rfl' _
  simp only [h2, if_false]
  exact bind (readNibbles h _ _) fun _ => rfl' _

/-- Every command ends alike, storing the same bytes, when bytes never written are filled in. -/
theorem endOf (i : Instr) :
    Alike (fun d e => d.stores = e.stores) (endOf i s) (endOf i { s with mem := m }) := by
  have done : ∀ (t u : State) (cs : List Host.Cell),
      Alike (fun d e => d.stores = e.stores) (.ok ⟨t, cs⟩ : Check Done) (.ok ⟨u, cs⟩) := fun _ u cs => ⟨⟨u, cs⟩, rfl, rfl⟩
  cases i <;> simp only [Machine.endOf, endNop, endCrcInit, endCrcUpdate, endCrcFinal, endCrcBlock, endSigCheck,
    endChunkCheck, endChunkEmit, endHdrLoad, endPixRead, endPixWrite, endImgImport, endImgExport, endImgZero,
    endLineRecon, endLineFilter, endImgRecon, endImgFilter, endStgRead, endStgWrite, endStgFrame, endStgDetect,
    endStgExtract, imageBytes, stegoRead, stegoWrite, doneRegs, doneStores] <;>
  repeat (first
    | exact done _ _ _
    | (refine bind ?_ fun _ => ?_)
    | exact memRead h _ _ | exact previousData h _ _ | exact checkTags h _ | exact reconRows h _ _
    | exact filterRows h _ _ _ | exact readNibbles h _ _ | exact writeNibbles h _ _ | exact detect h
    | exact rfl' _)

end Alike

/-- What a command may store, bytes never written being filled in, is what it may store before. -/
theorem mayStore_fill {s : State} {m : Memory} (h : ∀ a b, s.mem.read a = some b → m.read a = some b) {i : Instr} {a : Nat}
    (hm : mayStore i { s with mem := m } a = true) : mayStore i s a = true := by
  have tag : ∀ x, tagMayPass { s with mem := m } x = true → tagMayPass s x = true := by
    intro x hx
    unfold tagMayPass at hx ⊢
    cases hr : s.mem.read x with
    | none => rfl
    | some b => simpa only [h _ _ hr] using hx
  cases i
  case lineRecon p =>
    simp only [mayStore, Bool.and_eq_true] at hm ⊢
    exact ⟨tag _ hm.1, hm.2⟩
  case imgRecon =>
    simp only [mayStore, Bool.and_eq_true, List.all_eq_true] at hm ⊢
    exact ⟨fun y hy => tag _ (hm.1 y hy), hm.2⟩
  all_goals exact hm

end Sys2Proof.Machine
end

