-- ==== Sys2Proof/Machine/HostProgram.lean ====
section
/-! DEFINITION. The host program notation of spec/30_encoding.md R93, R94: a host that drives the block by bus accesses. It
is no part of the block (spec/10_state.md R21) and no part of its State; a program's host variables and its place stand in
a record of their own beside the block (log 29). -/

namespace Sys2Proof.Machine

/-- A value `e` of the notation: a numeral, a host variable, or four ASCII characters as a tag word (R93, R90). -/
inductive HostValue where
  | num (v : Word)
  | var (k : Fin 8)
  | tag (c0 c1 c2 c3 : Byte)
  deriving DecidableEq, Repr

/-- The memory a byte statement names (R93). -/
inductive MemName where
  | buf
  | img
  deriving DecidableEq, Repr

/-- One statement (R93). R93 does not say what the offset `o` of BUF[o] and IMG[o] may be: that it is any value, a numeral, a
host variable or a tag word, is the model's choice. So is that labels are numbers and that `wr` may name any register, where R93
lists ARG0 to ARG7, CMD and CTRL (DESIGN CHOICE, log 29). -/
inductive HostStmt where
  | wr (r : RegName) (e : HostValue)
  | rd (k : Fin 8) (r : RegName)
  | cmd (i : Instr)
  | stb (m : MemName) (off : HostValue) (e : HostValue)
  | ldb (k : Fin 8) (m : MemName) (off : HostValue)
  | mov (a : Fin 8) (k : Fin 8)
  | add (k : Fin 8) (e : HostValue)
  | and (k : Fin 8) (e : HostValue)
  | beq (k : Fin 8) (e : HostValue) (l : Nat)
  | bne (k : Fin 8) (e : HostValue) (l : Nat)
  | jmp (l : Nat)
  | halt
  deriving DecidableEq, Repr

/-- A line: an optional label and one statement (R93). -/
structure HostLine where
  label : Option Nat
  stmt : HostStmt
  deriving DecidableEq, Repr

/-- The host's own state: `h0..h7`, the line it is at, and whether it has halted. -/
structure HostState where
  vars : Vector Word 8
  at_ : Nat
  halted : Bool
  deriving DecidableEq, Repr

/-- The host and the block. -/
structure Platform where
  host : HostState
  block : State
  deriving DecidableEq, Repr

/-- A host at the first line of its program. R93 gives the variables no first value: that each is 0 is the model's choice
(DESIGN CHOICE, log 29). -/
def HostState.start : HostState := ⟨Vector.replicate 8 0, 0, false⟩

/-- The word a value stands for (R93). -/
def hostValue (h : HostState) (e : HostValue) : Word :=
  match e with
  | .num v => v
  | .var k => h.vars[k]
  | .tag c0 c1 c2 c3 => BitVec.ofNat 32 (be32 [c0, c1, c2, c3])

/-- The block address of an offset in a memory (spec/20_memory.md R61). An offset of 2^24 or more lies beyond every BUF and
IMG (spec/00_scope.md R7) and gives an unmapped address, not one of another window (log 29). -/
def hostAddr (m : MemName) (off : Word) : Word :=
  if off.toNat < 2 ^ 24 then
    match m with
    | .buf => BitVec.ofNat 32 (bufBase + off.toNat)
    | .img => BitVec.ofNat 32 (imgBase + off.toNat)
  else 0xFFFFFFFF

/-- The number of the first line with a label, if there is one. R93 does not say what a label on two lines means: that a jump
goes to the first of them is the model's choice (DESIGN CHOICE, log 29). -/
def lineOf (prog : List HostLine) (l : Nat) : Option Nat := prog.findIdx? fun ln => ln.label == some l

/-- The host at its next line. -/
def HostState.advance (h : HostState) : HostState := { h with at_ := h.at_ + 1 }

/-- The host with a variable set, at its next line. -/
def HostState.assign (h : HostState) (k : Fin 8) (v : Word) : HostState :=
  { h with vars := h.vars.set k v, at_ := h.at_ + 1 }

/-- The host at a label; a label that no line carries halts it (log 29). -/
def HostState.goto (h : HostState) (prog : List HostLine) (l : Nat) : HostState :=
  match lineOf prog l with
  | some n => { h with at_ := n }
  | none => { h with halted := true }

/-- A bus access by the host, which then goes on as `k` says from the block's new state. -/
def viaBus (p : Platform) (acc : BusAccess) (k : State → HostState) : Host.Outcome Platform Fault Refusal :=
  match hostAccess p.block acc with
  | .next s => .next ⟨k s, s⟩
  | .fault f => .fault f
  | .refused r => .refused r

/-- The value the latest host read returned. -/
def latestRead (s : State) : Word := s.reads.headD 0

/-- One statement of the host (R93). -/
def hostStmt (prog : List HostLine) (p : Platform) (st : HostStmt) : Host.Outcome Platform Fault Refusal :=
  let h := p.host
  match st with
  | .wr r e => viaBus p (.write (BitVec.ofNat 32 (regOffset r)) 4 (hostValue h e)) fun _ => h.advance
  | .rd k r => viaBus p (.read (BitVec.ofNat 32 (regOffset r)) 4) fun s => h.assign k (latestRead s)
  | .cmd i => viaBus p (.write (BitVec.ofNat 32 (regOffset .cmd)) 4 (encode i)) fun _ => h.advance
  | .stb m off e => viaBus p (.write (hostAddr m (hostValue h off)) 1 (hostValue h e)) fun _ => h.advance
  | .ldb k m off => viaBus p (.read (hostAddr m (hostValue h off)) 1) fun s => h.assign k (latestRead s)
  | .mov a k => viaBus p (.write (BitVec.ofNat 32 (regOffset (.arg a))) 4 h.vars[k]) fun _ => h.advance
  | .add k e => .next { p with host := h.assign k (h.vars[k] + hostValue h e) }
  | .and k e => .next { p with host := h.assign k (h.vars[k] &&& hostValue h e) }
  | .beq k e l => .next { p with host := if h.vars[k] = hostValue h e then h.goto prog l else h.advance }
  | .bne k e l => .next { p with host := if h.vars[k] ≠ hostValue h e then h.goto prog l else h.advance }
  | .jmp l => .next { p with host := h.goto prog l }
  | .halt => .next { p with host := { h with halted := true } }

/-- The host's turn: its next statement, a statement without a bus access too; a host that has halted, or has no line left,
does nothing (DESIGN CHOICE, log 29). -/
def hostTurn (prog : List HostLine) (p : Platform) : Host.Outcome Platform Fault Refusal :=
  if p.host.halted = true then .next p
  else
    match prog[p.host.at_]? with
    | some ln => hostStmt prog p ln.stmt
    | none => .next p

/-- The sequencer's turn in a platform. -/
def blockTurn (p : Platform) : Host.Outcome Platform Fault Refusal :=
  match sequencerTurn p.block with
  | .next s => .next { p with block := s }
  | .fault f => .fault f
  | .refused r => .refused r

/-- A run of the two agents (spec/70_reset_and_hazards.md R306): `true` is a turn of the host, `false` one of the sequencer. -/
def runPlatform (prog : List HostLine) : List Bool → Platform → Host.Outcome Platform Fault Refusal
  | [], p => .next p
  | t :: ts, p =>
    match (if t = true then hostTurn prog p else blockTurn p) with
    | .next q => runPlatform prog ts q
    | .fault f => .fault f
    | .refused r => .refused r

/-! ### Pseudo-instructions (R94); `l` is a label no other line carries (DESIGN CHOICE, log 29) -/

/-- A line without a label. -/
def plainLine (st : HostStmt) : HostLine := ⟨none, st⟩

/-- `wait` (R94). -/
def waitLines (l : Nat) : List HostLine :=
  [⟨some l, .rd 7 .status⟩, plainLine (.and 7 (.num 1)), plainLine (.bne 7 (.num 0) l)]

/-- `exec M` (R94). -/
def execLines (l : Nat) (i : Instr) : List HostLine := plainLine (.cmd i) :: waitLines l

/-- `st.bytes` (R94); its offset is a numeral, since `o + 1` is (DESIGN CHOICE, log 29). -/
def stBytesLines (m : MemName) : Nat → List Byte → List HostLine
  | _, [] => []
  | o, b :: bs =>
    plainLine (.stb m (.num (BitVec.ofNat 32 o)) (.num (b.setWidth 32))) :: stBytesLines m (o + 1) bs

/-- `crc32 o, n` (R94); `o` and `n` are the values of its two `wr`, any value `e` (DESIGN CHOICE, log 29). -/
def crc32Lines (l : Nat) (o n : HostValue) : List HostLine :=
  [plainLine (.wr (.arg 0) o), plainLine (.wr (.arg 1) n)] ++ execLines l .crcBlock

/-- `check_ok`, whose label `fail` is the number `f` (R94). -/
def checkOkLines (f : Nat) : List HostLine :=
  [plainLine (.rd 7 .status), plainLine (.and 7 (.num 2)), plainLine (.bne 7 (.num 0) f)]

end Sys2Proof.Machine
end

