-- ==== Sys2Proof/Tests/Slice0.lean ====
section
/-! SUPPORT. The model's own tests: each expected value is copied from spec/95_test_vectors.md or from an example of the
rule it names. Then, for every statement with hypotheses, a concrete state and operands that meet them. -/

namespace Sys2Proof.Tests

open Sys2Proof Sys2Proof.Machine Sys2Proof.Claims

-- One theorem after another: as many threads as there are tests here pass the memory the check allows.
set_option Elab.async false

/-! ### Small states -/

def bytesOf (ns : List Nat) : List Byte := ns.map (BitVec.ofNat 8 ·)

/-- The state with bytes put at a block address. -/
def putAt (a : Nat) (ns : List Nat) (s : State) : State := { s with mem := s.mem.writeCells (cellsAt a (bytesOf ns)) }

/-- The state with bytes put in BUF. -/
def withBuf (off : Nat) (ns : List Nat) (s : State) : State := putAt (0x01000000 + off) ns s

/-- The state with ARG0, ARG1, … written. -/
def withArgs (vs : List Nat) (s : State) : State :=
  { s with args := Vector.ofFn fun k : Fin 8 => BitVec.ofNat 32 (vs.getD k.val 0) }

/-- A state with a header loaded and the bytes of an image in IMG. -/
def image (k : PixelKind) (w h : Nat) (st : ImgState) (px : List Nat) : State :=
  putAt 0x02000000 px
    { configure k w h (kindRow k).depth (kindRow k).colorType 0 0 0 State.reset with imgState := st }

/-- One step on a command word answers a next state with the property. -/
def runs (w : Nat) (s : State) (good : State → Bool) : Bool :=
  match step (s.withFetchWord 32 w) with
  | .next t => good t
  | _ => false

/-- One access of the host answers a next state with the property. -/
def bus (a : BusAccess) (s : State) (good : State → Bool) : Bool :=
  match hostAccess s a with
  | .next t => good t
  | _ => false

/-- A host access stops on a byte never written, at that address. -/
def busStops (a : BusAccess) (s : State) (x : Nat) : Bool :=
  match hostAccess s a with
  | .fault f => f == .uninitRead x
  | _ => false

/-- STATUS, ERR_A and ERR_B. -/
def statusOf (s : State) : List Nat := [(statusWord s).toNat, s.errA.toNat, s.errB.toNat]

def bufOf (s : State) (off n : Nat) : Option (List Byte) := s.mem.readBytes (0x01000000 + off) n
def imgOf (s : State) (off n : Nat) : Option (List Byte) := s.mem.readBytes (0x02000000 + off) n
def resOf (s : State) : List Nat := s.res.toList.map (·.toNat)

def ihdrTag : List Nat := [0x49, 0x48, 0x44, 0x52]
def iendChunk : List Nat := [0, 0, 0, 0, 0x49, 0x45, 0x4E, 0x44, 0xAE, 0x42, 0x60, 0x82]
def signature : List Nat := [0x89, 0x50, 0x4E, 0x47, 0x0D, 0x0A, 0x1A, 0x0A]

/-- The carrier of spec/95_test_vectors.md §2.9: a 4×2 RGB8 image of zeros. -/
def carrier : State := image .rgb8 4 2 .raw (List.replicate 26 0)

/-- The carrier with the frame of the body `03 00` (§2.9). -/
def framed : State :=
  image .rgb8 4 2 .raw
    ([0, 6, 4, 3, 4, 4, 4, 2, 0, 0, 0, 0, 0] ++ [0, 0, 0, 3, 0, 0, 0, 4, 4, 3, 4, 6, 4])

/-- A 1×2 G8 image of the stream of spec/43_filter.md R192's example. -/
def column (st : ImgState) (px : List Nat) : State := image .g8 1 2 st px

/-- The four-byte lines of spec/95_test_vectors.md §2.7: the current one at 0, the previous one at 0x10, the destination
at 0x20, kind G8. -/
def lines (cur prev : List Nat) : State :=
  withArgs [0, 0x10, 0x20, 0x303, 4, 4] (withBuf 0x10 prev (withBuf 0 cur State.reset))

/-! ### Well-formedness and decoding -/

/-- SEL has three bits (spec/30_encoding.md R84). -/
theorem test_wellFormed_refuses_wide_sel :
    (Instr.lineFilter 8 false).wf = false ∧ (Instr.imgFilter 8).wf = false ∧ (Instr.imgFilter 7).wf = true := by decide

/-- The words of the sequencer and the CRC unit, by R83, R84 and R92. -/
theorem test_decode_crc_words :
    decode 0x00000000 = .ok .nop ∧ decode 0x00000001 = .ok .crcInit ∧ decode 0x00000002 = .ok .crcUpdate ∧
    decode 0x00000003 = .ok .crcFinal ∧ decode 0x00000004 = .ok .crcBlock ∧ decode 0x00000005 = .ok .sigCheck ∧
    decode 0x00000006 = .ok (.chunkCheck false) ∧ decode 0x00000106 = .ok (.chunkCheck true) ∧
    decode 0x00000007 = .ok .chunkEmit := by decide

/-- The words of the pixel unit, by R83. -/
theorem test_decode_pixel_words :
    decode 0x00000010 = .ok .hdrLoad ∧ decode 0x00000011 = .ok .pixRead ∧ decode 0x00000012 = .ok .pixWrite ∧
    decode 0x00000013 = .ok .imgImport ∧ decode 0x00000014 = .ok .imgExport ∧ decode 0x00000015 = .ok .imgZero := by
  decide

/-- The words of the filter unit, by R83, R84 and R92. -/
theorem test_decode_filter_words :
    decode 0x00000020 = .ok (.lineRecon false) ∧ decode 0x00000820 = .ok (.lineRecon true) ∧
    decode 0x00000421 = .ok (.lineFilter 4 false) ∧ decode 0x00000D21 = .ok (.lineFilter 5 true) ∧
    decode 0x00000F21 = .ok (.lineFilter 7 true) ∧ decode 0x00000022 = .ok .imgRecon ∧
    decode 0x00000523 = .ok (.imgFilter 5) := by decide

/-- The words of the stego unit, by R83. -/
theorem test_decode_stego_words :
    decode 0x00000030 = .ok .stgRead ∧ decode 0x00000031 = .ok .stgWrite ∧ decode 0x00000032 = .ok .stgFrame ∧
    decode 0x00000033 = .ok .stgDetect ∧ decode 0x00000034 = .ok .stgExtract := by decide

/-- Illegal words, each for its reason (R85 and §2.4). -/
theorem test_decode_illegal_words :
    decode 0x00010000 = .error .reservedBits ∧ decode 0x00000008 = .error .unknownOpcode ∧
    decode 0x00000035 = .error .unknownOpcode ∧ decode 0x000000FF = .error .unknownOpcode ∧
    decode 0x00000100 = .error .undefinedMode ∧ decode 0x00000206 = .error .undefinedMode ∧
    decode 0x00001023 = .error .undefinedMode ∧ decode 0x00000120 = .error .undefinedMode := by decide

/-- A word the host numbers as the opcode table does (IMG_FILTER.S5), and one that is no command. -/
theorem test_decodeTableWord :
    decodeTableWord 32 0x523 = some (.imgFilter 5) ∧ decodeTableWord 32 0x10000 = none := by decide

/-- The suffixes of R92. -/
theorem test_asmText : asmText (.lineFilter 5 true) = "LINE_FILTER.S5.P" ∧ asmText (.chunkCheck true) = "CHUNK_CHECK.V" := by
  decide

/-- §2.4: an illegal word raises IllegalCommand with the word as ERR_A. -/
theorem test_illegal_command : runs 0x1023 State.reset (fun t => statusOf t == [0x1906, 0x1023, 0]) = true := by
  decide +kernel

/-! ### NOP and the CRC unit (§2.1 to §2.4) -/

/-- NOP after a failure leaves only STICKY. -/
theorem test_nop : runs 0x0 { State.reset with err := true, sticky := true, code := .badCrc, errA := 1, errB := 2 }
    (fun t => statusOf t == [4, 0, 0]) = true := by decide +kernel

theorem test_crcInit : runs 0x1 { State.reset with crcState := 5 } (fun t => t.crcState == 0xFFFFFFFF) = true := by
  decide +kernel

/-- §2.1, step 2 of the register sequence. -/
theorem test_crcUpdate : runs 0x2 (withArgs [0, 2] (withBuf 0 ihdrTag State.reset))
    (fun t => t.crcState == 0xE79AD0EE) = true := by decide +kernel

theorem test_crcUpdate_bounds : runs 0x2 (withArgs [0xFFF, 2] State.reset)
    (fun t => statusOf t == [0xD06, 0x1001, 0x1000] && t.crcState == 0xFFFFFFFF) = true := by decide +kernel

/-- §2.1, step 4: CRC_STATE stays. -/
theorem test_crcFinal : runs 0x3 { State.reset with crcState := 0x575E51F5 }
    (fun t => resOf t == [0xA8A1AE0A, 0, 0, 0, 0, 0, 0, 0] && t.crcState == 0x575E51F5) = true := by decide +kernel

/-- The source's own check value, P7 (§1.1). -/
theorem test_crcBlock_ihdr : runs 0x4 (withArgs [0, 4] (withBuf 0 ihdrTag State.reset))
    (fun t => t.res[0] == 0xA8A1AE0A) = true := by decide +kernel

/-- The check value of "123456789". -/
theorem test_crcBlock_digits :
    runs 0x4 (withArgs [0, 9] (withBuf 0 [0x31, 0x32, 0x33, 0x34, 0x35, 0x36, 0x37, 0x38, 0x39] State.reset))
      (fun t => t.res[0] == 0xCBF43926) = true := by decide +kernel

theorem test_sigCheck : runs 0x5 (withArgs [0, 60] (withBuf 0 signature State.reset))
    (fun t => t.res[0] == 8 && statusOf t == [0, 0, 0]) = true := by decide +kernel

/-- R125's example. -/
theorem test_sigCheck_bad : runs 0x5 (withArgs [0, 8] (withBuf 1 [0x51] (withBuf 0 signature State.reset)))
    (fun t => statusOf t == [0x106, 0x89514E47, 0x0D0A1A0A]) = true := by decide +kernel

/-- CC-3. -/
theorem test_chunkCheck : runs 0x106 (withArgs [0, 12] (withBuf 0 iendChunk State.reset))
    (fun t => resOf t == [0, 0x49454E44, 0xAE426082, 0xAE426082, 8, 12, 1, 0]) = true := by decide +kernel

/-- CC-4. -/
theorem test_chunkCheck_badCrc : runs 0x106 (withArgs [0, 12] (withBuf 11 [0x83] (withBuf 0 iendChunk State.reset)))
    (fun t => statusOf t == [0x306, 0xAE426083, 0xAE426082]) = true := by decide +kernel

/-- CE-1. -/
theorem test_chunkEmit : runs 0x7 (withArgs [0, 0, 0x49454E44, 0x40] State.reset)
    (fun t => bufOf t 0x40 12 == some (bytesOf iendChunk) && (resOf t).take 2 == [0xAE426082, 0x4C]) = true := by
  decide +kernel

/-- R127: the length limit is the first test. -/
theorem test_chunkEmit_long : runs 0x7 (withArgs [0, 0x80000000, 0x49454E44, 0] State.reset)
    (fun t => statusOf t == [0xF06, 0x80000000, 0x7FFFFFFF]) = true := by decide +kernel

/-! ### The pixel unit (§2.5) -/

/-- The header of a 2×2 RGB8 image: KIND_INFO and the derived registers (R150's example). -/
theorem test_hdrLoad : runs 0x10 (withBuf 0 [0, 0, 0, 2, 0, 0, 0, 2, 8, 2, 0, 0, 0] State.reset)
    (fun t => kindInfoWord t == 0x08311835 && [t.stride, t.spanCount, t.imgLen, t.capBits, t.capBytes] == [6, 2, 14, 48, 6] &&
      imgInfoWord t == 1 && t.hdrFields == 0x0208) = true := by decide +kernel

/-- A width and a height whose product passes 2^32: the sizes are exact. -/
theorem test_hdrLoad_huge :
    runs 0x10 (withBuf 0 [255, 255, 255, 255, 255, 255, 255, 255, 16, 6, 0, 0, 0] State.reset)
      (fun t => statusOf t == [0xE06, 0x1000, 0xFFFFFFFF]) = true := by decide +kernel

/-- The third pixel of the G2 byte E4 (§2.5). -/
theorem test_pixRead : runs 0x11 (withArgs [0, 0, 2] (image .g2 4 1 .raw [0, 0xE4]))
    (fun t => (resOf t).take 3 == [1, 0, 1]) = true := by decide +kernel

/-- Big-endian 16-bit channels packed in pairs (§2.5). -/
theorem test_pixRead_wide : runs 0x11 (image .rgb16 1 1 .raw [0, 0x12, 0x34, 0x56, 0x78, 0x9A, 0xBC])
    (fun t => (resOf t).take 3 == [0x56781234, 0x9ABC, 6]) = true := by decide +kernel

theorem test_pixWrite : runs 0x12 (withArgs [0, 0, 2, 1, 3, 0] (image .g2 4 1 .raw [0, 0xE4]))
    (fun t => imgOf t 0 2 == some (bytesOf [0, 0xEC])) = true := by decide +kernel

theorem test_pixWrite_range : runs 0x12 (withArgs [0, 0, 2, 1, 4, 0] (image .g2 4 1 .raw [0, 0xE4]))
    (fun t => statusOf t == [0xF06, 4, 3]) = true := by decide +kernel

theorem test_imgImport : runs 0x13 (withArgs [0x100, 4] (withBuf 0x100 [1, 5, 2, 3] (image .g8 1 2 .empty [])))
    (fun t => imgOf t 0 4 == some (bytesOf [1, 5, 2, 3]) && t.res[0] == 4 && imgInfoWord t == 3) = true := by decide +kernel

theorem test_imgExport : runs 0x14 (withArgs [0x200] (column .filtered [1, 5, 2, 3]))
    (fun t => bufOf t 0x200 4 == some (bytesOf [1, 5, 2, 3]) && (resOf t).take 2 == [4, 0x204]) = true := by decide +kernel

theorem test_imgZero : runs 0x15 (image .rgb8 2 2 .empty [])
    (fun t => imgOf t 0 14 == some (List.replicate 14 0) && imgInfoWord t == 5) = true := by decide +kernel

/-! ### The filter unit (§2.6 to §2.8) -/

/-- The Paeth tie orders of §2.6. -/
theorem test_paeth : paeth 10 20 15 = 15 ∧ paeth 3 7 5 = 5 ∧ paeth 5 5 5 = 5 ∧ paeth 0 255 128 = 128 ∧ paeth 1 2 3 = 1 := by
  decide

/-- Average over a previous line. -/
theorem test_lineRecon : runs 0x820 (lines [3, 1, 2, 3, 4] [0, 0x10, 0x20, 0x30, 0x40])
    (fun t => bufOf t 0x20 5 == some (bytesOf [0, 9, 0x16, 0x26, 0x37])) = true := by decide +kernel

/-- Sums wrap at 256. -/
theorem test_lineRecon_wraps : runs 0x20 (withArgs [0, 0, 0x20, 3, 3] (withBuf 0 [1, 0xF0, 0x20, 0xFF] State.reset))
    (fun t => bufOf t 0x20 4 == some (bytesOf [0, 0xF0, 0x10, 0x0F])) = true := by decide +kernel

/-- The selector with a previous line: Up wins the tie with Paeth. -/
theorem test_lineFilter : runs 0xD21 (lines [0, 0x11, 0x22, 0x33, 0x44] [0, 0x10, 0x20, 0x30, 0x40])
    (fun t => bufOf t 0x20 5 == some (bytesOf [2, 1, 2, 3, 4]) && resOf t == [2, 170, 68, 10, 40, 10, 5, 0]) = true := by
  decide +kernel

/-- Signed scores: bytes of 128 and above count as negative. -/
theorem test_lineFilter_signed :
    runs 0x521 (withArgs [0, 0, 0x20, 3, 4] (withBuf 0 [0, 0x80, 0x80, 0x80, 0x80] State.reset))
      (fun t => bufOf t 0x20 5 == some (bytesOf [3, 0x80, 0x40, 0x40, 0x40]) &&
        (resOf t).take 6 == [3, 512, 128, 512, 64, 128]) = true := by decide +kernel

/-- R192's example. -/
theorem test_imgRecon : runs 0x22 (column .filtered [1, 5, 2, 3])
    (fun t => imgOf t 0 4 == some (bytesOf [0, 5, 0, 8]) && imgInfoWord t == 5) = true := by decide +kernel

/-- A bad tag writes nothing. -/
theorem test_imgRecon_badTag : runs 0x22 (column .filtered [0, 5, 7, 3])
    (fun t => statusOf t == [0x706, 7, 1] && imgOf t 0 4 == some (bytesOf [0, 5, 7, 3]) && imgInfoWord t == 3) = true := by
  decide +kernel

/-- R193's example. -/
theorem test_imgFilter : runs 0x223 (column .raw [0, 5, 0, 8])
    (fun t => imgOf t 0 4 == some (bytesOf [2, 5, 2, 3]) && imgInfoWord t == 3) = true := by decide +kernel

/-- Program P4: padding is cleared before filtering. -/
theorem test_imgFilter_padding : runs 0x223 (image .g2 5 2 .raw [0, 0xE4, 0xFF, 0, 0x1B, 0x7F])
    (fun t => imgOf t 0 6 == some (bytesOf [2, 0xE4, 0xC0, 2, 0x37, 0x80])) = true := by decide +kernel

/-! ### The stego unit (§2.9) -/

/-- An odd nibble offset straddles bytes. -/
theorem test_stgRead : runs 0x30 (withArgs [4, 2, 0x70] framed)
    (fun t => bufOf t 0x70 2 == some (bytesOf [0x34, 0x44])) = true := by decide +kernel

theorem test_stgRead_bounds : runs 0x30 (withArgs [0, 1, 0x1000] carrier)
    (fun t => statusOf t == [0xD06, 0x1001, 0x1000]) = true := by decide +kernel

/-- Alpha is skipped, high nibbles stay. -/
theorem test_stgWrite :
    runs 0x31 (withArgs [0, 3, 0] (withBuf 0 [0x21, 0x43, 0x65]
      (image .rgba8 2 1 .raw [0, 0x10, 0x20, 0x30, 0x40, 0x50, 0x60, 0x70, 0x80])))
      (fun t => imgOf t 0 9 == some (bytesOf [0, 0x11, 0x22, 0x33, 0x40, 0x54, 0x65, 0x76, 0x80])) = true := by
  decide +kernel

theorem test_stgWrite_offset : runs 0x31 (withArgs [2, 1, 0x10] carrier)
    (fun t => statusOf t == [0x1506, 2, 0]) = true := by decide +kernel

theorem test_stgFrame : runs 0x32 (withArgs [0x40, 2] (withBuf 0x40 [3, 0] carrier))
    (fun t => imgOf t 0 26 == imgOf framed 0 26 && t.res[0] == 12) = true := by decide +kernel

theorem test_stgFrame_small : runs 0x32 (withArgs [0x40, 3] carrier)
    (fun t => statusOf t == [0x1406, 12, 13]) = true := by decide +kernel

theorem test_stgDetect : runs 0x33 framed (fun t => (resOf t).take 2 == [1, 2]) = true := by decide +kernel

theorem test_stgDetect_damaged : runs 0x33 (putAt 0x02000019 [0] framed) (fun t => (resOf t).take 2 == [0, 0]) = true := by
  decide +kernel

theorem test_stgExtract : runs 0x34 (withArgs [0x80] framed)
    (fun t => bufOf t 0x80 2 == some (bytesOf [3, 0]) && t.res[0] == 2) = true := by decide +kernel

theorem test_stgExtract_absent : runs 0x34 (withArgs [0x80] carrier)
    (fun t => statusOf t == [0x1606, 0, 0]) = true := by decide +kernel

/-! ### The host's accesses and the resets (§2.4) -/

/-- The register values after hardware reset that are not 0. -/
theorem test_reset_registers :
    bus (.read 0x060 4) State.reset (fun t => t.reads == [0xFFFFFFFF]) = true ∧
    bus (.read 0x090 4) State.reset (fun t => t.reads == [0x0000000F]) = true ∧
    bus (.read 0x0C8 4) State.reset (fun t => t.reads == [3]) = true := by decide +kernel

/-- Reset memory is in canonical form. -/
theorem test_reset_memory : State.reset.mem.wf := by decide

/-- §2.4: CTRL = 1 clears STICKY only. -/
theorem test_clear_sticky : bus (.write 0x008 4 1) { State.reset with sticky := true }
    (fun t => statusOf t == [0, 0, 0]) = true := by decide +kernel

/-- §2.4: a soft reset keeps the image's bytes. -/
theorem test_soft_reset : bus (.write 0x008 4 2) (column .raw [0, 5, 0, 8])
    (fun t => imgInfoWord t == 0 && imgOf t 0 4 == some (bytesOf [0, 5, 0, 8])) = true := by decide +kernel

/-- A four-byte write is little-endian (spec/20_memory.md R62). -/
theorem test_host_write : bus (.write 0x01000004 4 0x0D000000) State.reset
    (fun t => bufOf t 4 4 == some (bytesOf [0, 0, 0, 0xD])) = true := by decide +kernel

/-! ### Witnesses: states and operands that meet the hypotheses of the statements -/

/-- The fields of the invariant, over a configured state, as one decidable proposition. -/
abbrev invCheck (k : PixelKind) (s : State) : Prop :=
  (s.params.legal ∧ s.mem.wf ∧ (∀ c ∈ s.mem, mapped s.params c.1) ∧ s.pending = s.busy ∧
    (s.err = true ↔ s.code ≠ .ok) ∧ (s.code = .ok → s.errA = 0 ∧ s.errB = 0)) ∧
  (s.cfgValid = true ∧ s.kind = some k ∧ 1 ≤ s.width.toNat ∧ 1 ≤ s.height.toNat ∧
    s.hdrFields = hdrFieldsOf (kindRow k).depth (kindRow k).colorType 0 0 ∧ s.hdrInterlace = 0) ∧
  (s.stride.toNat = strideOf (kindRow k) s.width.toNat ∧ s.spanCount.toNat = spanCountOf (kindRow k) s.width.toNat ∧
    s.imgLen.toNat = s.height.toNat * (1 + s.stride.toNat) ∧ s.imgLen.toNat ≤ s.params.imgBytes ∧
    s.capBits.toNat = capBitsOf k s.width.toNat s.height.toNat ∧ s.capBytes.toNat = s.capBits.toNat / 8) ∧
  (s.imgState ≠ .empty → s.cfgValid = true ∧ ∀ j < s.imgLen.toNat, (s.mem.read (imgBase + j)).isSome = true)

theorem inv_of_check {k : PixelKind} {s : State} (h : invCheck k s) : BlockInv s := by
  obtain ⟨⟨h1, h2, h3, h4, h5, h6⟩, ⟨c1, c2, c3, c4, c5, c6⟩, ⟨d1, d2, d3, d4, d5, d6⟩, h8⟩ := h
  exact ⟨h1, h2, h3, h4, h5, h6, .inr ⟨k, c1, c2, c3, c4, c5, c6, d1, d2, d3, d4, d5, d6⟩, h8⟩

theorem inv_carrier : BlockInv carrier := inv_of_check (k := .rgb8) (by decide +kernel)
theorem inv_framed : BlockInv framed := inv_of_check (k := .rgb8) (by decide +kernel)
theorem inv_column_raw : BlockInv (column .raw [0, 5, 0, 8]) := inv_of_check (k := .g8) (by decide +kernel)
theorem inv_column_filtered : BlockInv (column .filtered [4, 5, 2, 3]) := inv_of_check (k := .g8) (by decide +kernel)

/-- A next state with a property exists when evaluating the outcome finds it. -/
theorem next_of {o : Host.Outcome State Fault Refusal} {P : State → Prop} [DecidablePred P]
    (h : (match o with | .next t => decide (P t) | _ => false) = true) : ∃ t, o = .next t ∧ P t := by
  cases o with
  | next t => exact ⟨t, rfl, of_decide_eq_true h⟩
  | fault _ => cases h
  | refused _ => cases h

/-- The command completes. -/
abbrev completes (i : Instr) (s : State) : Prop := ∃ t, exec i s = .next t ∧ t.err = false

/-- The command raises an error. -/
abbrev raises (i : Instr) (s : State) (e : ErrorCode) : Prop := ∃ t, exec i s = .next t ∧ t.err = true ∧ t.code = e

/-- DecodeOfEncode, at the greatest SEL. -/
theorem witness_decodeOfEncode : (Instr.lineFilter 7 true).wf = true := by decide

theorem witness_encodeOfDecode : decode 0x00000F21 = .ok (.lineFilter 7 true) := by decide

/-- Each of the three ways a word is illegal, at its boundary, and a word that is none. -/
theorem witness_everyWordRunsOrIsIllegal :
    (issueCommand 0x00010000 State.reset).pending = true ∧ illegalWord (issueCommand 0x00010000 State.reset).cmd ∧
    illegalWord 0x00000035 ∧ illegalWord 0x00000100 ∧ ¬illegalWord 0x00000F21 := by
  refine ⟨rfl, ?_, ?_, ?_, ?_⟩ <;> unfold illegalWord <;> decide

theorem witness_stepRunsDecodedCommand :
    (issueCommand 0x4 State.reset).pending = true ∧ decode (issueCommand 0x4 State.reset).cmd = .ok .crcBlock ∧
    (issueCommand 0x4 State.reset).schedule = [] ∧
    (presentCommand 0x4 State.reset).pending = true ∧ (presentCommand 0x4 State.reset).schedule = [.sequencer] ∧
    State.reset.pending = false ∧ State.reset.schedule = [] := by decide

/-- StepRunsDecodedCommand, its other clauses: a pending illegal word with and without a turn scheduled, a host's turn, and a
sequencer's turn while nothing is pending. -/
theorem witness_stepRunsDecodedCommand_otherTurns :
    (issueCommand 0x100 State.reset).pending = true ∧ illegalWord (issueCommand 0x100 State.reset).cmd ∧
    (issueCommand 0x100 State.reset).schedule = [] ∧ (presentCommand 0x100 State.reset).schedule = [.sequencer] ∧
    { State.reset with schedule := [.host (.read 0x060 4)] }.schedule = Event.host (.read 0x060 4) :: [] ∧
    { State.reset with schedule := [.sequencer] }.pending = false := by
  refine ⟨rfl, ?_, rfl, rfl, rfl, rfl⟩
  unfold illegalWord; decide

/-- FailedCommandChangesOnlyStatus. -/
theorem witness_failedCommand : raises .pixRead State.reset .noHeaderChunk := next_of (by decide +kernel)

/-- CompletedCommandClearsError, and the statements about every next state of a command. -/
theorem witness_completedCommand : completes .nop State.reset := next_of (by decide +kernel)

theorem witness_commandsStop :
    exec .crcBlock (withArgs [0, 1] State.reset) = .fault (.uninitRead 0x01000000) ∧
    State.reset.mem.read 0x01000000 = none := by
  refine ⟨?_, rfl⟩
  rfl

theorem witness_commandsKeepOperands : completes .imgZero carrier := next_of (by decide +kernel)

theorem witness_onlyCrcCommands :
    (Instr.crcFinal ≠ .crcInit ∧ Instr.crcFinal ≠ .crcUpdate) ∧ completes .crcFinal State.reset :=
  ⟨by decide, next_of (by decide +kernel)⟩

theorem witness_onlyHdrLoad : Instr.imgZero ≠ .hdrLoad ∧ completes .imgZero carrier := ⟨by decide, next_of (by decide +kernel)⟩

/-- ImageStateTransitions: one state for each of its cases. -/
theorem witness_imageStateTransitions :
    completes .hdrLoad (withBuf 0 [0, 0, 0, 2, 0, 0, 0, 2, 8, 2, 0, 0, 0] State.reset) ∧
    completes .imgImport (withArgs [0x100, 4] (withBuf 0x100 [1, 5, 2, 3] (image .g8 1 2 .empty []))) ∧
    completes (.imgFilter 5) (column .raw [0, 5, 0, 8]) ∧ completes .imgRecon (column .filtered [4, 5, 2, 3]) ∧
    completes .imgZero carrier ∧ completes .stgDetect framed ∧ raises .imgRecon (column .filtered [5, 5, 2, 3]) .invalidFilterType :=
  ⟨next_of (by decide +kernel), next_of (by decide +kernel), next_of (by decide +kernel), next_of (by decide +kernel),
    next_of (by decide +kernel), next_of (by decide +kernel), next_of (by decide +kernel)⟩

theorem witness_namedResults : completes .stgDetect framed ∧ (2 : Fin 8).val ∉ resultsOf .stgDetect :=
  ⟨next_of (by decide +kernel), by decide⟩

theorem witness_registerCommands :
    storesNothing (.chunkCheck true) ∧ completes (.chunkCheck true) (withArgs [0, 12] (withBuf 0 iendChunk State.reset)) :=
  ⟨trivial, next_of (by decide +kernel)⟩

/-- BufferCommandsStoreOnlyDestination: each command completes, and the first address after its destination. -/
theorem witness_bufferCommands :
    completes .chunkEmit (withArgs [0, 0, 0x49454E44, 0x40] State.reset) ∧ bufBase + 0x40 + (12 + 0) ≤ 0x0100004C ∧
    completes .imgExport (withArgs [0x200] (column .filtered [1, 5, 2, 3])) ∧
    bufBase + 0x200 + (column .filtered [1, 5, 2, 3]).imgLen.toNat ≤ 0x01000204 ∧
    completes .stgRead (withArgs [4, 2, 0x70] framed) ∧ bufBase + 0x70 + 2 ≤ 0x01000072 ∧
    (∃ t, exec .stgExtract (withArgs [0x80] framed) = .next t ∧ t.err = false ∧
      bufBase + 0x80 + (t.res[0]).toNat ≤ 0x01000082) :=
  ⟨next_of (by decide +kernel), by decide, next_of (by decide +kernel), by decide, next_of (by decide +kernel), by decide,
    next_of (by decide +kernel)⟩

theorem witness_lineCommands :
    completes (.lineRecon true) (lines [3, 1, 2, 3, 4] [0, 1, 1, 1, 1]) ∧
    completes (.lineFilter 5 true) (lines [3, 1, 2, 3, 4] [0, 1, 1, 1, 1]) ∧
    lineDestination (lines [3, 1, 2, 3, 4] [0, 1, 1, 1, 1]) = some (0x01000020, 5) :=
  ⟨next_of (by decide +kernel), next_of (by decide +kernel), by decide +kernel⟩

theorem witness_imageCommands :
    BlockInv (withArgs [1, 0, 0, 3, 7] (column .raw [0, 5, 0, 8])) ∧
    completes .pixWrite (withArgs [1, 0, 0, 3, 7] (column .raw [0, 5, 0, 8])) ∧
    spanAddr (withArgs [1, 0, 0, 3, 7] (column .raw [0, 5, 0, 8])) 1 0 = 0x02000003 ∧
    completes (.imgFilter 5) (withArgs [1, 0, 0, 3, 7] (column .raw [0, 5, 0, 8])) ∧
    imgBase + (column .raw [0, 5, 0, 8]).imgLen.toNat ≤ 0x02000004 :=
  ⟨inv_of_check (k := .g8) (by decide +kernel), next_of (by decide +kernel), by decide +kernel, next_of (by decide +kernel),
    by decide⟩

/-- StegoWritesOnlyAddressedNibbles: an address after the nibbles written, and one of them. -/
theorem witness_stegoWrites :
    completes .stgWrite (withArgs [4, 1, 0] (withBuf 0 [0xA5] carrier)) ∧
    (∀ q, 4 / 4 ≤ q → q < 4 / 4 + 2 * 1 → 0x02000004 ≠ nibAddr carrier q) ∧
    (∃ t, exec .stgWrite (withArgs [4, 1, 0] (withBuf 0 [0xA5] carrier)) = .next t ∧
      carrier.mem.read 0x02000002 = some 0 ∧ t.mem.read 0x02000002 = some 5) ∧
    completes .stgFrame (withArgs [0, 1] (withBuf 0 [7] carrier)) ∧
    ∀ q < 2 * (1 + 10), 0x02000018 ≠ nibAddr carrier q :=
  ⟨next_of (by decide +kernel), by decide +kernel, next_of (by decide +kernel), next_of (by decide +kernel),
    by decide +kernel⟩

/-- CrcRangeCommandsFollowTheirRules: a range that ends at BUF's last byte, and one that passes it. -/
theorem witness_crcRange :
    (let s := withArgs [0xFFE, 2] (withBuf 0xFFE [1, 2] State.reset)
     s.mem.readBytes (bufBase + s.arg 0) (s.arg 1) = some [1, 2] ∧ s.arg 0 + s.arg 1 ≤ s.params.bufBytes ∧
       completes .crcUpdate s ∧ completes .crcBlock s) ∧
    raises .crcBlock (withArgs [0xFFF, 2] State.reset) .outOfBounds :=
  ⟨⟨by decide +kernel, by decide, next_of (by decide +kernel), next_of (by decide +kernel)⟩, next_of (by decide +kernel)⟩

theorem witness_crcUpdateSplits :
    let s := withBuf 0xFFC [1, 2, 3, 4] State.reset
    s.params.legal ∧ 0xFFC + 1 + 3 ≤ s.params.bufBytes ∧ s.mem.readBytes (bufBase + 0xFFC) 1 = some [1] ∧
      s.mem.readBytes (bufBase + 0xFFC + 1) 3 = some [2, 3, 4] := by
  refine ⟨?_, ?_, ?_, ?_⟩ <;> decide +kernel

/-- SigCheckFollowsItsRule: accepted with exactly eight bytes, and each of its errors. -/
theorem witness_sigCheck :
    (let s := withArgs [0, 8] (withBuf 0 signature State.reset)
     s.mem.readBytes (bufBase + s.arg 0) 8 = some (bytesOf signature) ∧ completes .sigCheck s) ∧
    raises .sigCheck (withArgs [0, 7] State.reset) .truncated ∧
    raises .sigCheck (withArgs [0xFF9, 8] State.reset) .outOfBounds ∧
    raises .sigCheck (withArgs [0, 8] (withBuf 0 iendChunk State.reset)) .badSignature :=
  ⟨⟨by decide +kernel, next_of (by decide +kernel)⟩, next_of (by decide +kernel), next_of (by decide +kernel),
    next_of (by decide +kernel)⟩

/-- ChunkCheckFollowsItsRule: a chunk with a byte of data, accepted with exactly the bytes it needs, and errors. -/
theorem witness_chunkCheck :
    (let s := withArgs [0, 13] (withBuf 0 [0, 0, 0, 1, 0x49, 0x44, 0x41, 0x54, 9, 0, 0, 0, 0] State.reset)
     s.mem.readBytes (bufBase + s.arg 0) 8 = some [0, 0, 0, 1, 0x49, 0x44, 0x41, 0x54] ∧
       s.mem.readBytes (bufBase + s.arg 0 + 8) 1 = some [9] ∧
       s.mem.readBytes (bufBase + s.arg 0 + 8 + 1) 4 = some [0, 0, 0, 0] ∧
       completes (.chunkCheck false) s ∧ raises (.chunkCheck true) s .badCrc) ∧
    raises (.chunkCheck true) (withArgs [0, 11] (withBuf 0 iendChunk State.reset)) .truncated :=
  ⟨⟨by decide +kernel, by decide +kernel, by decide +kernel, next_of (by decide +kernel), next_of (by decide +kernel)⟩,
    next_of (by decide +kernel)⟩

/-- ChunkEmitFollowsItsRule: a frame that ends at BUF's last byte, over its own data; EmittedChunkPassesCheck too. -/
theorem witness_chunkEmit :
    (let s := withArgs [0xFF3, 1, 0x49444154, 0xFF3] (withBuf 0xFF3 [7] State.reset)
     s.params.legal ∧ s.mem.readBytes (bufBase + s.arg 0) (s.arg 1) = some [7] ∧ completes .chunkEmit s) ∧
    raises .chunkEmit (withArgs [0, 0, 0x49444154, 0xFF5] State.reset) .outOfBounds ∧
    raises .chunkEmit (withArgs [0, 0x80000000, 0x49444154, 0] State.reset) .integerOverflow :=
  ⟨⟨by decide +kernel, by decide +kernel, next_of (by decide +kernel)⟩, next_of (by decide +kernel),
    next_of (by decide +kernel)⟩

/-- DamagedChunkRaisesBadCrc: the last byte of the data of `00 00 00 00` with its CRC for the tag IDAT. -/
theorem witness_damagedChunk :
    let s := withArgs [0, 13] (withBuf 0 [0, 0, 0, 1, 0x49, 0x44, 0x41, 0x54, 9] State.reset)
    let c := (crc32 [0x49, 0x44, 0x41, 0x54, 9]).toNat
    let s := { s with mem := s.mem.writeCells (cellsAt (bufBase + 9) (toBe32 c)) }
    s.params.legal ∧ (∃ t, exec (.chunkCheck true) s = .next t ∧ t.err = false ∧ 0 < (t.res[0]).toNat) ∧
      s.mem.read (bufBase + s.arg 0 + 8 + 0) = some 9 ∧ (8 : Byte) ≠ 9 :=
  ⟨by decide +kernel, next_of (by decide +kernel), by decide +kernel, by decide⟩

/-- StrideIsSpansTimesSpanBytes: the first and the last row of the kind table, and the least width. -/
theorem witness_stride :
    (PixelKind.g1, [0, 0, 1, 1, 1, 8, 1]) ∈ kindTable ∧ (PixelKind.rgba16, [14, 6, 16, 4, 64, 1, 8]) ∈ kindTable ∧ 1 ≤ 1 := by
  decide

/-- HdrLoadFollowsItsRule: an accepted header, the least need above IMG_BYTES, and a colour type of no kind. -/
theorem witness_hdrLoad :
    (let hd := bytesOf [0, 0, 0, 2, 0, 0, 0, 2, 8, 2, 0, 0, 0]
     let s := withBuf 0 [0, 0, 0, 2, 0, 0, 0, 2, 8, 2, 0, 0, 0] State.reset
     s.mem.readBytes (bufBase + s.arg 0) 13 = some hd ∧
       (∀ k, kindOf (byteAt hd 9) (byteAt hd 8) = some k → k = .rgb8) ∧ completes .hdrLoad s) ∧
    raises .hdrLoad (withBuf 0 [0, 0, 0x08, 0x01, 0, 0, 0, 2, 8, 0, 0, 0, 0] State.reset) .insufficientSize ∧
    raises .hdrLoad (withBuf 0 [0, 0, 0, 2, 0, 0, 0, 2, 8, 5, 0, 0, 0] State.reset) .invalidColorType ∧
    raises .hdrLoad (withArgs [0xFF4] State.reset) .outOfBounds :=
  ⟨⟨by decide +kernel, fun k h => (Option.some.inj (h.symm.trans (by decide +kernel : _ = some PixelKind.rgb8))),
    next_of (by decide +kernel)⟩, next_of (by decide +kernel), next_of (by decide +kernel), next_of (by decide +kernel)⟩

/-- PixReadFollowsItsRule: the last span and sample, and the first indices past them. -/
theorem witness_pixRead :
    (let s := withArgs [1, 0, 3] (image .g2 4 2 .raw [0, 0xE4, 0, 0x1B])
     s.mem.readBytes (spanAddr s (s.arg 0) (s.arg 1)) s.kindRow.spanBytes = some [0x1B] ∧ completes .pixRead s) ∧
    raises .pixRead (withArgs [2, 0, 0] (image .g2 4 2 .raw [0, 0xE4, 0, 0x1B])) .outOfBounds ∧
    raises .pixRead (withArgs [1, 0, 4] (image .g2 4 2 .raw [0, 0xE4, 0, 0x1B])) .outOfBounds :=
  ⟨⟨by decide +kernel, next_of (by decide +kernel)⟩, next_of (by decide +kernel), next_of (by decide +kernel)⟩

/-- PixWriteFollowsItsRule: the greatest sample value and the first past it, and the kind checks. -/
theorem witness_pixWrite :
    (let s := withArgs [1, 0, 3, 1, 3] (image .g2 4 2 .raw [0, 0xE4, 0, 0x1B])
     s.mem.readBytes (spanAddr s (s.arg 0) (s.arg 1)) s.kindRow.spanBytes = some [0x1B] ∧ completes .pixWrite s) ∧
    raises .pixWrite (withArgs [1, 0, 3, 1, 4] (image .g2 4 2 .raw [0, 0xE4, 0, 0x1B])) .integerOverflow ∧
    raises .pixWrite (withArgs [1, 0, 3, 15, 3] (image .g2 4 2 .raw [0, 0xE4, 0, 0x1B])) .invalidPixelKind ∧
    raises .pixWrite (withArgs [1, 0, 3, 14, 3] (image .g2 4 2 .raw [0, 0xE4, 0, 0x1B])) .pixelKindMismatch :=
  ⟨⟨by decide +kernel, next_of (by decide +kernel)⟩, next_of (by decide +kernel), next_of (by decide +kernel),
    next_of (by decide +kernel)⟩

/-- SpanPackingLaw: writes to the first and last sample of a G2 span, and an RGB16 pixel of greatest values. -/
theorem witness_spanPacking :
    (kindRow .g2).depth < 8 ∧ (∀ w ∈ [(0, 3), (3, 1), (0, 2)], w.1 < (kindRow .g2).sps ∧ w.2 < 2 ^ (kindRow .g2).depth) ∧
    3 < (kindRow .g2).sps ∧ 8 ≤ (kindRow .rgb16).depth ∧ ∀ c ∈ [65535, 0, 65535, 1], c < 2 ^ (kindRow .rgb16).depth := by
  decide

/-- SpanPackingLaw: spans with their last sample and channel, a line whose last byte has one used sample, and a full one. -/
theorem witness_spanPacking_places :
    ([0xE4] : List Byte).length = (kindRow .g2).spanBytes ∧ 3 < (kindRow .g2).sps ∧
    ([1, 2, 3, 4, 5, 6, 7, 8] : List Byte).length = (kindRow .rgba16).spanBytes ∧ 0 < (kindRow .rgba16).sps ∧ 3 < 4 ∧
    usedSamples (kindRow .g2) 5 = 1 ∧ usedSamples (kindRow .g2) 4 = (kindRow .g2).sps := by decide

/-- R147 by hand: a G2 line of width 5 keeps the top two bits of its last byte, one of width 4 all of it. -/
theorem test_padClear : padClear (kindRow .g2) 5 [0xE4, 0xFF] = [0xE4, 0xC0] ∧ padClear (kindRow .g2) 4 [0xFF] = [0xFF] := by
  decide

/-- ImgImportFollowsItsRule: the exact length, and a length of 0 or one more. -/
theorem witness_imgImport :
    (let s := withArgs [0x100, 4] (withBuf 0x100 [1, 5, 2, 3] (image .g8 1 2 .empty []))
     s.mem.readBytes (bufBase + s.arg 0) (s.arg 1) = some [1, 5, 2, 3] ∧ completes .imgImport s) ∧
    raises .imgImport (withArgs [0x100, 0] (image .g8 1 2 .empty [])) .noImageDataChunks ∧
    raises .imgImport (withArgs [0x100, 5] (image .g8 1 2 .empty [])) .pixelMismatch :=
  ⟨⟨by decide +kernel, next_of (by decide +kernel)⟩, next_of (by decide +kernel), next_of (by decide +kernel)⟩

/-- ImgExportAndZeroFollowTheirRules: a destination that ends at BUF's last byte and the next one. -/
theorem witness_imgExport :
    (let s := withArgs [0xFFC] (column .raw [0, 5, 0, 8])
     s.mem.readBytes 0x02000000 s.imgLen.toNat = some [0, 5, 0, 8] ∧ completes .imgExport s ∧ completes .imgZero s) ∧
    raises .imgExport (withArgs [0xFFD] (column .raw [0, 5, 0, 8])) .outOfBounds ∧ raises .imgZero State.reset .noHeaderChunk :=
  ⟨⟨by decide +kernel, next_of (by decide +kernel), next_of (by decide +kernel)⟩, next_of (by decide +kernel),
    next_of (by decide +kernel)⟩

/-- LineReconFollowsItsRule: the greatest tag with a filter, and the first without. -/
theorem witness_lineRecon :
    (let s := lines [4, 1, 2, 3, 4] [0, 0x10, 0x20, 0x30, 0x40]
     (kindRow .g8).code = s.arg 3 % 256 ∧
       s.mem.readBytes (bufBase + s.arg 0) (1 + strideOf (kindRow .g8) (s.arg 4)) = some [4, 1, 2, 3, 4] ∧
       s.mem.readBytes (bufBase + s.arg 1 + 1) (strideOf (kindRow .g8) (s.arg 4)) = some [0x10, 0x20, 0x30, 0x40] ∧
       filterTag .paeth = byteAt [4, 1, 2, 3, 4] 0 ∧ completes (.lineRecon true) s) ∧
    raises (.lineRecon true) (lines [5, 1, 2, 3, 4] []) .invalidFilterType ∧
    raises (.lineRecon true) (withArgs [0, 0x10, 0x20, 0x0F03, 4, 4] State.reset) .invalidPixelKind ∧
    raises (.lineRecon true) (withArgs [0, 0x10, 0x20, 0x0303, 4, 5] State.reset) .scanlineMismatch :=
  ⟨⟨by decide +kernel, by decide +kernel, by decide +kernel, by decide, next_of (by decide +kernel)⟩,
    next_of (by decide +kernel), next_of (by decide +kernel), next_of (by decide +kernel)⟩

/-- LineFilterFollowsItsRule: SEL = 4, 5 and 6. -/
theorem witness_lineFilter :
    (let s := lines [0, 0x11, 0x22, 0x33, 0x44] [0, 0x10, 0x20, 0x30, 0x40]
     (kindRow .g8).code = s.arg 3 % 256 ∧
       s.mem.readBytes (bufBase + s.arg 0 + 1) (strideOf (kindRow .g8) (s.arg 4)) = some [0x11, 0x22, 0x33, 0x44] ∧
       s.mem.readBytes (bufBase + s.arg 1 + 1) (strideOf (kindRow .g8) (s.arg 4)) = some [0x10, 0x20, 0x30, 0x40] ∧
       chosenFilter 4 1 [0x11, 0x22, 0x33, 0x44] (some [0x10, 0x20, 0x30, 0x40]) .paeth ∧
       chosenFilter 5 1 [0x11, 0x22, 0x33, 0x44] (some [0x10, 0x20, 0x30, 0x40]) .up ∧
       completes (.lineFilter 5 true) s) ∧
    raises (.lineFilter 6 true) State.reset .invalidFilterType :=
  ⟨⟨by decide +kernel, by decide +kernel, by decide +kernel, .inl ⟨by decide, by decide⟩, .inr ⟨rfl, by decide +kernel⟩,
    next_of (by decide +kernel)⟩, next_of (by decide +kernel)⟩

/-- ReconstructUndoesFilter: the least distance, and the first byte of a line of one. -/
theorem witness_reconstructUndoesFilter : 1 ≤ (kindRow .g1).spanBytes ∧ 0 < ([0] : List Byte).length := by decide

/-- ImgReconFollowsItsRule: one state for each of its four clauses. -/
theorem witness_imgRecon :
    (BlockInv State.reset ∧ State.reset.cfgValid = false) ∧
    (BlockInv (image .g8 1 2 .empty []) ∧ (image .g8 1 2 .empty []).cfgValid = true ∧
      (image .g8 1 2 .empty []).imgState = .empty) ∧
    (let s := column .filtered [4, 5, 5, 3]
     BlockInv s ∧ s.imgState ≠ .empty ∧ 1 < s.height.toNat ∧ s.mem.read (imgBase + rowOff s 1) = some 5 ∧
       s.mem.read (imgBase + rowOff s 0) = some 4) ∧
    (let s := column .filtered [4, 5, 2, 3]
     BlockInv s ∧ s.imgState ≠ .empty ∧ s.mem.read (imgBase + rowOff s 0) = some 4 ∧
       s.mem.read (imgBase + rowOff s 1) = some 2 ∧ s.height.toNat = 2) := by
  refine ⟨⟨?_, rfl⟩, ⟨inv_of_check (k := .g8) (by decide +kernel), rfl, rfl⟩,
    ⟨inv_of_check (k := .g8) (by decide +kernel), by decide, by decide +kernel, by decide +kernel, by decide +kernel⟩,
    ⟨inv_of_check (k := .g8) (by decide +kernel), by decide, by decide +kernel, by decide +kernel, by decide +kernel⟩⟩
  exact ⟨by decide, by decide, by decide, rfl, by decide, by decide,
    .inl ⟨rfl, rfl, rfl, rfl, rfl, rfl, rfl, rfl, rfl, rfl, rfl, rfl⟩, by decide⟩

/-- ImgFilterFollowsItsRule and FilterThenReconRestoresImage: SEL = 5, and SEL = 6. -/
theorem witness_imgFilter :
    BlockInv (column .raw [0, 5, 0, 8]) ∧ (column .raw [0, 5, 0, 8]).imgState = .raw ∧ 5 ≤ 5 ∧
    raises (.imgFilter 6) (column .raw [0, 5, 0, 8]) .invalidFilterType :=
  ⟨inv_column_raw, rfl, by decide, next_of (by decide +kernel)⟩

/-- NibblesAreDistinctChannelBytes: the last nibble. -/
theorem witness_nibbles :
    BlockInv carrier ∧ carrier.kind = some .rgb8 ∧ 23 < 3 * carrier.width.toNat * carrier.height.toNat :=
  ⟨inv_carrier, rfl, by decide⟩

/-- StgReadFollowsItsRule: the last byte of the stream, the offset checks, and the shared checks. -/
theorem witness_stgRead :
    BlockInv (withArgs [88, 1, 0xFFF] framed) ∧ completes .stgRead (withArgs [88, 1, 0xFFF] framed) ∧
    raises .stgRead (withArgs [92, 1, 0] framed) .outOfBounds ∧ raises .stgRead (withArgs [90, 1, 0] framed) .invalidBitOffset ∧
    raises .stgRead (column .raw [0, 5, 0, 8]) .unsupportedPixelKind :=
  ⟨inv_of_check (k := .rgb8) (by decide +kernel), next_of (by decide +kernel), next_of (by decide +kernel),
    next_of (by decide +kernel), next_of (by decide +kernel)⟩

theorem witness_stgWrite :
    (let s := withArgs [88, 1, 0xFFF] (withBuf 0xFFF [0xA5] carrier)
     BlockInv s ∧ s.mem.readBytes (bufBase + s.arg 2) (s.arg 1) = some [0xA5] ∧ completes .stgWrite s) ∧
    raises .stgWrite (withArgs [92, 1, 0] carrier) .outOfBounds :=
  ⟨⟨inv_of_check (k := .rgb8) (by decide +kernel), by decide +kernel, next_of (by decide +kernel)⟩, next_of (by decide +kernel)⟩

/-- StgFrameFollowsItsRule and FramedBodySurvivesFilterPipeline: a body that fills the capacity, and one byte more. -/
theorem witness_stgFrame :
    (let s := withArgs [0x40, 2] (withBuf 0x40 [3, 0] carrier)
     BlockInv s ∧ s.mem.readBytes (bufBase + s.arg 0) (s.arg 1) = some [3, 0] ∧ completes .stgFrame s ∧
       0xFFE + s.arg 1 ≤ s.params.bufBytes) ∧
    raises .stgFrame (withArgs [0x40, 3] carrier) .imageTooSmall :=
  ⟨⟨inv_of_check (k := .rgb8) (by decide +kernel), by decide +kernel, next_of (by decide +kernel), by decide⟩,
    next_of (by decide +kernel)⟩

/-- StgDetectFollowsItsRule: a frame that fills the capacity, and none. -/
theorem witness_stgDetect :
    BlockInv framed ∧ framePresent framed 2 ∧ BlockInv carrier ∧ ∀ len, ¬framePresent carrier len := by
  refine ⟨inv_framed, ?_, inv_carrier, ?_⟩
  · unfold framePresent; decide +kernel
  · rintro len ⟨_, h, _⟩
    exact absurd h (by decide +kernel)

/-- StgExtractFollowsItsRule: the last destination that fits and the next, and no frame. -/
theorem witness_stgExtract :
    BlockInv (withArgs [0xFFE] framed) ∧ framePresent (withArgs [0xFFE] framed) 2 ∧
    completes .stgExtract (withArgs [0xFFE] framed) ∧ raises .stgExtract (withArgs [0xFFF] framed) .outOfBounds ∧
    raises .stgExtract carrier .noStegoData := by
  refine ⟨inv_of_check (k := .rgb8) (by decide +kernel), ?_, next_of (by decide +kernel), next_of (by decide +kernel),
    next_of (by decide +kernel)⟩
  unfold framePresent; decide +kernel

/-- StepKeepsInvariant and ImageCommandsNeverStop. -/
theorem witness_stepKeepsInvariant :
    BlockInv (issueCommand 0x33 framed) ∧ ∃ t, step (issueCommand 0x33 framed) = .next t ∧ t.err = false :=
  ⟨inv_of_check (k := .rgb8) (by decide +kernel), next_of (by decide +kernel)⟩

/-- RegisterWindowFollowsItsMap: a read-only register, and the reserved offsets next to registers and at the end. -/
theorem witness_registerWindow :
    readOnly (.res 7) ∧ (∀ r, regOffset r ≠ 0x014) ∧ (∀ r, regOffset r ≠ 0xFFC) ∧ 0xFFC < 0x1000 ∧ 0xFFC % 4 = 0 := by
  refine ⟨trivial, ?_, ?_, by decide, by decide⟩ <;> intro r <;> cases r <;> simp only [regOffset] <;> omega

/-- CmdWriteStartsCommand, CtrlWriteClearsOrResets: a block that is not busy and one that is, and each kind of CTRL value. -/
theorem witness_hostRegisterWrites :
    State.reset.busy = false ∧ (issueCommand 0 State.reset).busy = true ∧ (3 : Word).getLsbD 1 = true ∧
    (1 : Word).getLsbD 1 = false ∧ (1 : Word).getLsbD 0 = true ∧
    (0xFFFFFFFC : Word).getLsbD 1 = false ∧ (0xFFFFFFFC : Word).getLsbD 0 = false := by decide

theorem witness_hardwareReset : { State.reset with schedule := [.hardwareReset] }.schedule = Event.hardwareReset :: [] := rfl

theorem witness_hostReads : ∃ t, hostAccess State.reset (.read 0x000 4) = .next t ∧ t.reads = [0] := next_of (by decide +kernel)

/-- BusErrorsAreRefused: a narrow or misaligned register access, the first unmapped address, one past BUF. -/
theorem witness_busErrors :
    ¬legalAccess State.reset.params 0x000 2 ∧ ¬legalAccess State.reset.params 0x002 4 ∧
    ¬legalAccess State.reset.params 0x1000 4 ∧ ¬legalAccess State.reset.params 0x01001000 1 ∧
    ¬legalAccess State.reset.params 0x02000001 2 := by
  refine ⟨?_, ?_, ?_, ?_, ?_⟩ <;> unfold legalAccess <;> decide

/-- HostWriteIsLittleEndian: the last word of BUF and the first byte of IMG. -/
theorem witness_hostWrite :
    State.reset.busy = false ∧ State.reset.pending = false ∧ 0x1000 ≤ (0x01000FFC : Word).toNat ∧
    legalAccess State.reset.params (0x01000FFC : Word).toNat 4 ∧ legalAccess State.reset.params (0x02000000 : Word).toNat 1 := by
  refine ⟨rfl, rfl, by decide, ?_, ?_⟩ <;> unfold legalAccess <;> decide

/-- BusyBlockRefusesWrites: each kind of target. -/
theorem witness_busyBlock :
    (issueCommand 0 State.reset).busy = true ∧ legalAccess State.reset.params (0x000 : Word).toNat 4 ∧
    legalAccess State.reset.params (0x008 : Word).toNat 4 ∧ legalAccess State.reset.params (0x03C : Word).toNat 4 ∧
    legalAccess State.reset.params (0x02000FFF : Word).toNat 1 := by
  refine ⟨rfl, ?_, ?_, ?_, ?_⟩ <;> unfold legalAccess <;> decide

/-- A 1×1 G8 image with IMG_ZERO pending: two bytes in its write set, then three written bytes and one never written. -/
def zeroing : State := issueCommand 0x15 (putAt 0x02000002 [7, 8, 9] (image .g8 1 1 .empty []))

/-- A CHUNK_EMIT pending whose three data bytes have never been written, with one byte written before and one after its
destination. -/
def emitting : State :=
  issueCommand 0x7 (withArgs [0x40, 3, 0x49444154, 0x80] (withBuf 0x7F [5] (withBuf 0x8F [6] State.reset)))

/-- R69 with R54: what the pending CHUNK_EMIT will write is its destination, whatever its data; a byte beside it reads as it
stands, and one never written stops the read. -/
theorem test_pendingWrites_chunkEmit :
    pendingWrites emitting 0x01000080 = true ∧ pendingWrites emitting 0x0100008E = true ∧
    bus (.read 0x0100007F 1) emitting (fun t => t.reads == [5]) = true ∧
    bus (.read 0x0100008F 1) emitting (fun t => t.reads == [6]) = true ∧
    busStops (.read 0x01000040 1) emitting 0x01000040 = true := by
  refine ⟨?_, ?_, ?_, ?_, ?_⟩ <;> decide +kernel

/-- R69 with R54: a pending CRC_BLOCK over a byte never written stores nothing, so no host read is a free value. -/
theorem test_pendingWrites_crcBlock :
    (let s := issueCommand 0x4 (withArgs [0, 8] (withBuf 0 [9] State.reset))
     bus (.read 0x01000000 1) s (fun t => t.reads == [9]) && busStops (.read 0x01000000 4) s 0x01000001 &&
       busStops (.read 0x02000000 1) s 0x02000000) = true := by decide +kernel

/-- HostByteReadWhilePending: a pending command that completes, with the last byte of its write set and the next byte; one that
raises an error; and STG_EXTRACT. -/
theorem witness_writeSet :
    (zeroing.pending = true ∧ decode zeroing.cmd = .ok .imgZero ∧ sequencerTurn zeroing = exec .imgZero zeroing ∧
      completes .imgZero zeroing ∧ pendingWrites zeroing 0x02000001 = true ∧ pendingWrites zeroing 0x02000002 = false) ∧
    raises .pixRead (issueCommand 0x11 State.reset) .noHeaderChunk ∧ decode 0x11 = .ok .pixRead ∧
    completes .stgExtract (issueCommand 0x34 (withArgs [0x80] framed)) ∧ decode 0x34 = .ok .stgExtract :=
  ⟨⟨rfl, by decide, rfl, next_of (by decide +kernel), by decide +kernel, by decide +kernel⟩, next_of (by decide +kernel),
    by decide, next_of (by decide +kernel), by decide⟩

/-- HostByteReadWhilePending: a memory that fills in the three bytes the pending CHUNK_EMIT reads, and the bytes beside its
destination. -/
theorem witness_writeSet_filled :
    (∀ x b, emitting.mem.read x = some b → (withBuf 0x40 [1, 2, 3] emitting).mem.read x = some b) ∧
    sequencerTurn (withBuf 0x40 [1, 2, 3] emitting) = exec .chunkEmit (withBuf 0x40 [1, 2, 3] emitting) ∧
    completes .chunkEmit (withBuf 0x40 [1, 2, 3] emitting) ∧
    pendingWrites emitting 0x0100007F = false ∧ pendingWrites emitting 0x0100008F = false := by
  refine ⟨fun x b h => ?_, rfl, next_of (by decide +kernel), by decide +kernel, by decide +kernel⟩
  have kept : ∀ c ∈ emitting.mem, (withBuf 0x40 [1, 2, 3] emitting).mem.read c.1 = some c.2 := by decide +kernel
  exact kept _ (Memory.mem_of_read h)

/-- HostByteReadWhilePending: reads of 4, 2 and 1 bytes that begin in the write set, after it and at its end, and one whose
second byte has never been written. -/
theorem witness_hostByteRead :
    0x1000 ≤ (0x02000000 : Word).toNat ∧ legalAccess zeroing.params (0x02000000 : Word).toNat 4 ∧
    legalAccess zeroing.params (0x02000002 : Word).toNat 2 ∧ legalAccess zeroing.params (0x02000001 : Word).toNat 1 ∧
    (seesByte zeroing 0x02000000 0 (Config.freeByte 0) ∧ seesByte zeroing 0x02000001 1 (Config.freeByte 1) ∧
      seesByte zeroing 0x02000002 2 7 ∧ seesByte zeroing 0x02000003 3 8) ∧
    legalAccess zeroing.params (0x02000004 : Word).toNat 2 ∧ pendingWrites zeroing 0x02000005 = false ∧
    zeroing.mem.read 0x02000005 = none := by
  refine ⟨by decide, ?_, ?_, ?_, ⟨.inl ⟨?_, rfl⟩, .inl ⟨?_, rfl⟩, .inr ⟨?_, ?_⟩, .inr ⟨?_, ?_⟩⟩, ?_, ?_, ?_⟩
  all_goals first
    | decide +kernel
    | (unfold legalAccess; decide)

/-- The spec's own program P5, cut to its first command: `st.bytes`, `exec CRC_INIT`, `rd h0, CRC_STATE`, `halt`. -/
theorem test_hostProgram :
    (match runPlatform (stBytesLines .buf 0 [0x49] ++ execLines 1 .crcInit ++ [plainLine (.rd 0 .crcState), plainLine .halt])
        [true, true, false, true, true, true, true, true] ⟨HostState.start, State.reset⟩ with
      | .next p => decide (p.host.vars[0] = 0xFFFFFFFF)
      | _ => false) = true := by decide +kernel

end Sys2Proof.Tests
end

section
/-! PROOFS. What a turn of the schedule makes of the state (spec/00_scope.md R6, spec/30_encoding.md R82, R85,
spec/70_reset_and_hazards.md R306), and the state after hardware reset (R290). -/

namespace Sys2Proof.Machine

/-! ### One lemma per kind of turn -/

theorem step_of_unscheduled {s : State} (h : s.schedule = []) : step s = unscheduled s := by
  simp only [step, h]

theorem step_of_scheduled {s : State} {e : Event} {rest : List Event} (h : s.schedule = e :: rest) :
    step s = takeTurn { s with schedule := rest } e := by
  simp only [step, h]

@[simp] theorem takeTurn_host (s : State) (acc : BusAccess) : takeTurn s (.host acc) = hostAccess s acc := rfl

@[simp] theorem takeTurn_sequencer (s : State) : takeTurn s .sequencer = sequencerTurn s := rfl

theorem sequencerTurn_of_pending {s : State} (h : s.pending = true) : sequencerTurn s = runCommand s := if_pos h

theorem sequencerTurn_of_idle {s : State} (h : s.pending = false) : sequencerTurn s = .refused .sequencerIdle := by
  simp [sequencerTurn, h]

theorem unscheduled_of_pending {s : State} (h : s.pending = true) : unscheduled s = runCommand s := if_pos h

theorem unscheduled_of_idle {s : State} (h : s.pending = false) : unscheduled s = .next s := by
  simp [unscheduled, h]

theorem runCommand_of_decoded {s : State} {i : Instr} (h : decode s.cmd = .ok i) : runCommand s = exec i s := by
  simp only [runCommand, h]

theorem runCommand_of_rejected {s : State} {r : Reject} (h : decode s.cmd = .error r) :
    runCommand s = .next (raiseError .illegalCommand s.cmd.toNat 0 s) := by
  simp only [runCommand, h]

/-! ### The sequencer's step, scheduled or with no turn left -/

theorem step_unscheduled_of_pending {s : State} (hp : s.pending = true) (h : s.schedule = []) : step s = runCommand s :=
  (step_of_unscheduled h).trans (unscheduled_of_pending hp)

theorem step_sequencer_of_pending {s : State} {rest : List Event} (hp : s.pending = true)
    (h : s.schedule = .sequencer :: rest) : step s = runCommand { s with schedule := rest } :=
  (step_of_scheduled h).trans (sequencerTurn_of_pending hp)

theorem step_sequencer_of_idle {s : State} {rest : List Event} (hp : s.pending = false)
    (h : s.schedule = .sequencer :: rest) : step s = .refused .sequencerIdle :=
  (step_of_scheduled h).trans (sequencerTurn_of_idle hp)

/-! ### The state after reset, for all legal parameters -/

theorem unconfigured_resetFor (p : Params) : Unconfigured (State.resetFor p) := by
  constructor <;> rfl

theorem blockInv_resetFor {p : Params} (hp : p.legal) : BlockInv (State.resetFor p) where
  params := hp
  canonical := by simp [Memory.wf]
  inside := by simp
  pending := rfl
  err := by simp
  info := by simp
  config := .inl (unconfigured_resetFor p)
  image := by simp

theorem legal_reference : Params.reference.legal := by decide

end Sys2Proof.Machine

namespace Sys2Proof.Claims

open Sys2Proof.Machine

/-! ### Illegal words -/

/-- The restated opcode table lists exactly the rows of the decoder's map, each with its mask (R83, R84). -/
theorem mem_opcodeMasks_iff {n : Nat} {m : BitVec 8} :
    (n, m) ∈ opcodeMasks ↔ ∃ row, opcodeRow n = some row ∧ row.mask = m := by
  constructor
  · have listed : ∀ c ∈ opcodeMasks, (opcodeRow c.1).map OpcodeRow.mask = some c.2 := by decide
    intro h
    exact Option.map_eq_some_iff.mp (listed _ h)
  · rintro ⟨row, h, rfl⟩
    unfold opcodeRow at h
    split at h <;> cases h <;> decide

theorem opcodeRow_eq_none_iff {n : Nat} : opcodeRow n = none ↔ ∀ c ∈ opcodeMasks, c.1 ≠ n := by
  constructor
  · rintro h ⟨k, m⟩ hc rfl
    obtain ⟨row, hrow, -⟩ := mem_opcodeMasks_iff.mp hc
    simp [h] at hrow
  · intro h
    cases hrow : opcodeRow n with
    | none => rfl
    | some row => exact absurd rfl (h (n, row.mask) (mem_opcodeMasks_iff.mpr ⟨row, hrow, rfl⟩))

/-- The three ways of R85 (a), in the decoder's own terms. -/
theorem illegalWord_iff {w : Word} :
    illegalWord w ↔
      rsvOf w ≠ 0 ∨ opcodeRow (opcodeOf w).toNat = none ∨
        ∃ row, opcodeRow (opcodeOf w).toNat = some row ∧ modeOf w &&& ~~~row.mask ≠ 0 := by
  refine or_congr Iff.rfl (or_congr opcodeRow_eq_none_iff.symm ?_)
  constructor
  · rintro ⟨⟨n, m⟩, hc, rfl, hmode⟩
    obtain ⟨row, hrow, rfl⟩ := mem_opcodeMasks_iff.mp hc
    exact ⟨row, hrow, hmode⟩
  · rintro ⟨row, hrow, hmode⟩
    exact ⟨_, mem_opcodeMasks_iff.mpr ⟨row, hrow, rfl⟩, rfl, hmode⟩

theorem illegalWord_iff_decode_eq_error {w : Word} : illegalWord w ↔ ∃ r, decode w = .error r := by
  rw [illegalWord_iff]
  unfold decode
  split
  case isTrue hrsv => exact iff_of_true (.inl hrsv) ⟨_, rfl⟩
  case isFalse hrsv =>
    cases opcodeRow (opcodeOf w).toNat with
    | none => exact iff_of_true (.inr (.inl rfl)) ⟨_, rfl⟩
    | some row =>
      dsimp only
      split
      case isTrue hmode => exact iff_of_true (.inr (.inr ⟨row, rfl, hmode⟩)) ⟨_, rfl⟩
      case isFalse hmode =>
        refine iff_of_false ?_ (by rintro ⟨_, ⟨⟩⟩)
        rintro (h | ⟨⟨⟩⟩ | ⟨_, ⟨⟩, h⟩)
        · exact hrsv h
        · exact hmode h

theorem runCommand_of_illegalWord {s : State} (h : illegalWord s.cmd) :
    runCommand s = .next (raiseError .illegalCommand s.cmd.toNat 0 s) := by
  obtain ⟨r, hr⟩ := illegalWord_iff_decode_eq_error.mp h
  exact runCommand_of_rejected hr

/-! ### The statements settled -/

/-- Settles O5: a turn of the sequencer on a pending command is `runCommand`, which goes by whether the word decodes; the
host's turn and the idle turns are read off the schedule. -/
theorem stepRunsDecodedCommand : Obligations.StepRunsDecodedCommand := by
  refine ⟨fun s i hp hd => ⟨fun hs => ?_, fun rest hs => ?_⟩, fun s hp hw => ⟨fun hs => ?_, fun rest hs => ?_⟩,
    fun s acc rest hs => ?_, fun s hp => ⟨sequencerTurn_of_idle hp, fun hs => ?_, fun rest hs => ?_⟩⟩
  · exact (step_unscheduled_of_pending hp hs).trans (runCommand_of_decoded hd)
  · exact (step_sequencer_of_pending hp hs).trans (runCommand_of_decoded hd)
  · exact (step_unscheduled_of_pending hp hs).trans (runCommand_of_illegalWord hw)
  · exact (step_sequencer_of_pending hp hs).trans (runCommand_of_illegalWord hw)
  · exact (step_of_scheduled hs).trans (takeTurn_host _ acc)
  · exact (step_of_unscheduled hs).trans (unscheduled_of_idle hp)
  · exact step_sequencer_of_idle hp hs

/-- Settles O48: with any legal parameters the reset state meets the invariant, and the reference
parameters are legal. -/
theorem invariantAtReset : Obligations.InvariantAtReset := blockInv_resetFor legal_reference

end Sys2Proof.Claims
end

section
/-! PROOFS. What a command's rule can end in, said once for every command: the stops it makes (spec/10_state.md R54,
spec/60_exceptions.md R262), the registers it writes (spec/10_state.md R26, R48, R53, spec/30_encoding.md R86), and the
bytes it leaves alone. -/

namespace Sys2Proof.Machine

open Sys2Proof.Claims

/-! ### The step of a command -/

/-- A command that answers a next state has completed or raised an error. -/
theorem exec_eq_next {i : Instr} {s t : State} :
    exec i s = .next t ↔
      (∃ d, endOf i s = .ok d ∧ t = completeCommand (commitStores d)) ∨
        ∃ e a b, endOf i s = .error (.raise e a b) ∧ t = raiseError e a b s := by
  rw [exec_eq_finish, finish_eq_next]

/-! ### The stops of a rule -/

/-- A stop a rule may make: an error other than OK, or a read of a byte never written. -/
def RightStop (s : State) : Stop → Prop
  | .raise e _ _ => e ≠ .ok
  | .uninit a => s.mem.read a = none

/-- Every stop that the piece of a rule can make is a right one. -/
def StopsRightly (s : State) {α : Type} (x : Check α) : Prop := ∀ stop, x = .error stop → RightStop s stop

namespace StopsRightly

variable {s : State} {α β : Type}

@[simp] theorem ok (v : α) : StopsRightly s (.ok v) := fun _ h => nomatch h

@[simp] theorem bind_iff {x : Check α} {f : α → Check β} :
    StopsRightly s (x >>= f) ↔ StopsRightly s x ∧ ∀ v, x = .ok v → StopsRightly s (f v) := by
  cases x with
  | error stop => simp [StopsRightly]
  | ok v => simp

@[simp] theorem raiseIf_iff {bad : Prop} [Decidable bad] {e : ErrorCode} {a b : Nat} :
    StopsRightly s (raiseIf bad e a b) ↔ (bad → e ≠ .ok) := by
  unfold raiseIf
  split <;> simp_all [StopsRightly, RightStop]

@[simp] theorem orRaise_iff {v : Option α} {e : ErrorCode} {a b : Nat} :
    StopsRightly s (orRaise v e a b) ↔ (v = none → e ≠ .ok) := by
  cases v <;> simp [orRaise, StopsRightly, RightStop]

@[simp] theorem bufCheck (off n : Nat) : StopsRightly s (bufCheck s off n) := by
  simp [Machine.bufCheck]

@[simp] theorem needCfg : StopsRightly s (needCfg s) := by
  simp [Machine.needCfg]

@[simp] theorem needImage : StopsRightly s (needImage s) := by
  simp [Machine.needImage]

@[simp] theorem needRaw : StopsRightly s (needRaw s) := by
  simp [Machine.needRaw]

@[simp] theorem memRead (a n : Nat) : StopsRightly s (memRead s a n) := by
  rintro (⟨e, x, y⟩ | x) h
  · simp at h
  · obtain ⟨hnone, rfl⟩ := memRead_eq_uninit.mp h
    exact Memory.read_firstGap hnone

@[simp] theorem checkTag (tag : List Byte) : StopsRightly s (checkTag s tag) := by
  simp [Machine.checkTag]

@[simp] theorem pixelBounds (y sp i : Nat) : StopsRightly s (pixelBounds s y sp i) := by
  simp [Machine.pixelBounds]

@[simp] theorem checkSamples (max : Nat) (vs : List Nat) : StopsRightly s (checkSamples max vs) := by
  induction vs with
  | nil => exact ok ()
  | cons v vs ih => simp [Machine.checkSamples, ih]

@[simp] theorem lineChecks (p : Bool) : StopsRightly s (lineChecks p s) := by
  cases p <;> simp [Machine.lineChecks]

@[simp] theorem previousData (p : Bool) (n : Nat) : StopsRightly s (previousData p s n) := by
  cases p <;> simp [Machine.previousData]

@[simp] theorem checkTags (ys : List Nat) : StopsRightly s (checkTags s ys) := by
  induction ys with
  | nil => exact ok ()
  | cons y ys ih => simp [Machine.checkTags, ih]

@[simp] theorem reconRows (ys : List Nat) (prev : Option (List Byte)) : StopsRightly s (reconRows s ys prev) := by
  induction ys generalizing prev with
  | nil => exact ok []
  | cons y ys ih => simp [Machine.reconRows, ih]

@[simp] theorem filterRows (sel : Nat) (ys : List Nat) (prev : Option (List Byte)) :
    StopsRightly s (filterRows s sel ys prev) := by
  induction ys generalizing prev with
  | nil => exact ok []
  | cons y ys ih => simp [Machine.filterRows, rawRow, ih]

@[simp] theorem stegoChecks : StopsRightly s (stegoChecks s) := by
  simp [Machine.stegoChecks]

@[simp] theorem offsetChecks (b n : Nat) : StopsRightly s (offsetChecks s b n) := by
  simp [Machine.offsetChecks]

@[simp] theorem stegoRead (b n : Nat) : StopsRightly s (stegoRead s b n) := by
  unfold Machine.stegoRead
  generalize b / 4 = q
  induction n generalizing q with
  | zero => exact ok []
  | succ n ih => simp [readNibbles, nibRead, ih]

@[simp] theorem stegoWrite (b : Nat) (bs : List Byte) : StopsRightly s (stegoWrite s b bs) := by
  unfold Machine.stegoWrite
  generalize b / 4 = q
  induction bs generalizing q with
  | nil => exact ok []
  | cons v vs ih => simp [writeNibbles, nibWrite, ih]

theorem ite {c : Prop} [Decidable c] {x y : Check α} (hx : c → StopsRightly s x) (hy : ¬c → StopsRightly s y) :
    StopsRightly s (if c then x else y) := by
  split
  · exact hx ‹_›
  · exact hy ‹_›

@[simp] theorem detect : StopsRightly s (detect s) := by
  refine ite (fun _ => ok _) fun _ => bind_iff.mpr ⟨stegoRead _ _, fun magic _ => ?_⟩
  refine ite (fun _ => ok _) fun _ => bind_iff.mpr ⟨stegoRead _ _, fun lenBytes _ => ?_⟩
  refine ite (fun _ => ok _) fun _ => bind_iff.mpr ⟨stegoRead _ _, fun trailer _ => ?_⟩
  exact ite (fun _ => ok _) fun _ => ok _

/-- A command's rule ends in completion, in an error other than OK, or in a read of a byte never written. -/
theorem endOf (i : Instr) : StopsRightly s (endOf i s) := by
  cases i with
  | nop => exact ok _
  | crcInit => exact ok _
  | crcUpdate => simp [Machine.endOf, endCrcUpdate, doneRegs]
  | crcFinal => exact ok _
  | crcBlock => simp [Machine.endOf, endCrcBlock, doneRegs]
  | sigCheck => simp [Machine.endOf, endSigCheck, doneRegs]
  | chunkCheck v => simp [Machine.endOf, endChunkCheck, doneRegs]
  | chunkEmit => simp [Machine.endOf, endChunkEmit, doneStores]
  | hdrLoad => simp [Machine.endOf, endHdrLoad, doneRegs]
  | pixRead => simp [Machine.endOf, endPixRead, doneRegs]
  | pixWrite => simp [Machine.endOf, endPixWrite, doneStores]
  | imgImport => simp [Machine.endOf, endImgImport, doneStores]
  | imgExport => simp [Machine.endOf, endImgExport, imageBytes, doneStores]
  | imgZero => simp [Machine.endOf, endImgZero, doneStores]
  | lineRecon p => simp [Machine.endOf, endLineRecon, doneStores]
  | lineFilter sel p => simp [Machine.endOf, endLineFilter, doneStores]
  | imgRecon => simp [Machine.endOf, endImgRecon, doneStores]
  | imgFilter sel => simp [Machine.endOf, endImgFilter, doneStores]
  | stgRead => simp [Machine.endOf, endStgRead, doneStores]
  | stgWrite => simp [Machine.endOf, endStgWrite, doneStores]
  | stgFrame => simp [Machine.endOf, endStgFrame, doneStores]
  | stgDetect => simp [Machine.endOf, endStgDetect, doneRegs]
  | stgExtract => simp [Machine.endOf, endStgExtract, doneStores]

end StopsRightly

/-- The error a command raises is never OK (R260). -/
theorem ne_ok_of_raise {i : Instr} {s : State} {e : ErrorCode} {a b : Nat} (h : endOf i s = .error (.raise e a b)) :
    e ≠ .ok := StopsRightly.endOf i _ h

/-- A read that stops a command is of a byte never written (R54). -/
theorem read_eq_none_of_uninit {i : Instr} {s : State} {a : Nat} (h : endOf i s = .error (.uninit a)) :
    s.mem.read a = none := StopsRightly.endOf i _ h

/-! ### The registers a rule writes -/

/-- IMG_STATE after a completed command (spec/10_state.md R48). -/
def imgStateAfter (i : Instr) (s : State) : ImgState :=
  match i with
  | .hdrLoad => .empty
  | .imgImport => .filtered
  | .imgFilter _ => .filtered
  | .imgRecon => .raw
  | .imgZero => .raw
  | _ => s.imgState

/-- What the register writes `t` of a completed command leave as it was in `s`, and the IMG_STATE they give. -/
structure RegisterEffect (i : Instr) (s t : State) : Prop where
  args : t.args = s.args
  cmd : t.cmd = s.cmd
  params : t.params = s.params
  schedule : t.schedule = s.schedule
  reads : t.reads = s.reads
  draws : t.draws = s.draws
  mem : t.mem = s.mem
  sticky : t.sticky = s.sticky
  crcState : i ≠ .crcInit → i ≠ .crcUpdate → t.crcState = s.crcState
  config : i ≠ .hdrLoad → sameConfig s t
  imgState : t.imgState = imgStateAfter i s
  res : ∀ k : Fin 8, k.val ∉ resultsOf i → t.res[k] = s.res[k]

theorem sameConfig_refl (s : State) : sameConfig s s := ⟨rfl, rfl, rfl, rfl, rfl, rfl, rfl, rfl, rfl, rfl, rfl⟩

namespace RegisterEffect

variable {i : Instr} {s t : State}

/-- Writing no register but IMG_STATE. -/
theorem of_imgState {st : ImgState} (h : st = imgStateAfter i s) : RegisterEffect i s { s with imgState := st } where
  args := rfl
  cmd := rfl
  params := rfl
  schedule := rfl
  reads := rfl
  draws := rfl
  mem := rfl
  sticky := rfl
  crcState _ _ := rfl
  config _ := sameConfig_refl s
  imgState := h
  res _ _ := rfl

/-- Writing no register. -/
theorem of_same (h : s.imgState = imgStateAfter i s) : RegisterEffect i s s := of_imgState h

/-- Writing one more RES register that the command names. -/
theorem setRes (h : RegisterEffect i s t) {j : Fin 8} (hj : j.val ∈ resultsOf i) (v : Nat) :
    RegisterEffect i s (t.setRes j v) :=
  { h with
    res := fun k hk => by
      have hne : j.val ≠ k.val := fun e => hk (e ▸ hj)
      exact (Vector.getElem_set_ne j.isLt k.isLt hne).trans (h.res k hk) }

/-- Writing RES0 to RES6. -/
theorem setResSeven (h : RegisterEffect i s t) (hi : resultsOf i = List.range 7) (v0 v1 v2 v3 v4 v5 v6 : Nat) :
    RegisterEffect i s
      (((((((t.setRes 0 v0).setRes 1 v1).setRes 2 v2).setRes 3 v3).setRes 4 v4).setRes 5 v5).setRes 6 v6) := by
  have named : ∀ j < 7, j ∈ resultsOf i := fun j hj => hi ▸ List.mem_range.mpr hj
  exact ((((((h.setRes (named 0 (by decide)) v0).setRes (named 1 (by decide)) v1).setRes (named 2 (by decide)) v2).setRes
    (named 3 (by decide)) v3).setRes (named 4 (by decide)) v4).setRes (named 5 (by decide)) v5).setRes
    (named 6 (by decide)) v6

/-- Writing CRC_STATE. -/
theorem of_crcState (hi : i = .crcInit ∨ i = .crcUpdate) (c : Word) : RegisterEffect i s { s with crcState := c } where
  args := rfl
  cmd := rfl
  params := rfl
  schedule := rfl
  reads := rfl
  draws := rfl
  mem := rfl
  sticky := rfl
  crcState h h' := absurd hi (by simp [h, h'])
  config _ := sameConfig_refl s
  imgState := by rcases hi with rfl | rfl <;> rfl
  res _ _ := rfl

/-- Writing the configuration registers. -/
theorem of_configure (k : PixelKind) (w h bd ct cm fm im : Nat) :
    RegisterEffect .hdrLoad s (configure k w h bd ct cm fm im s) where
  args := configure_args ..
  cmd := configure_cmd ..
  params := configure_params ..
  schedule := configure_schedule ..
  reads := configure_reads ..
  draws := configure_draws ..
  mem := configure_mem ..
  sticky := configure_sticky ..
  crcState _ _ := configure_crcState ..
  config h := absurd rfl h
  imgState := configure_imgState ..
  res _ _ := by rw [configure_res]

/-- The registers that a completed command writes. -/
theorem of_done {d : Done} (h : endOf i s = .ok d) : RegisterEffect i s d.regs := by
  cases i <;> simp only [endOf] at h
  case nop => cases h; exact of_same rfl
  case crcInit => cases h; exact of_crcState (.inl rfl) _
  case crcUpdate =>
    obtain ⟨-, _, -, rfl⟩ := endCrcUpdate_eq_ok.mp h
    exact of_crcState (.inr rfl) _
  case crcFinal => cases h; exact (of_same rfl).setRes (by decide) _
  case crcBlock =>
    obtain ⟨-, _, -, rfl⟩ := endCrcBlock_eq_ok.mp h
    exact (of_same rfl).setRes (by decide) _
  case sigCheck =>
    obtain ⟨-, -, -, rfl⟩ := endSigCheck_eq_ok.mp h
    exact (of_same rfl).setRes (by decide) _
  case chunkCheck v =>
    obtain ⟨-, -, _, -, -, -, -, _, -, _, -, -, rfl⟩ := endChunkCheck_eq_ok.mp h
    exact (of_same rfl).setResSeven rfl ..
  case chunkEmit =>
    obtain ⟨-, -, -, -, _, -, rfl⟩ := endChunkEmit_eq_ok.mp h
    exact ((of_same rfl).setRes (by decide) _).setRes (by decide) _
  case hdrLoad =>
    obtain ⟨-, _, -, -, k, -, -, -, -, -, -, rfl⟩ := endHdrLoad_eq_ok.mp h
    exact of_configure ..
  case pixRead =>
    obtain ⟨-, -, -, _, -, rfl⟩ := endPixRead_eq_ok.mp h
    exact (((of_same rfl).setRes (by decide) _).setRes (by decide) _).setRes (by decide) _
  case pixWrite => obtain ⟨-, -, -, -, -, -, _, -, rfl⟩ := endPixWrite_eq_ok.mp h; exact of_same rfl
  case imgImport =>
    obtain ⟨-, -, -, -, _, -, rfl⟩ := endImgImport_eq_ok.mp h
    exact (of_imgState rfl).setRes (by decide) _
  case imgExport =>
    obtain ⟨-, -, -, _, -, rfl⟩ := endImgExport_eq_ok.mp h
    exact ((of_same rfl).setRes (by decide) _).setRes (by decide) _
  case imgZero => obtain ⟨-, rfl⟩ := endImgZero_eq_ok.mp h; exact of_imgState rfl
  case lineRecon p =>
    obtain ⟨_, -, _, -, _, -, _, -, rfl⟩ := endLineRecon_eq_ok.mp h
    exact (of_same rfl).setRes (by simp [resultsOf]) _
  case lineFilter sel p =>
    obtain ⟨-, _, -, _, -, _, -, _, _, _, -, -, -, rfl⟩ := endLineFilter_eq_ok.mp h
    exact (of_same rfl).setResSeven rfl ..
  case imgRecon => obtain ⟨-, -, -, _, -, rfl⟩ := endImgRecon_eq_ok.mp h; exact of_imgState rfl
  case imgFilter sel => obtain ⟨-, -, -, _, -, rfl⟩ := endImgFilter_eq_ok.mp h; exact of_imgState rfl
  case stgRead => obtain ⟨-, -, -, _, -, rfl⟩ := endStgRead_eq_ok.mp h; exact of_same rfl
  case stgWrite => obtain ⟨-, -, -, _, -, _, -, rfl⟩ := endStgWrite_eq_ok.mp h; exact of_same rfl
  case stgFrame =>
    obtain ⟨-, -, -, _, -, _, -, rfl⟩ := endStgFrame_eq_ok.mp h
    exact (of_same rfl).setRes (by decide) _
  case stgDetect =>
    obtain ⟨-, _, -, rfl⟩ := endStgDetect_eq_ok.mp h
    exact ((of_same rfl).setRes (by decide) _).setRes (by decide) _
  case stgExtract =>
    obtain ⟨-, _, -, -, _, -, rfl⟩ := endStgExtract_eq_ok.mp h
    exact (of_same rfl).setRes (by decide) _

end RegisterEffect

/-! ### The bytes a command leaves alone -/

/-- A completed command leaves every byte that it does not store. -/
theorem read_commitStores_of_not_mem {i : Instr} {s : State} {d : Done} (h : endOf i s = .ok d) {a : Nat}
    (ha : ∀ c ∈ d.stores, c.1 ≠ a) : (commitStores d).mem.read a = s.mem.read a := by
  rw [commitStores_mem, Memory.read_writeCells_of_not_mem _ _ _ ha, (RegisterEffect.of_done h).mem]

/-- A command leaves every byte outside the destination its operands name. -/
theorem read_of_not_mayStore {i : Instr} {s t : State} (h : exec i s = .next t) {a : Nat} (ha : mayStore i s a = false) :
    t.mem.read a = s.mem.read a := by
  rcases exec_eq_next.mp h with ⟨d, hd, rfl⟩ | ⟨e, x, y, -, rfl⟩
  · refine read_commitStores_of_not_mem hd fun c hc hca => ?_
    subst hca
    simp [mayStore_of_stored hd hc] at ha
  · rfl

end Sys2Proof.Machine

namespace Sys2Proof.Claims

open Sys2Proof.Machine

/-! ### The statements settled -/

/-- Settles O8: `finish` never refuses, and its fault is a stop of the command's rule. -/
theorem commandsStopOnlyOnUnwrittenBytes : Obligations.CommandsStopOnlyOnUnwrittenBytes := by
  refine fun i s => ⟨fun r => ?_, fun f hf => ?_⟩
  · rw [exec_eq_finish]
    exact finish_ne_refused
  · rw [exec_eq_finish] at hf
    obtain ⟨a, ha, rfl⟩ := finish_eq_fault.mp hf
    exact ⟨a, rfl, read_eq_none_of_uninit ha⟩

/-- Settles O9: a raised error keeps every operand, and so do the register writes of a completed command. -/
theorem commandsKeepOperands : Obligations.CommandsKeepOperands := by
  intro i s t h
  rcases exec_eq_next.mp h with ⟨d, hd, rfl⟩ | ⟨e, a, b, -, rfl⟩
  · have eff := RegisterEffect.of_done hd
    exact ⟨eff.args, eff.cmd, eff.params, eff.schedule, eff.reads, eff.draws⟩
  · exact ⟨rfl, rfl, rfl, rfl, rfl, rfl⟩

/-- Settles O11: every other command's register writes leave the configuration, and so does a raised error. -/
theorem onlyHdrLoadConfigures : Obligations.OnlyHdrLoadConfigures := by
  intro i s t hi h
  rcases exec_eq_next.mp h with ⟨d, hd, rfl⟩ | ⟨e, a, b, -, rfl⟩
  · exact (RegisterEffect.of_done hd).config hi
  · exact sameConfig_refl s

/-- Settles O12: ERR tells a raised error, which keeps IMG_STATE, from a completed command. -/
theorem imageStateTransitions : Obligations.ImageStateTransitions := by
  intro i s t h
  rcases exec_eq_next.mp h with ⟨d, hd, rfl⟩ | ⟨e, a, b, -, rfl⟩
  · exact (RegisterEffect.of_done hd).imgState
  · rfl

/-- Settles O13: each RES register a completed command writes is named, and a raised error writes none. -/
theorem commandsWriteOnlyNamedResults : Obligations.CommandsWriteOnlyNamedResults := by
  intro i s t k h hk
  rcases exec_eq_next.mp h with ⟨d, hd, rfl⟩ | ⟨e, a, b, -, rfl⟩
  · exact (RegisterEffect.of_done hd).res k hk
  · rfl

end Sys2Proof.Claims
end


section
/-! PROOFS. Where the image stands in IMG in a state that meets the invariant (spec/10_state.md R47, R48, R53,
spec/42_pixel.md R142, spec/44_stego.md R221), and that its bytes can be read. -/

namespace Sys2Proof.Machine

/-! ### The image's lines, spans and nibbles -/

/-- A line is its spans, one after another (spec/42_pixel.md R142). -/
theorem strideOf_eq_spanCountOf_mul (k : PixelKind) (w : Nat) :
    strideOf (kindRow k) w = spanCountOf (kindRow k) w * (kindRow k).spanBytes := by
  cases k <;> simp only [strideOf, spanCountOf, ceilDiv, kindRow] <;> omega

theorem spanBytes_pos (k : PixelKind) : 1 ≤ (kindRow k).spanBytes := by
  cases k <;> decide

@[simp] theorem kindRow_of_kind {s : State} {k : PixelKind} (h : s.kind = some k) : s.kindRow = kindRow k := by
  simp only [State.kindRow, h]

/-- On the kinds the STU works on a line is `chans` bytes for each pixel (spec/44_stego.md R220, R221). -/
theorem strideOf_of_stego {k : PixelKind} (hk : k = .rgb8 ∨ k = .rgba8) (w : Nat) :
    strideOf (kindRow k) w = w * (kindRow k).chans ∧ 3 ≤ (kindRow k).chans := by
  rcases hk with rfl | rfl <;> simp only [strideOf, ceilDiv, kindRow] <;> omega

namespace Configured

variable {s : State} {k : PixelKind} (h : Configured s k)
include h

theorem stride_eq : s.stride.toNat = s.spanCount.toNat * s.kindRow.spanBytes := by
  rw [h.stride, h.spanCount, kindRow_of_kind h.kind, strideOf_eq_spanCountOf_mul]

/-- Line `y` stands inside the image. -/
theorem row_le {y : Nat} (hy : y < s.height.toNat) : rowOff s y + (1 + s.stride.toNat) ≤ s.imgLen.toNat := by
  rw [h.imgLen, ← rowOff_succ]
  exact Nat.mul_le_mul_right _ hy

/-- Span `sp` of line `y` stands inside the image. -/
theorem span_le {y sp : Nat} (hy : y < s.height.toNat) (hsp : sp < s.spanCount.toNat) :
    rowOff s y + 1 + sp * s.kindRow.spanBytes + s.kindRow.spanBytes ≤ s.imgLen.toNat := by
  have hrow := h.row_le hy
  have hspan : (sp + 1) * s.kindRow.spanBytes ≤ s.stride.toNat := by
    rw [h.stride_eq]
    exact Nat.mul_le_mul_right _ hsp
  rw [Nat.succ_mul] at hspan
  omega

/-- CAP_BITS is four bits for each of the three nibbles of a pixel (spec/10_state.md R45). -/
theorem capBits_eq (hk : k = .rgb8 ∨ k = .rgba8) : s.capBits.toNat = 4 * (3 * s.width.toNat * s.height.toNat) := by
  rw [h.capBits]
  rcases hk with rfl | rfl <;> simp only [capBitsOf] <;> ring

/-- The byte of nibble `q` stands inside the image, after the tag byte of its line (spec/44_stego.md R221). -/
theorem nibAddr_mem (hk : k = .rgb8 ∨ k = .rgba8) {q : Nat} (hq : q < 3 * s.width.toNat * s.height.toNat) :
    ∃ j < s.imgLen.toNat, nibAddr s q = imgBase + j := by
  have hw := h.width
  have hy : q / 3 / s.width.toNat < s.height.toNat := by
    rw [Nat.div_div_eq_div_mul]
    exact Nat.div_lt_of_lt_mul hq
  have hx : q / 3 % s.width.toNat < s.width.toNat := Nat.mod_lt _ hw
  obtain ⟨hstride, hchans⟩ := strideOf_of_stego hk s.width.toNat
  rw [← h.stride, ← kindRow_of_kind h.kind] at hstride
  rw [← kindRow_of_kind h.kind] at hchans
  have hpix : (q / 3 % s.width.toNat + 1) * s.kindRow.chans ≤ s.stride.toNat := by
    rw [hstride]
    exact Nat.mul_le_mul_right _ hx
  rw [Nat.succ_mul] at hpix
  have hrow := h.row_le hy
  refine ⟨_, ?_, by simp only [nibAddr, Nat.add_assoc]; rfl⟩
  omega

end Configured

namespace BlockInv

variable {s : State} (inv : BlockInv s)
include inv

theorem configured (h : s.cfgValid = true) : ∃ k, Configured s k := by
  rcases inv.config with hu | hc
  · simp [hu.cfgValid] at h
  · exact hc

/-- IMG_LEN is the length of HEIGHT lines, configured or not. -/
theorem imgLen_eq : s.imgLen.toNat = rowOff s s.height.toNat := by
  rcases inv.config with hu | ⟨k, hc⟩
  · simp [rowOff, hu.imgLen, hu.height]
  · exact hc.imgLen

/-- CAP_BYTES is CAP_BITS in whole bytes (spec/10_state.md R45), configured or not. -/
theorem capBytes_eq : s.capBytes.toNat = s.capBits.toNat / 8 := by
  rcases inv.config with hu | ⟨k, hc⟩
  · simp [hu.capBytes, hu.capBits]
  · exact hc.capBytes

/-- The image fits in IMG (spec/10_state.md R47). -/
theorem imgLen_le : s.imgLen.toNat ≤ s.params.imgBytes := by
  rcases inv.config with hu | ⟨k, hc⟩
  · simp [hu.imgLen]
  · exact hc.fits

/-- A range inside an image that is not EMPTY can be read. -/
theorem readBytes_isSome (himg : s.imgState ≠ .empty) {a off n : Nat} (ha : a = imgBase + off)
    (h : off + n ≤ s.imgLen.toNat) : (s.mem.readBytes a n).isSome = true := by
  rw [Memory.readBytes_isSome]
  intro j hj
  rw [ha, Nat.add_assoc]
  exact (inv.image himg).2 _ (by omega)

variable (himg : s.imgState ≠ .empty)
include himg

theorem readBytes_row {y : Nat} (hy : y < s.height.toNat) :
    (s.mem.readBytes (imgBase + rowOff s y) (1 + s.stride.toNat)).isSome = true := by
  obtain ⟨k, hc⟩ := inv.configured (inv.image himg).1
  exact inv.readBytes_isSome himg rfl (hc.row_le hy)

theorem readBytes_tag {y : Nat} (hy : y < s.height.toNat) :
    (s.mem.readBytes (imgBase + rowOff s y) 1).isSome = true := by
  obtain ⟨k, hc⟩ := inv.configured (inv.image himg).1
  have := hc.row_le hy
  exact inv.readBytes_isSome himg rfl (by omega)

theorem readBytes_rowData {y : Nat} (hy : y < s.height.toNat) :
    (s.mem.readBytes (imgBase + rowOff s y + 1) s.stride.toNat).isSome = true := by
  obtain ⟨k, hc⟩ := inv.configured (inv.image himg).1
  have := hc.row_le hy
  exact inv.readBytes_isSome himg (Nat.add_assoc ..) (by omega)

theorem readBytes_span {y sp : Nat} (hy : y < s.height.toNat) (hsp : sp < s.spanCount.toNat) :
    (s.mem.readBytes (spanAddr s y sp) s.kindRow.spanBytes).isSome = true := by
  obtain ⟨k, hc⟩ := inv.configured (inv.image himg).1
  have := hc.span_le hy hsp
  exact inv.readBytes_isSome himg (by simp only [spanAddr, Nat.add_assoc]; rfl) (by omega)

variable (hk : s.kind = some .rgb8 ∨ s.kind = some .rgba8)
include hk

/-- The nibbles of the stream, as many as CAP_BITS says, stand in bytes of the image. -/
theorem nibAddr_mem {q : Nat} (hq : 4 * q < s.capBits.toNat) : ∃ j < s.imgLen.toNat, nibAddr s q = imgBase + j := by
  obtain ⟨k, hc⟩ := inv.configured (inv.image himg).1
  have hk' : k = .rgb8 ∨ k = .rgba8 := by simpa [hc.kind] using hk
  have hcap := hc.capBits_eq hk'
  exact hc.nibAddr_mem hk' (by omega)

/-- The stream can be read up to its capacity. -/
theorem stegoRead_isOk {b n : Nat} (hb : b % 4 = 0) (hn : b + 8 * n ≤ s.capBits.toNat) :
    ∃ bs, stegoRead s b n = .ok bs := by
  refine readNibbles_isOk fun j hj => ?_
  obtain ⟨x, hx, hax⟩ := inv.nibAddr_mem himg hk (q := b / 4 + j) (by omega)
  rw [hax]
  exact (inv.image himg).2 x hx

end BlockInv

/-- A frame that is found fits in the capacity (spec/44_stego.md R225). -/
theorem le_capBytes_of_detect {s : State} {len : Nat} (h : detect s = .ok (some len)) : 10 + len ≤ s.capBytes.toNat := by
  rcases detect_eq_ok.mp h with ⟨-, ⟨⟩⟩ | ⟨-, _, -, ⟨-, ⟨⟩⟩ | ⟨-, _, -, ⟨-, ⟨⟩⟩ | ⟨hle, _, -, ⟨-, ⟨⟩⟩ | ⟨-, ⟨⟩⟩⟩⟩⟩
  exact hle

/-! ### Rules that read only written bytes -/

/-- The piece of a rule does not stop on a byte never written (R54). -/
def ReadsWritten {α : Type} (x : Check α) : Prop := ∀ a, x ≠ .error (.uninit a)

/-- A command whose rule reads only written bytes answers a next state. -/
theorem exec_next_of_readsWritten {i : Instr} {s : State} (h : ReadsWritten (endOf i s)) : ∃ t, exec i s = .next t := by
  rw [exec_eq_finish]
  match he : endOf i s with
  | .ok d => exact ⟨_, rfl⟩
  | .error (.raise e a b) => exact ⟨_, rfl⟩
  | .error (.uninit a) => exact absurd he (h a)

namespace ReadsWritten

variable {α β : Type} {s : State}

@[simp] theorem ok (v : α) : ReadsWritten (.ok v) := nofun

@[simp] theorem bind_iff {x : Check α} {f : α → Check β} :
    ReadsWritten (x >>= f) ↔ ReadsWritten x ∧ ∀ v, x = .ok v → ReadsWritten (f v) := by
  cases x with
  | error stop => simp [ReadsWritten]
  | ok v => simp

theorem of_isOk {x : Check α} (h : ∃ v, x = .ok v) : ReadsWritten x := by
  obtain ⟨v, rfl⟩ := h
  exact ok v

@[simp] theorem raiseIf {bad : Prop} [Decidable bad] {e : ErrorCode} {a b : Nat} : ReadsWritten (raiseIf bad e a b) :=
  fun _ h => raiseIf_ne_uninit.mp h

@[simp] theorem orRaise {v : Option α} {e : ErrorCode} {a b : Nat} : ReadsWritten (orRaise v e a b) :=
  fun _ h => orRaise_ne_uninit.mp h

@[simp] theorem bufCheck (off n : Nat) : ReadsWritten (bufCheck s off n) := fun _ h => bufCheck_ne_uninit.mp h

@[simp] theorem needCfg : ReadsWritten (needCfg s) := fun _ h => needCfg_ne_uninit.mp h

@[simp] theorem needImage : ReadsWritten (needImage s) := fun _ h => needImage_ne_uninit.mp h

@[simp] theorem needRaw : ReadsWritten (needRaw s) := fun _ h => needRaw_ne_uninit.mp h

@[simp] theorem pixelBounds (y sp i : Nat) : ReadsWritten (pixelBounds s y sp i) :=
  fun _ h => pixelBounds_ne_uninit.mp h

@[simp] theorem checkSamples (max : Nat) (vs : List Nat) : ReadsWritten (checkSamples max vs) :=
  fun _ h => checkSamples_ne_uninit.mp h

@[simp] theorem stegoChecks : ReadsWritten (stegoChecks s) := fun _ => stegoChecks_ne_uninit

@[simp] theorem offsetChecks (b n : Nat) : ReadsWritten (offsetChecks s b n) := fun _ => offsetChecks_ne_uninit

@[simp] theorem memRead_iff {a n : Nat} : ReadsWritten (memRead s a n) ↔ (s.mem.readBytes a n).isSome = true := by
  cases h : s.mem.readBytes a n <;> simp [ReadsWritten, h]

theorem checkTags {ys : List Nat} (h : ∀ y ∈ ys, (s.mem.readBytes (imgBase + rowOff s y) 1).isSome = true) :
    ReadsWritten (checkTags s ys) := by
  induction ys with
  | nil => exact ok ()
  | cons y ys ih =>
    obtain ⟨hy, hys⟩ := List.forall_mem_cons.mp h
    simp [Machine.checkTags, hy, ih hys]

theorem reconRows {ys : List Nat} {prev : Option (List Byte)}
    (h : ∀ y ∈ ys, (s.mem.readBytes (imgBase + rowOff s y) (1 + s.stride.toNat)).isSome = true) :
    ReadsWritten (reconRows s ys prev) := by
  induction ys generalizing prev with
  | nil => exact ok []
  | cons y ys ih =>
    obtain ⟨hy, hys⟩ := List.forall_mem_cons.mp h
    simp [Machine.reconRows, hy, ih hys]

section Stream

variable (inv : BlockInv s) {u : Unit} (hs : Machine.stegoChecks s = .ok u)
include inv hs

/-- The stream's bytes stand in the image, which the shared checks ask to be RAW (spec/44_stego.md R226). -/
theorem stegoRead {b n : Nat} (hb : b % 4 = 0) (hn : b + 8 * n ≤ s.capBits.toNat) : ReadsWritten (stegoRead s b n) := by
  obtain ⟨-, hk, hraw⟩ := stegoChecks_eq_ok.mp hs
  exact of_isOk (inv.stegoRead_isOk (by simp [hraw]) hk hb hn)

/-- The frame is looked for inside the capacity (spec/44_stego.md R225). -/
theorem detect : ReadsWritten (detect s) := by
  have hcap := inv.capBytes_eq
  have stream : ∀ b n, b % 4 = 0 → b + 8 * n ≤ s.capBits.toNat → ReadsWritten (Machine.stegoRead s b n) :=
    fun _ _ => stegoRead inv hs
  unfold Machine.detect
  split
  case isTrue => exact ok _
  case isFalse h10 =>
    refine bind_iff.mpr ⟨stream 0 3 (by omega) (by omega), fun magic _ => ?_⟩
    split
    case isTrue => exact ok _
    case isFalse =>
      refine bind_iff.mpr ⟨stream 24 4 (by omega) (by omega), fun lenBytes _ => ?_⟩
      dsimp only
      split
      case isTrue => exact ok _
      case isFalse hlen =>
        refine bind_iff.mpr ⟨stream _ 3 (by omega) (by omega), fun trailer _ => ?_⟩
        split <;> exact ok _

/-- The body of a frame that was found is inside the capacity (spec/44_stego.md R234). -/
theorem stegoBody {len : Nat} (hd : Machine.detect s = .ok (some len)) : ReadsWritten (Machine.stegoRead s 56 len) := by
  have hcap := inv.capBytes_eq
  have hlen := le_capBytes_of_detect hd
  exact stegoRead inv hs (by decide) (by omega)

end Stream

end ReadsWritten

end Sys2Proof.Machine

namespace Sys2Proof.Claims

open Sys2Proof.Machine

/-! ### The statements settled -/

/-- Settles O17: the destination of each command, in IMG by the lines of the image, is the image or the span. -/
theorem imageCommandsStoreOnlyImage : Obligations.ImageCommandsStoreOnlyImage := by
  intro s t a inv
  refine ⟨fun h ha => read_of_not_mayStore h ?_, fun i hi h ha => read_of_not_mayStore h ?_⟩
  · rw [Bool.eq_false_iff]
    simp only [mayStore, ne_eq, inRange_eq_true]
    omega
  · have outside : ¬inRange imgBase s.imgLen.toNat a = true := by
      rw [inRange_eq_true]
      omega
    have lines : inImageLines s a = inRange imgBase s.imgLen.toNat a := by rw [inImageLines, inv.imgLen_eq]
    rcases hi with rfl | rfl | rfl | ⟨sel, rfl⟩ <;> simp [mayStore, lines, outside]

/-- Settles O50: what these commands read of the image is inside it, and every byte of it is written. -/
theorem imageCommandsNeverStop : Obligations.ImageCommandsNeverStop := by
  intro i s inv hi
  refine exec_next_of_readsWritten ?_
  have notEmpty : s.imgState = .raw → s.imgState ≠ .empty := fun h => by simp [h]
  rcases hi with rfl | rfl | rfl | rfl | rfl | ⟨sel, rfl⟩ | rfl | rfl | rfl
  · simpa [endOf, endPixRead, doneRegs] using
      fun _ hraw hy hsp _ => inv.readBytes_span (notEmpty hraw) hy hsp
  · simpa [endOf, endPixWrite, doneStores] using
      fun _ hraw _ _ hy hsp _ _ _ => inv.readBytes_span (notEmpty hraw) hy hsp
  · simpa [endOf, endImgExport, imageBytes, doneStores] using
      fun _ himg _ => inv.readBytes_isSome himg (off := 0) rfl (by omega)
  · simp [endOf, endImgZero, doneStores]
  · simpa [endOf, endImgRecon, doneStores] using fun _ himg => ⟨.checkTags fun y hy =>
      inv.readBytes_tag himg (List.mem_range.mp hy), fun _ _ => .reconRows fun y hy =>
        inv.readBytes_row himg (List.mem_range.mp hy)⟩
  · simpa [endOf, endImgFilter, doneStores] using fun _ _ hraw => .of_isOk (filterRows_isOk fun y hy =>
      Option.isSome_iff_exists.mp (inv.readBytes_rowData (notEmpty hraw) (List.mem_range.mp hy)))
  · simpa [endOf, endStgRead, doneStores] using fun _ hs _ ho _ =>
      .stegoRead inv hs (offsetChecks_eq_ok.mp ho).1 (offsetChecks_eq_ok.mp ho).2
  · simpa [endOf, endStgDetect, doneRegs] using fun _ hs => .detect inv hs
  · simpa [endOf, endStgExtract, doneStores] using fun _ hs => ⟨.detect inv hs, fun found hd len hlen _ =>
      .stegoBody inv hs (hlen ▸ hd)⟩

end Sys2Proof.Claims
end

section
/-! PROOFS. One equation for each kind of host access (spec/20_memory.md R61 to R63, spec/70_reset_and_hazards.md R300), the
register map (spec/10_state.md R22, R23, R52) and the words read from several fields (R27, R39, R43, R44). -/

namespace Sys2Proof.Machine

open Sys2Proof.Claims

/-! ### Where an access goes -/

theorem targetOf_of_register (p : Params) {a : Nat} (h : a < 0x1000) (h4 : a % 4 = 0) :
    targetOf p a 4 = some (.register a) := by
  simp [targetOf, h, h4]

theorem targetOf_of_bytes {p : Params} {a n : Nat} (ha : 0x1000 ≤ a) (h : legalAccess p a n) :
    targetOf p a n = some (.bytes a) := by
  rcases h with ⟨hlt, -, -⟩ | ⟨hn, hmod, hin⟩
  · omega
  · rw [targetOf, if_neg (Nat.not_lt.mpr ha), if_pos ⟨hn, hmod, hin⟩]

theorem insideMemory_of_targetOf {p : Params} {a b n : Nat} (h : targetOf p a n = some (.bytes b)) :
    insideMemory p b n := by
  unfold targetOf at h
  split at h
  · split at h <;> cases h
  · split at h
    case isTrue hin => cases h; exact hin.2.2
    case isFalse => cases h

/-- A host access moves as many bytes as it names (R62). -/
@[simp] theorem length_toLe (n v : Nat) : (toLe n v).length = n := by
  induction n generalizing v with
  | zero => rfl
  | succ n ih => simp [toLe, ih]

/-! ### The register map -/

theorem regAt_regOffset (r : RegName) : regAt (regOffset r) = some r := by
  cases r
  case arg k => revert k; decide
  case res k => revert k; decide
  all_goals rfl

theorem regOffset_lt (r : RegName) : regOffset r < 0x1000 := by
  cases r
  case arg k => simp only [regOffset]; omega
  case res k => simp only [regOffset]; omega
  all_goals simp [regOffset]

theorem regOffset_mod (r : RegName) : regOffset r % 4 = 0 := by
  cases r
  case arg k => simp only [regOffset]; omega
  case res k => simp only [regOffset]; omega
  all_goals rfl

theorem targetOf_offset (p : Params) {off : Nat} (h : off < 0x1000 ∧ off % 4 = 0) :
    targetOf p (BitVec.ofNat 32 off).toNat 4 = some (.register off) := by
  rw [BitVec.toNat_ofNat, Nat.mod_eq_of_lt (by omega)]
  exact targetOf_of_register p h.1 h.2

theorem targetOf_regOffset (p : Params) (r : RegName) :
    targetOf p (BitVec.ofNat 32 (regOffset r)).toNat 4 = some (.register (regOffset r)) :=
  targetOf_offset p ⟨regOffset_lt r, regOffset_mod r⟩

theorem regAt_eq_none {off : Nat} (h : ∀ r, regOffset r ≠ off) : regAt off = none := by
  have listed : ∀ row ∈ regMap, regOffset row.2 = row.1 := by decide
  exact List.lookup_eq_none_iff.mpr fun row hrow => bne_iff_ne.mpr fun e => h row.2 ((listed row hrow).trans e.symm)

/-! ### One equation for each kind of access -/

variable {s : State} {addr v : Word} {n off : Nat} {r : RegName}

theorem hostAccess_read_of_register (ht : targetOf s.params addr.toNat n = some (.register off)) (hr : regAt off = some r) :
    hostAccess s (.read addr n) = .next (pushRead (readReg s r) s) := by
  simp only [hostAccess, ht, hr]

theorem hostAccess_read_of_reserved (ht : targetOf s.params addr.toNat n = some (.register off)) (hr : regAt off = none) :
    hostAccess s (.read addr n) = .next (pushRead 0 s) := by
  simp only [hostAccess, ht, hr]

theorem hostAccess_read_of_bytes {a : Nat} (ht : targetOf s.params addr.toNat n = some (.bytes a)) :
    hostAccess s (.read addr n) = readBytesAccess s a n := by
  simp only [hostAccess, ht]

theorem hostAccess_write_of_register (ht : targetOf s.params addr.toNat n = some (.register off)) (hr : regAt off = some r)
    (hb : s.busy = false ∨ busyGuarded r = false) : hostAccess s (.write addr n v) = .next (writeReg r v s) := by
  simp only [hostAccess, ht, hr]
  exact if_neg (by rcases hb with hb | hb <;> simp [hb])

theorem hostAccess_write_of_guarded (ht : targetOf s.params addr.toNat n = some (.register off)) (hr : regAt off = some r)
    (hb : s.busy = true) (hg : busyGuarded r = true) :
    hostAccess s (.write addr n v) = .refused (.protocolViolation (.write addr n v)) := by
  simp only [hostAccess, ht, hr]
  exact if_pos ⟨hb, hg⟩

theorem hostAccess_write_of_reserved (ht : targetOf s.params addr.toNat n = some (.register off)) (hr : regAt off = none) :
    hostAccess s (.write addr n v) = .next s := by
  simp only [hostAccess, ht, hr]

theorem hostAccess_write_of_bytes {a : Nat} (ht : targetOf s.params addr.toNat n = some (.bytes a)) (hb : s.busy = false) :
    hostAccess s (.write addr n v) = .next (writeBytesAccess s a n v) := by
  simp [hostAccess, ht, hb]

theorem hostAccess_write_of_bytes_busy {a : Nat} (ht : targetOf s.params addr.toNat n = some (.bytes a)) (hb : s.busy = true) :
    hostAccess s (.write addr n v) = .refused (.protocolViolation (.write addr n v)) := by
  simp [hostAccess, ht, hb]

/-- What a host access that answers a next state has done. -/
theorem hostAccess_eq_next {acc : BusAccess} {t : State} (h : hostAccess s acc = .next t) :
    (∃ v, t = pushRead v s) ∨ (∃ a n, readBytesAccess s a n = .next t) ∨ t = s ∨ (∃ r v, t = writeReg r v s) ∨
      ∃ a n v, insideMemory s.params a n ∧ t = writeBytesAccess s a n v := by
  cases acc with
  | read addr n =>
    match ht : targetOf s.params addr.toNat n with
    | none => simp [hostAccess, ht] at h
    | some (.bytes a) => exact .inr (.inl ⟨a, n, (hostAccess_read_of_bytes ht).symm.trans h⟩)
    | some (.register off) =>
      cases hr : regAt off with
      | none => rw [hostAccess_read_of_reserved ht hr] at h; cases h; exact .inl ⟨_, rfl⟩
      | some r => rw [hostAccess_read_of_register ht hr] at h; cases h; exact .inl ⟨_, rfl⟩
  | write addr n v =>
    match ht : targetOf s.params addr.toNat n with
    | none => simp [hostAccess, ht] at h
    | some (.bytes a) =>
      cases hb : s.busy with
      | true => rw [hostAccess_write_of_bytes_busy ht hb] at h; cases h
      | false =>
        rw [hostAccess_write_of_bytes ht hb] at h
        cases h
        exact .inr (.inr (.inr (.inr ⟨a, n, v, insideMemory_of_targetOf ht, rfl⟩)))
    | some (.register off) =>
      cases hr : regAt off with
      | none => rw [hostAccess_write_of_reserved ht hr] at h; cases h; exact .inr (.inr (.inl rfl))
      | some r =>
        by_cases hg : s.busy = true ∧ busyGuarded r = true
        · rw [hostAccess_write_of_guarded ht hr hg.1 hg.2] at h; cases h
        · rw [hostAccess_write_of_register ht hr 
            ((not_and_or.mp hg).imp Bool.eq_false_of_not_eq_true Bool.eq_false_of_not_eq_true)] at h
          cases h
          exact .inr (.inr (.inr (.inl ⟨r, v, rfl⟩)))

/-- A read-only register may be written at any time, to no effect (spec/10_state.md R22; log 11). -/
theorem not_busyGuarded_of_readOnly (h : readOnly r) : busyGuarded r = false ∧ ∀ v, writeReg r v s = s := by
  cases r
  case cmd => exact h.elim
  case ctrl => exact h.elim
  case arg k => exact h.elim
  all_goals exact ⟨rfl, fun _ => rfl⟩

end Sys2Proof.Machine

namespace Sys2Proof.Claims

open Sys2Proof.Machine

/-- The registers that stand in `registerTable` beside ARG and RES. -/
def singleRegisters : List RegName :=
  [.cmd, .status, .ctrl, .errA, .errB, .crcState,
    .width, .height, .hdrFields, .hdrInterlace, .kindInfo, .stride, .spanCount, .imgLen, .imgInfo, .capBits, .capBytes,
    .paramBufBytes, .paramImgBytes, .paramFlags]

theorem registerTable_eq (s : State) :
    registerTable s = singleRegisters.map fun r => (regOffset r, readReg s r) := rfl

/-! ### The statements settled -/

/-- Settles O52: the map takes each register's offset to the register and every other offset to nothing. -/
theorem registerWindowFollowsItsMap : Obligations.RegisterWindowFollowsItsMap := by
  intro s v
  have read : ∀ r, hostAccess s (.read (BitVec.ofNat 32 (regOffset r)) 4) = .next { s with reads := readReg s r :: s.reads } :=
    fun r => hostAccess_read_of_register (targetOf_regOffset s.params r) (regAt_regOffset r)
  refine ⟨read, fun row hrow => ?_, fun k => ⟨read (.arg k), read (.res k)⟩, fun r hr => ?_, fun off hlt hmod hres => ?_⟩
  · rw [registerTable_eq] at hrow
    obtain ⟨r, -, rfl⟩ := List.mem_map.mp hrow
    exact read r
  · obtain ⟨hguard, hkeep⟩ := not_busyGuarded_of_readOnly hr (s := s)
    rw [hostAccess_write_of_register (targetOf_regOffset s.params r) (regAt_regOffset r) (.inr hguard), hkeep]
  · have ht : targetOf s.params (BitVec.ofNat 32 off).toNat 4 = some (.register off) :=
      targetOf_offset s.params ⟨hlt, hmod⟩
    exact ⟨hostAccess_read_of_reserved ht (regAt_eq_none hres), hostAccess_write_of_reserved ht (regAt_eq_none hres)⟩

/-- Settles O54: CTRL stands at offset 8, and its write goes by bits 1 and 0 of the value. -/
theorem ctrlWriteClearsOrResets : Obligations.CtrlWriteClearsOrResets := by
  intro s v
  have ht : targetOf s.params (0x008 : Word).toNat 4 = some (.register 0x008) := targetOf_regOffset s.params .ctrl
  have hr : regAt 0x008 = some .ctrl := regAt_regOffset .ctrl
  have write : s.busy = false → hostAccess s (.write 0x008 4 v) = .next (writeCtrl v s) :=
    fun hb => hostAccess_write_of_register ht hr (.inl hb)
  refine ⟨fun hb h1 => ?_, fun hb h1 h0 => ?_, fun hb h1 h0 => ?_, fun hb => ?_, ?_⟩
  · rw [write hb, writeCtrl, if_pos h1]
    rfl
  · rw [write hb, writeCtrl, if_neg (Bool.eq_false_iff.mp h1), if_pos h0]
    rfl
  · rw [write hb, writeCtrl, if_neg (Bool.eq_false_iff.mp h1), if_neg (Bool.eq_false_iff.mp h0)]
  · exact hostAccess_write_of_guarded ht hr hb rfl
  · exact hostAccess_read_of_register ht hr

/-- Settles O59: a legal access of these addresses has a guarded register or bytes as its target. -/
theorem busyBlockRefusesWrites : Obligations.BusyBlockRefusesWrites := by
  intro s a v n hb hl ha
  have guarded : ∀ r, busyGuarded r = true → a.toNat = regOffset r →
      hostAccess s (.write a n v) = .refused (.protocolViolation (.write a n v)) := fun r hg har => by
    have hlt := regOffset_lt r
    obtain rfl : n = 4 := by
      rcases hl with ⟨-, hn, -⟩ | ⟨-, -, hin⟩
      · exact hn
      · omega
    have ht := targetOf_regOffset s.params r
    rw [← har, BitVec.ofNat_toNat, BitVec.setWidth_eq] at ht
    exact hostAccess_write_of_guarded ht (har ▸ regAt_regOffset r) hb hg
  rcases ha with rfl | rfl | ⟨k, hk⟩ | ha
  · exact guarded .cmd rfl rfl
  · exact guarded .ctrl rfl rfl
  · exact guarded (.arg k) rfl hk
  · exact hostAccess_write_of_bytes_busy (targetOf_of_bytes ha hl) hb

end Sys2Proof.Claims
end

section
/-! PROOFS. The invariant of the block (Safety.lean) is kept by every turn: by a raised error, by a completed command, by the
host's accesses and by the two resets (spec/10_state.md R43, R48, R49, R53, spec/20_memory.md R65). -/

namespace Sys2Proof.Machine

open Sys2Proof.Claims

/-! ### The configuration registers -/

theorem Unconfigured.of_sameConfig {s t : State} (h : Unconfigured s) (hc : sameConfig s t) (hi : t.imgState = .empty) :
    Unconfigured t := by
  obtain ⟨hw, hh, hf, hil, hk, hs, hsc, hl, hv, hcb, hcy⟩ := hc
  exact ⟨hv.trans h.cfgValid, hi, hk.trans h.kind, hw.trans h.width, hh.trans h.height, hf.trans h.hdrFields,
    hil.trans h.hdrInterlace, hs.trans h.stride, hsc.trans h.spanCount, hl.trans h.imgLen, hcb.trans h.capBits,
    hcy.trans h.capBytes⟩

theorem Configured.of_sameConfig {s t : State} {k : PixelKind} (h : Configured s k) (hc : sameConfig s t)
    (hp : t.params = s.params) : Configured t k := by
  obtain ⟨hw, hh, hf, hil, hk, hs, hsc, hl, hv, hcb, hcy⟩ := hc
  constructor <;> simp only [hw, hh, hf, hil, hk, hs, hsc, hl, hv, hcb, hcy, hp]
  exacts [h.cfgValid, h.kind, h.width, h.height, h.hdrFields, h.hdrInterlace, h.stride, h.spanCount, h.imgLen, h.fits,
    h.capBits, h.capBytes]

theorem byteAt_lt (bs : List Byte) (k : Nat) : byteAt bs k < 256 := (bs.getD k 0).isLt

theorem be32_lt (bs : List Byte) : be32 bs < 2 ^ 32 := by
  have h0 := byteAt_lt bs 0
  have h1 := byteAt_lt bs 1
  have h2 := byteAt_lt bs 2
  have h3 := byteAt_lt bs 3
  unfold be32
  omega

theorem kindOf_eq_some {ct bd : Nat} {k : PixelKind} (h : kindOf ct bd = some k) :
    (kindRow k).colorType = ct ∧ (kindRow k).depth = bd := by
  simpa using List.find?_some h

theorem spanCountOf_le_strideOf (k : PixelKind) (w : Nat) : spanCountOf (kindRow k) w ≤ strideOf (kindRow k) w := by
  rw [strideOf_eq_spanCountOf_mul]
  exact Nat.le_mul_of_pos_right _ (spanBytes_pos k)

/-- The capacity in bits is at most four for each byte of the image (spec/10_state.md R45). -/
theorem capBitsOf_le (k : PixelKind) (w h : Nat) : capBitsOf k w h ≤ 4 * (h * (1 + strideOf (kindRow k) w)) := by
  by_cases hk : k = .rgb8 ∨ k = .rgba8
  · obtain ⟨hs, hc⟩ := strideOf_of_stego hk w
    have hcap : capBitsOf k w h = 4 * (h * (w * 3)) := by
      rcases hk with rfl | rfl <;> simp only [capBitsOf] <;> ring
    rw [hcap, hs]
    gcongr
    exact (Nat.mul_le_mul_left w hc).trans (Nat.le_add_left ..)
  · have hcap : capBitsOf k w h = 0 := by cases k <;> simp_all [capBitsOf]
    omega

/-- A header that fits in IMG gives configuration registers that hold what R53 says of them. -/
theorem configured_configure {s : State} (hp : s.params.legal) {k : PixelKind} {w h bd ct : Nat}
    (hk : kindOf ct bd = some k) (hw : 1 ≤ w) (hw' : w < 2 ^ 32) (hh : 1 ≤ h) (hh' : h < 2 ^ 32)
    (hfit : h * (1 + strideOf (kindRow k) w) ≤ s.params.imgBytes) :
    Configured (configure k w h bd ct 0 0 0 s) k := by
  obtain ⟨-, -, himg⟩ := hp
  obtain ⟨rfl, rfl⟩ := kindOf_eq_some hk
  have hstride : 1 + strideOf (kindRow k) w ≤ h * (1 + strideOf (kindRow k) w) := Nat.le_mul_of_pos_left _ hh
  have hspans := spanCountOf_le_strideOf k w
  have hcap := capBitsOf_le k w h
  have fits : ∀ n, n ≤ 2 ^ 26 → n % 2 ^ 32 = n := fun n hn => Nat.mod_eq_of_lt (by omega)
  have hs : strideOf (kindRow k) w % 2 ^ 32 = strideOf (kindRow k) w := fits _ (by omega)
  have hsp : spanCountOf (kindRow k) w % 2 ^ 32 = spanCountOf (kindRow k) w := fits _ (by omega)
  have hl : h * (1 + strideOf (kindRow k) w) % 2 ^ 32 = h * (1 + strideOf (kindRow k) w) := fits _ (by omega)
  have hcb : capBitsOf k w h % 2 ^ 32 = capBitsOf k w h := fits _ (by omega)
  have hcy : capBitsOf k w h / 8 % 2 ^ 32 = capBitsOf k w h / 8 := fits _ (by omega)
  have hwm := Nat.mod_eq_of_lt hw'
  have hhm := Nat.mod_eq_of_lt hh'
  constructor <;>
    simp only [configure_cfgValid, configure_kind, configure_width, configure_height, configure_hdrFields,
      configure_hdrInterlace, configure_stride, configure_spanCount, configure_imgLen, configure_params,
      configure_capBits, configure_capBytes, BitVec.toNat_ofNat, hs, hsp, hl, hcb, hcy, hwm, hhm]
  exacts [hw, hh, rfl, hfit]

/-! ### A completed command -/

/-- A line that the checks of the line commands let pass is stored inside BUF (spec/43_filter.md R190). -/
theorem mapped_of_inLineDestination {p : Bool} {s : State} {shape : LineShape} (h : lineChecks p s = .ok shape) {a : Nat}
    (ha : inLineDestination s a = true) : mapped s.params a := by
  obtain ⟨k, hk, -, -, -, -, -, -, hdst, -⟩ := lineChecks_eq_ok.mp h
  simp only [inLineDestination, hk, inRange_eq_true] at ha
  exact .inl ⟨by omega, by omega⟩

theorem amongNibbles_eq_true {s : State} {q n a : Nat} : amongNibbles s q n a = true ↔ ∃ k < n, nibAddr s (q + k) = a := by
  simp [amongNibbles]

section Stored

variable {s : State} (inv : BlockInv s)
include inv

theorem mapped_of_image {a : Nat} (ha : inRange imgBase s.imgLen.toNat a = true) : mapped s.params a := by
  have := inv.imgLen_le
  rw [inRange_eq_true] at ha
  exact .inr ⟨ha.1, by omega⟩

/-- The nibbles of the stream up to the capacity stand inside IMG (spec/44_stego.md R221). -/
theorem mapped_of_amongNibbles (hs : stegoChecks s = .ok ()) {q n a : Nat} (hn : 4 * (q + n) ≤ s.capBits.toNat)
    (ha : amongNibbles s q n a = true) : mapped s.params a := by
  obtain ⟨-, hk, hraw⟩ := stegoChecks_eq_ok.mp hs
  obtain ⟨j, hj, rfl⟩ := amongNibbles_eq_true.mp ha
  obtain ⟨x, hx, hax⟩ := inv.nibAddr_mem (by simp [hraw]) hk (q := q + j) (by omega)
  rw [hax]
  exact mapped_of_image inv (inRange_eq_true.mpr ⟨by omega, by omega⟩)

/-- A completed command stores inside BUF and IMG (spec/20_memory.md R61, R65). -/
theorem mapped_of_stored {i : Instr} {d : Done} (h : endOf i s = .ok d) {c : Host.Cell} (hc : c ∈ d.stores) :
    mapped s.params c.1 := by
  have hm := mayStore_of_stored h hc
  have inBuf : ∀ {off n}, inRange (bufBase + off) n c.1 = true → off + n ≤ s.params.bufBytes → mapped s.params c.1 :=
    fun hr hb => by
      rw [inRange_eq_true] at hr
      exact .inl ⟨by omega, by omega⟩
  have inLines : inImageLines s c.1 = true → mapped s.params c.1 := fun hl =>
    mapped_of_image inv (by rwa [inImageLines, ← inv.imgLen_eq] at hl)
  cases i <;> simp only [endOf] at h
  case chunkEmit => obtain ⟨-, -, -, hb, -⟩ := endChunkEmit_eq_ok.mp h; exact inBuf hm hb
  case pixWrite =>
    obtain ⟨hcfg, -, -, -, ⟨hy, hsp, -⟩, -⟩ := endPixWrite_eq_ok.mp h
    obtain ⟨k, hk⟩ := inv.configured hcfg
    have hspan := hk.span_le hy hsp
    simp only [mayStore, inRange_eq_true, spanAddr] at hm
    exact mapped_of_image inv (inRange_eq_true.mpr ⟨by omega, by omega⟩)
  case imgImport => exact mapped_of_image inv hm
  case imgExport => obtain ⟨-, -, hb, -⟩ := endImgExport_eq_ok.mp h; exact inBuf hm hb
  case imgZero => exact mapped_of_image inv hm
  case lineRecon p =>
    obtain ⟨shape, hs, -⟩ := endLineRecon_eq_ok.mp h
    exact mapped_of_inLineDestination hs (Bool.and_eq_true_iff.mp hm).2
  case lineFilter sel p =>
    obtain ⟨-, shape, hs, -⟩ := endLineFilter_eq_ok.mp h
    exact mapped_of_inLineDestination hs hm
  case imgRecon => exact inLines (Bool.and_eq_true_iff.mp hm).2
  case imgFilter sel => exact inLines hm
  case stgRead => obtain ⟨-, -, hb, -⟩ := endStgRead_eq_ok.mp h; exact inBuf hm hb
  case stgWrite =>
    obtain ⟨hs, ho, -⟩ := endStgWrite_eq_ok.mp h
    obtain ⟨hb, hn⟩ := offsetChecks_eq_ok.mp ho
    exact mapped_of_amongNibbles inv hs (by omega) hm
  case stgFrame =>
    obtain ⟨hs, hn, -⟩ := endStgFrame_eq_ok.mp h
    have := inv.capBytes_eq
    exact mapped_of_amongNibbles inv hs (by omega) hm
  case stgExtract =>
    simp only [mayStore, inRange_eq_true] at hm
    exact .inl ⟨by omega, by omega⟩
  all_goals exact absurd hm Bool.false_ne_true

/-- After a completed command that leaves the image not EMPTY, the configuration is valid and every byte of the image is
written: it was so before, or the command has stored the whole image (spec/10_state.md R48). -/
theorem image_written_of_done {i : Instr} {d : Done} (h : endOf i s = .ok d) (himg : d.regs.imgState ≠ .empty) :
    s.cfgValid = true ∧ ∀ j < s.imgLen.toNat, ((s.mem.writeCells d.stores).read (imgBase + j)).isSome = true := by
  have before : s.imgState ≠ .empty →
      s.cfgValid = true ∧ ∀ j < s.imgLen.toNat, ((s.mem.writeCells d.stores).read (imgBase + j)).isSome = true := fun hs =>
    (inv.image hs).imp_right fun hr j hj => Memory.isSome_read_writeCells _ (hr j hj)
  have whole : ∀ bs : List Byte, d.stores = cellsAt imgBase bs → bs.length = s.imgLen.toNat →
      ∀ j < s.imgLen.toNat, ((s.mem.writeCells d.stores).read (imgBase + j)).isSome = true := fun bs hd hl j hj => by
    rw [hd, Memory.read_writeCells_cellsAt_in _ (hl ▸ hj)]
    rfl
  rw [(RegisterEffect.of_done h).imgState] at himg
  cases i <;> simp only [endOf] at h
  case hdrLoad => exact absurd rfl himg
  case imgImport =>
    obtain ⟨hcfg, -, -, hlen, bs, hbs, rfl⟩ := endImgImport_eq_ok.mp h
    exact ⟨hcfg, whole bs rfl ((Memory.length_of_readBytes hbs).trans hlen)⟩
  case imgZero =>
    obtain ⟨hcfg, rfl⟩ := endImgZero_eq_ok.mp h
    exact ⟨hcfg, whole _ rfl (List.length_replicate ..)⟩
  case imgRecon => obtain ⟨-, hs, -⟩ := endImgRecon_eq_ok.mp h; exact before hs
  case imgFilter sel => obtain ⟨-, -, hs, -⟩ := endImgFilter_eq_ok.mp h; exact before (by simp [hs])
  all_goals exact before himg

/-- The configuration registers after a completed command. -/
theorem config_of_done {i : Instr} {d : Done} (h : endOf i s = .ok d) :
    Unconfigured (commitStores d) ∨ ∃ k, Configured (commitStores d) k := by
  have eff := RegisterEffect.of_done h
  by_cases hi : i = .hdrLoad
  · subst hi
    obtain ⟨-, hd, -, -, k, hk, h10, h11, h12, hwh, hfit, rfl⟩ := endHdrLoad_eq_ok.mp h
    obtain ⟨hw, hh⟩ := not_or.mp hwh
    rw [h10, h11, h12, commitStores_no_stores]
    exact .inr ⟨k, configured_configure inv.params hk (Nat.pos_of_ne_zero hw) (be32_lt _) (Nat.pos_of_ne_zero hh)
      (be32_lt _) hfit⟩
  · rcases inv.config with hu | ⟨k, hk⟩
    · by_cases he : d.regs.imgState = .empty
      · exact .inl (hu.of_sameConfig (eff.config hi) he)
      · exact absurd (image_written_of_done inv h he).1 (by simp [hu.cfgValid])
    · exact .inr ⟨k, hk.of_sameConfig (eff.config hi) eff.params⟩

/-- A completed command keeps the invariant. -/
theorem blockInv_completeCommand {i : Instr} {d : Done} (h : endOf i s = .ok d) :
    BlockInv (completeCommand (commitStores d)) := by
  have eff := RegisterEffect.of_done h
  have hmem : (commitStores d).mem = s.mem.writeCells d.stores := congrArg (Memory.writeCells · d.stores) eff.mem
  constructor
  case params => exact eff.params.symm ▸ inv.params
  case canonical => exact hmem ▸ Memory.wf_writeCells inv.canonical d.stores
  case inside =>
    intro c hc
    rw [completeCommand_mem, hmem] at hc
    rw [completeCommand_params, commitStores_params, eff.params]
    rcases Memory.mem_writeCells hc with hc | hc
    · exact mapped_of_stored inv h hc
    · exact inv.inside c hc
  case pending => rfl
  case err => simp
  case info => exact fun _ => ⟨rfl, rfl⟩
  case config =>
    refine (config_of_done inv h).imp (fun hu => ?_) fun ⟨k, hk⟩ => ⟨k, ?_⟩
    · exact hu.of_sameConfig (sameConfig_refl _) hu.imgState
    · exact hk.of_sameConfig (sameConfig_refl _) rfl
  case image =>
    intro himg
    obtain ⟨hcfg, hread⟩ := image_written_of_done inv h himg
    by_cases hi : i = .hdrLoad
    · subst hi; exact absurd eff.imgState himg
    obtain ⟨-, -, -, -, -, -, -, hl, hv, -, -⟩ := eff.config hi
    rw [completeCommand_cfgValid, completeCommand_imgLen, completeCommand_mem, hmem, commitStores_cfgValid,
      commitStores_imgLen, hl, hv]
    exact ⟨hcfg, hread⟩

end Stored

/-! ### Turns that keep BUF, IMG and the configuration -/

namespace BlockInv

variable {s t : State} (inv : BlockInv s)
include inv

/-- A change of status, of operands or of the model's own fields keeps the invariant when the status still agrees. -/
theorem of_status (hc : sameConfig s t) (hp : t.params = s.params) (hm : t.mem = s.mem) (hi : t.imgState = s.imgState)
    (hpend : t.pending = t.busy) (herr : t.err = true ↔ t.code ≠ .ok) (hinfo : t.code = .ok → t.errA = 0 ∧ t.errB = 0) :
    BlockInv t where
  params := hp ▸ inv.params
  canonical := hm ▸ inv.canonical
  inside := by rw [hm, hp]; exact inv.inside
  pending := hpend
  err := herr
  info := hinfo
  config := inv.config.imp (fun hu => hu.of_sameConfig hc (hi.trans hu.imgState)) fun ⟨k, hk⟩ => ⟨k, hk.of_sameConfig hc hp⟩
  image := by
    obtain ⟨-, -, -, -, -, -, -, hl, hv, -, -⟩ := hc
    rw [hi, hv, hl, hm]
    exact inv.image

/-- A raised error keeps the invariant. -/
theorem raiseError {e : ErrorCode} (he : e ≠ .ok) (a b : Nat) : BlockInv (raiseError e a b s) :=
  inv.of_status (sameConfig_refl s) rfl rfl rfl rfl (by simpa using he) fun h => absurd h he

theorem issueCommand (w : Word) : BlockInv (issueCommand w s) :=
  inv.of_status (sameConfig_refl s) rfl rfl rfl rfl inv.err inv.info

theorem clearSticky : BlockInv (clearSticky s) :=
  inv.of_status (sameConfig_refl s) rfl rfl rfl inv.pending inv.err inv.info

theorem withArgs (args : Vector Word 8) : BlockInv { s with args := args } :=
  inv.of_status (sameConfig_refl s) rfl rfl rfl inv.pending inv.err inv.info

theorem withSchedule (es : List Event) : BlockInv { s with schedule := es } :=
  inv.of_status (sameConfig_refl s) rfl rfl rfl inv.pending inv.err inv.info

theorem pushRead (v : Word) : BlockInv (pushRead v s) :=
  inv.of_status (sameConfig_refl s) rfl rfl rfl inv.pending inv.err inv.info

theorem countDraws (n : Nat) : BlockInv (countDraws n s) := by
  unfold Machine.countDraws
  split
  · exact inv.of_status (sameConfig_refl s) rfl rfl rfl inv.pending inv.err inv.info
  · exact inv

/-- A soft reset keeps the bytes of BUF and IMG and drops the image (spec/70_reset_and_hazards.md R291). -/
theorem softReset : BlockInv (softReset s) where
  params := inv.params
  canonical := inv.canonical
  inside := inv.inside
  pending := rfl
  err := by simp
  info _ := ⟨rfl, rfl⟩
  config := .inl ((unconfigured_resetFor s.params).of_sameConfig (sameConfig_refl _) rfl)
  image h := absurd rfl h

theorem hardReset : BlockInv (hardReset s) :=
  (blockInv_resetFor inv.params).of_status (sameConfig_refl _) rfl rfl rfl rfl (by simp) fun _ => ⟨rfl, rfl⟩

/-! ### The host's accesses -/

theorem writeCtrl (v : Word) : BlockInv (writeCtrl v s) := by
  unfold Machine.writeCtrl
  split
  · exact inv.softReset
  · split
    · exact inv.clearSticky
    · exact inv

theorem writeReg (r : RegName) (v : Word) : BlockInv (writeReg r v s) := by
  cases r
  case cmd => exact inv.issueCommand v
  case ctrl => exact inv.writeCtrl v
  case arg k => exact inv.withArgs _
  all_goals exact inv

/-- A host write inside BUF or IMG keeps the invariant: it stores mapped bytes, and a byte that was written stays so. -/
theorem writeBytesAccess {a n : Nat} (h : insideMemory s.params a n) (v : Word) :
    BlockInv (writeBytesAccess s a n v) where
  params := inv.params
  canonical := Memory.wf_writeCells inv.canonical _
  inside c hc := by
    rcases Memory.mem_writeCells hc with hc | hc
    · have := mem_cellsAt hc
      rw [length_toLe] at this
      rw [writeBytesAccess_params]
      exact h.imp (fun h => ⟨by omega, by omega⟩) fun h => ⟨by omega, by omega⟩
    · exact inv.inside c hc
  pending := inv.pending
  err := inv.err
  info := inv.info
  config := inv.config.imp (fun hu => hu.of_sameConfig (sameConfig_refl s) hu.imgState) fun ⟨k, hk⟩ =>
    ⟨k, hk.of_sameConfig (sameConfig_refl s) rfl⟩
  image himg := (inv.image himg).imp_right fun hr j hj => Memory.isSome_read_writeCells _ (hr j hj)

theorem readBytesAccess {a n : Nat} (h : readBytesAccess s a n = .next t) : BlockInv t := by
  unfold Machine.readBytesAccess at h
  split at h
  · cases h; exact (inv.pushRead _).countDraws _
  · cases h

theorem hostAccess {acc : BusAccess} (h : hostAccess s acc = .next t) : BlockInv t := by
  rcases hostAccess_eq_next h with ⟨v, rfl⟩ | ⟨a, n, hr⟩ | rfl | ⟨r, v, rfl⟩ | ⟨a, n, v, hin, rfl⟩
  · exact inv.pushRead v
  · exact inv.readBytesAccess hr
  · exact inv
  · exact inv.writeReg r v
  · exact inv.writeBytesAccess hin v

/-! ### The sequencer's turn, and every step -/

theorem exec {i : Instr} (h : exec i s = .next t) : BlockInv t := by
  rcases exec_eq_next.mp h with ⟨d, hd, rfl⟩ | ⟨e, a, b, he, rfl⟩
  · exact blockInv_completeCommand inv hd
  · exact inv.raiseError (ne_ok_of_raise he) a b

theorem runCommand (h : runCommand s = .next t) : BlockInv t := by
  cases hd : decode s.cmd with
  | ok i => exact inv.exec ((runCommand_of_decoded hd).symm.trans h)
  | error r =>
    rw [runCommand_of_rejected hd] at h
    cases h
    exact inv.raiseError (by decide) _ _

theorem sequencerTurn (h : sequencerTurn s = .next t) : BlockInv t := by
  cases hp : s.pending with
  | true => exact inv.runCommand ((sequencerTurn_of_pending hp).symm.trans h)
  | false => rw [sequencerTurn_of_idle hp] at h; cases h

theorem unscheduled (h : unscheduled s = .next t) : BlockInv t := by
  cases hp : s.pending with
  | true => exact inv.runCommand ((unscheduled_of_pending hp).symm.trans h)
  | false => rw [unscheduled_of_idle hp] at h; cases h; exact inv

theorem takeTurn {e : Event} (h : takeTurn s e = .next t) : BlockInv t := by
  cases e with
  | host acc => exact inv.hostAccess h
  | sequencer => exact inv.sequencerTurn h
  | hardwareReset => cases h; exact inv.hardReset

theorem step (h : step s = .next t) : BlockInv t := by
  cases hs : s.schedule with
  | nil => exact inv.unscheduled ((step_of_unscheduled hs).symm.trans h)
  | cons e rest => exact (inv.withSchedule rest).takeTurn ((step_of_scheduled hs).symm.trans h)

end BlockInv

end Sys2Proof.Machine

namespace Sys2Proof.Claims

open Sys2Proof.Machine

/-! ### The statement settled -/

/-- Settles O49, by the kind of turn. -/
theorem stepKeepsInvariant : Obligations.StepKeepsInvariant := fun _ _ inv h => inv.step h

end Sys2Proof.Claims
end

section
/-! PROOFS. The words that are read from several fields: each field in its bits, the rest 0 (spec/10_state.md R27, R31, R39,
R43, R44, spec/60_exceptions.md R260). -/

namespace Sys2Proof.Machine

open Sys2Proof.Claims

variable (s : State)

theorem mem_codeTable (e : ErrorCode) : (e, errorNumber e) ∈ codeTable := by
  cases e <;> decide

theorem mem_imgStateTable (i : ImgState) : (i, imgStateNumber i) ∈ imgStateTable := by
  cases i <;> decide

/-- STATUS, by the value of CODE and of the three bits (R27). -/
theorem statusWord_fields :
    (statusWord s).getLsbD 0 = s.busy ∧ (statusWord s).getLsbD 1 = s.err ∧ (statusWord s).getLsbD 2 = s.sticky ∧
      (statusWord s).extractLsb' 3 5 = 0 ∧ ((statusWord s).extractLsb' 8 8).toNat = errorNumber s.code ∧
        (statusWord s).extractLsb' 16 16 = 0 := by
  unfold statusWord
  generalize s.busy = busy, s.err = err, s.sticky = sticky
  cases s.code <;> revert busy err sticky <;> decide

/-- KIND_INFO, by the kind (R39). -/
theorem kindInfoWord_fields :
    ((kindInfoWord s).extractLsb' 0 4).toNat = s.kindRow.code ∧ ((kindInfoWord s).extractLsb' 4 3).toNat = s.kindRow.chans ∧
      (kindInfoWord s).getLsbD 7 = false ∧ ((kindInfoWord s).extractLsb' 8 7).toNat = s.kindRow.bpp ∧
      (kindInfoWord s).getLsbD 15 = false ∧ ((kindInfoWord s).extractLsb' 16 4).toNat = s.kindRow.sps ∧
      ((kindInfoWord s).extractLsb' 20 4).toNat = s.kindRow.spanBytes ∧
      ((kindInfoWord s).extractLsb' 24 5).toNat = s.kindRow.depth ∧ (kindInfoWord s).extractLsb' 29 3 = 0 := by
  unfold kindInfoWord State.kindRow
  cases s.kind with
  | none => decide
  | some k => cases k <;> decide

theorem kindInfoWord_of_none (h : s.kind = none) : kindInfoWord s = 0x0000000F := by
  simp [kindInfoWord, State.kindRow, h, noKindRow]

/-- IMG_INFO, by IMG_STATE and CFG_VALID (R43). -/
theorem imgInfoWord_fields :
    (imgInfoWord s).getLsbD 0 = s.cfgValid ∧ ((imgInfoWord s).extractLsb' 1 2).toNat = imgStateNumber s.imgState ∧
      (imgInfoWord s).extractLsb' 3 29 = 0 := by
  unfold imgInfoWord
  cases s.imgState <;> cases s.cfgValid <;> decide

/-- PARAM_FLAGS, by its two bits (R44). -/
theorem paramFlagsWord_fields (p : Params) :
    (paramFlagsWord p).getLsbD 0 = p.tagCheck ∧ (paramFlagsWord p).getLsbD 1 = p.padMode ∧
      (paramFlagsWord p).extractLsb' 2 30 = 0 := by
  unfold paramFlagsWord
  cases p.tagCheck <;> cases p.padMode <;> decide

end Sys2Proof.Machine

namespace Sys2Proof.Claims

open Sys2Proof.Machine

/-! ### The statement settled -/

/-- Settles O51: the four words field by field, CODE and IMG_STATE being the numbers of the tables. -/
theorem statusWordsHoldTheirFields : Obligations.StatusWordsHoldTheirFields := by
  intro s
  obtain ⟨hbusy, herr, hsticky, hlow, hcode, hhigh⟩ := statusWord_fields s
  obtain ⟨hkind, hchans, h7, hbpp, h15, hsps, hspan, hdepth, hrest⟩ := kindInfoWord_fields s
  obtain ⟨hcfg, himg, hzero⟩ := imgInfoWord_fields s
  exact ⟨hbusy, herr, hsticky, hlow, hcode ▸ mem_codeTable s.code, hhigh, hkind, hchans, h7, hbpp, h15, hsps, hspan, hdepth,
    hrest, kindInfoWord_of_none s, fun k hk => kindRow_of_kind hk, hcfg, himg ▸ mem_imgStateTable s.imgState, hzero,
    paramFlagsWord_fields s.params⟩

end Sys2Proof.Claims
end

section
/-! PROOFS. The write set of the pending command and the host's reads of BUF and IMG (spec/20_memory.md R62, R69,
spec/10_state.md R54): the sequencer's step stays inside the write set, a completed command's write set is its destination,
and a read gives the bytes it sees, little-endian. -/

namespace Sys2Proof.Machine

open Sys2Proof.Claims

/-! ### The destination of a command, in the statement's words and in the model's -/

theorem inLineDestination_eq_true {s : State} {a : Nat} :
    inLineDestination s a = true ↔ ∃ base n, lineDestination s = some (base, n) ∧ base ≤ a ∧ a < base + n := by
  unfold inLineDestination lineDestination
  cases kindOfCode (currentKindCode s) <;> simp

theorem amongNibbles_iff {s : State} {q n a : Nat} :
    amongNibbles s q n a = true ↔ ∃ p, q ≤ p ∧ p < q + n ∧ nibAddr s p = a := by
  rw [amongNibbles_eq_true]
  constructor
  · rintro ⟨k, hk, ha⟩
    exact ⟨q + k, by omega, by omega, ha⟩
  · rintro ⟨p, hq, hn, ha⟩
    exact ⟨p - q, by omega, by rwa [Nat.add_sub_cancel' hq]⟩

/-- What a command may store is in the destination its rule names, and it is no command that stores nothing. -/
theorem inDestination_of_mayStore {i : Instr} {s : State} {a : Nat} (h : mayStore i s a = true) :
    ¬storesNothing i ∧ inDestination i s a := by
  cases i
  case chunkEmit => exact ⟨id, inRange_eq_true.mp h⟩
  case pixWrite => exact ⟨id, inRange_eq_true.mp h⟩
  case imgImport => exact ⟨id, inRange_eq_true.mp h⟩
  case imgExport => exact ⟨id, inRange_eq_true.mp h⟩
  case imgZero => exact ⟨id, inRange_eq_true.mp h⟩
  case lineRecon p => exact ⟨id, inLineDestination_eq_true.mp (Bool.and_eq_true_iff.mp h).2⟩
  case lineFilter sel p => exact ⟨id, inLineDestination_eq_true.mp h⟩
  case imgRecon => exact ⟨id, inRange_eq_true.mp (Bool.and_eq_true_iff.mp h).2⟩
  case imgFilter sel => exact ⟨id, inRange_eq_true.mp h⟩
  case stgRead => exact ⟨id, inRange_eq_true.mp h⟩
  case stgWrite => exact ⟨id, amongNibbles_iff.mp h⟩
  case stgFrame =>
    obtain ⟨q, -, hq, ha⟩ := amongNibbles_iff.mp h
    exact ⟨id, q, by omega, ha⟩
  case stgExtract =>
    simp only [mayStore, inRange_eq_true] at h
    exact ⟨id, ⟨h.1, by omega⟩, by omega⟩
  all_goals exact absurd h Bool.false_ne_true

/-! ### A completed command stores its whole destination -/

theorem exists_mem_cellsAt {base a : Nat} {bs : List Byte} (h : base ≤ a ∧ a < base + bs.length) :
    ∃ c ∈ cellsAt base bs, c.1 = a := by
  induction bs generalizing base with
  | nil => simp at h; omega
  | cons b bs ih =>
    by_cases ha : base = a
    · exact ⟨(base, b), by simp [cellsAt], ha⟩
    · rw [List.length_cons] at h
      obtain ⟨c, hc, hca⟩ := ih (base := base + 1) ⟨by omega, by omega⟩
      exact ⟨c, List.mem_cons_of_mem _ hc, hca⟩

/-- The addresses of bytes stored one after another. -/
theorem exists_mem_cellsAt_iff {base a : Nat} {bs : List Byte} :
    (∃ c ∈ cellsAt base bs, c.1 = a) ↔ base ≤ a ∧ a < base + bs.length :=
  ⟨fun ⟨_, hc, hca⟩ => hca ▸ mem_cellsAt hc, exists_mem_cellsAt⟩

theorem exists_mem_of_writeNibbles {s : State} {q a : Nat} {bs : List Byte} {cells : List Host.Cell}
    (h : writeNibbles s q bs = .ok cells) (ha : ∃ p, q ≤ p ∧ p < q + 2 * bs.length ∧ nibAddr s p = a) :
    ∃ c ∈ cells, c.1 = a := by
  obtain ⟨-, haddr, -, -⟩ := writeNibbles_eq_ok h
  obtain ⟨p, hq, hn, rfl⟩ := ha
  have hmem : nibAddr s p ∈ cells.map Prod.fst := by
    rw [haddr]
    exact List.mem_map_of_mem (List.mem_range'_1.mpr ⟨hq, hn⟩)
  exact List.mem_map.mp hmem

/-- Every byte of the destination is stored, but for the bytes of STG_EXTRACT that its frame is too short for. -/
theorem exists_stored_of_inDestination {i : Instr} {s : State} {d : Done} (h : endOf i s = .ok d) (hi : i ≠ .stgExtract)
    {a : Nat} (ha : inDestination i s a) : ∃ c ∈ d.stores, c.1 = a := by
  have bytes : ∀ {base n : Nat} {bs : List Byte}, bs.length = n → base ≤ a ∧ a < base + n → ∃ c ∈ cellsAt base bs, c.1 = a :=
    fun hl h => exists_mem_cellsAt (hl ▸ h)
  have line : ∀ {p : Bool} {shape : LineShape} {bs : List Byte}, lineChecks p s = .ok shape → bs.length = 1 + shape.stride →
      (∃ base n, lineDestination s = some (base, n) ∧ base ≤ a ∧ a < base + n) → ∃ c ∈ cellsAt (bufBase + s.arg 2) bs, c.1 = a := by
    rintro p shape bs hs hl ⟨base, n, hd, hr⟩
    obtain ⟨k, hk, _, -, -, -, -, -, -, rfl⟩ := lineChecks_eq_ok.mp hs
    simp only [lineDestination, hk, Option.map_some, Option.some.injEq, Prod.mk.injEq] at hd
    obtain ⟨rfl, rfl⟩ := hd
    exact bytes hl hr
  have rows : ∀ {rs : List (List Byte)}, rs.length = s.height.toNat → (∀ r ∈ rs, r.length = 1 + s.stride.toNat) →
      imgBase ≤ a ∧ a < imgBase + s.height.toNat * (1 + s.stride.toNat) →
        ∃ c ∈ cellsAt (imgBase + rowOff s 0) rs.flatten, c.1 = a := fun hn hl h => by
    rw [rowOff, Nat.zero_mul, Nat.add_zero]
    exact bytes (by rw [length_flatten_rows hl, hn]) h
  cases i <;> simp only [endOf] at h
  case chunkEmit =>
    obtain ⟨-, -, -, -, data, hd, rfl⟩ := endChunkEmit_eq_ok.mp h
    refine bytes ?_ ha
    simp [chunkFrame, toBe32, Memory.length_of_readBytes hd]
    omega
  case pixWrite =>
    obtain ⟨hcfg, -, h14, hk, -, -, sb, -, rfl⟩ := endPixWrite_eq_ok.mp h
    refine bytes ?_ ha
    cases hs : s.kind with
    | none => simp only [State.kindRow, hs, noKindRow] at hk; omega
    | some k => rw [kindRow_of_kind hs]; exact length_spanWrite ..
  case imgImport =>
    obtain ⟨-, -, -, he, bs, hb, rfl⟩ := endImgImport_eq_ok.mp h
    exact bytes ((Memory.length_of_readBytes hb).trans he) ha
  case imgExport =>
    obtain ⟨-, -, -, bs, hb, rfl⟩ := endImgExport_eq_ok.mp h
    exact bytes (Memory.length_of_readBytes hb) ha
  case imgZero =>
    obtain ⟨-, rfl⟩ := endImgZero_eq_ok.mp h
    exact bytes (List.length_replicate ..) ha
  case lineRecon p =>
    obtain ⟨shape, hs, bs, hb, t, -, u, -, rfl⟩ := endLineRecon_eq_ok.mp h
    exact line hs (by simp [Memory.length_of_readBytes hb]) ha
  case lineFilter sel p =>
    obtain ⟨-, shape, hs, raw, hb, _, -, r, u, t, rfl, rfl, rfl, rfl⟩ := endLineFilter_eq_ok.mp h
    exact line hs (by simp [Memory.length_of_readBytes hb]) ha
  case imgRecon =>
    obtain ⟨-, -, -, cells, hcells, rfl⟩ := endImgRecon_eq_ok.mp h
    rw [List.range_eq_range'] at hcells
    obtain ⟨rs, hn, hl, rfl, -⟩ := reconRows_eq_ok hcells
    exact rows hn hl ha
  case imgFilter sel =>
    obtain ⟨-, -, -, cells, hcells, rfl⟩ := endImgFilter_eq_ok.mp h
    rw [List.range_eq_range'] at hcells
    obtain ⟨_, -, -, rs, hn, hl, rfl, -⟩ := filterRows_eq_ok hcells
    exact rows hn hl ha
  case stgRead =>
    obtain ⟨-, -, -, bs, hb, rfl⟩ := endStgRead_eq_ok.mp h
    exact bytes (readNibbles_eq_ok.mp hb).1 ha
  case stgWrite =>
    obtain ⟨-, -, -, bs, hb, cells, hcells, rfl⟩ := endStgWrite_eq_ok.mp h
    exact exists_mem_of_writeNibbles hcells (by rw [Memory.length_of_readBytes hb]; exact ha)
  case stgFrame =>
    obtain ⟨-, -, -, body, hb, cells, hcells, rfl⟩ := endStgFrame_eq_ok.mp h
    obtain ⟨q, hq, hqa⟩ := ha
    refine exists_mem_of_writeNibbles hcells ⟨q, by omega, ?_, hqa⟩
    rw [length_stegoFrame, Memory.length_of_readBytes hb]
    omega
  case stgExtract => exact absurd rfl hi
  all_goals exact ha.elim

/-- STG_EXTRACT stores as many bytes as RES0 then says. -/
theorem stored_of_stgExtract {s : State} {d : Done} (h : endOf .stgExtract s = .ok d) {a : Nat} :
    (∃ c ∈ d.stores, c.1 = a) ↔ bufBase + s.arg 0 ≤ a ∧ a < bufBase + s.arg 0 + (d.regs.res[0]).toNat := by
  obtain ⟨-, len, hd, -, bs, hbs, rfl⟩ := endStgExtract_eq_ok.mp h
  have hlen := le_capBytes_of_detect hd
  have hcap := s.capBytes.isLt
  have hres : ((s.setRes 0 len).res[0]).toNat = len := by
    simp
    omega
  rw [hres, exists_mem_cellsAt_iff, (readNibbles_eq_ok.mp hbs).1]

/-! ### The write set -/

/-- The write set is inside what the decoded command may store. -/
theorem mayStore_of_pendingWrites {s : State} {a : Nat} (h : pendingWrites s a = true) :
    s.pending = true ∧ ∃ i, decode s.cmd = .ok i ∧ mayStore i s a = true := by
  cases hp : s.pending with
  | false => simp [pendingWrites_of_idle hp] at h
  | true =>
    cases hd : decode s.cmd with
    | error r => simp [pendingWrites_of_illegal hd] at h
    | ok i =>
      refine ⟨rfl, i, rfl, ?_⟩
      match he : endOf i s with
      | .ok d =>
        obtain ⟨c, hc, rfl⟩ := (pendingWrites_of_done hp hd he a).mp h
        exact mayStore_of_stored he hc
      | .error (.raise e x y) => simp [pendingWrites_of_raise hp hd he] at h
      | .error (.uninit x) => rwa [pendingWrites_of_uninit hp hd he] at h

/-- What a command stores when bytes never written are filled in is in the write set (log 8). -/
theorem pendingWrites_of_stored {s : State} {m : Memory} {i : Instr} {d : Done} (hp : s.pending = true)
    (hm : ∀ x b, s.mem.read x = some b → m.read x = some b) (hd : decode s.cmd = .ok i)
    (he : endOf i { s with mem := m } = .ok d) {c : Host.Cell} (hc : c ∈ d.stores) : pendingWrites s c.1 = true := by
  have alike := Alike.endOf hm i
  match hs : endOf i s with
  | .ok d' =>
    rw [hs] at alike
    obtain ⟨w, hw, hstores⟩ := alike
    obtain rfl : d = w := Except.ok.inj (he.symm.trans hw)
    exact (pendingWrites_of_done hp hd hs _).mpr ⟨c, hstores ▸ hc, rfl⟩
  | .error (.raise e x y) =>
    rw [hs] at alike
    cases he.symm.trans alike
  | .error (.uninit x) =>
    rw [pendingWrites_of_uninit hp hd hs]
    exact mayStore_fill hm (mayStore_of_stored he hc)

/-- The sequencer's step changes no byte outside the write set, whatever bytes never written hold. -/
theorem read_of_not_pendingWrites {s t : State} {m : Memory} {a : Nat} (hp : s.pending = true)
    (hm : ∀ x b, s.mem.read x = some b → m.read x = some b) (h : sequencerTurn { s with mem := m } = .next t)
    (ha : pendingWrites s a = false) : t.mem.read a = m.read a := by
  rw [sequencerTurn_of_pending (s := { s with mem := m }) hp] at h
  cases hd : decode s.cmd with
  | error r =>
    rw [runCommand_of_rejected (s := { s with mem := m }) hd] at h
    cases h
    rfl
  | ok i =>
    rw [runCommand_of_decoded (s := { s with mem := m }) hd] at h
    rcases exec_eq_next.mp h with ⟨d, he, rfl⟩ | ⟨e, x, y, -, rfl⟩
    · refine read_commitStores_of_not_mem he fun c hc hca => ?_
      subst hca
      simp [pendingWrites_of_stored hp hm hd he hc] at ha
    · rfl

/-! ### The bytes of a host read -/

theorem hostByte_of_seesByte {s : State} {a k : Nat} {b : Byte} (h : seesByte s a k b) : hostByte s a k = some b := by
  rcases h with ⟨hw, rfl⟩ | ⟨hw, hr⟩
  · simp [hostByte, hw]
  · simp [hostByte, hw, hr]

/-- Byte `j` of the value a read of at most four bytes returns. -/
theorem extractLsb'_leNat {bs : List Byte} (hl : bs.length ≤ 4) {j : Nat} (hj : j < bs.length) :
    (BitVec.ofNat 32 (leNat bs)).extractLsb' (8 * j) 8 = bs[j] := by
  refine BitVec.eq_of_toNat_eq ?_
  have hlt : leNat bs < 2 ^ 32 := (leNat_lt bs).trans_le (Nat.pow_le_pow_right (by decide) (by omega))
  rw [BitVec.extractLsb'_toNat, BitVec.toNat_ofNat, Nat.mod_eq_of_lt hlt, Nat.shiftRight_eq_div_pow]
  exact leNat_byte bs j hj

end Sys2Proof.Machine

namespace Sys2Proof.Claims

open Sys2Proof.Machine

/-! ### The clauses of HostByteReadWhilePending -/

/-- The write set of a command that answers a next state: none for a raised error, the stored bytes for a completed one. -/
theorem pendingWrites_of_next {s t : State} {i : Instr} (hp : s.pending = true) (hd : decode s.cmd = .ok i)
    (h : exec i s = .next t) (a : Nat) :
    (t.err = true → pendingWrites s a = false) ∧
    (t.err = false → i ≠ .stgExtract → (pendingWrites s a = true ↔ inDestination i s a)) ∧
    (t.err = false → i = .stgExtract →
      (pendingWrites s a = true ↔ bufBase + s.arg 0 ≤ a ∧ a < bufBase + s.arg 0 + (t.res[0]).toNat)) := by
  rcases exec_eq_next.mp h with ⟨d, he, rfl⟩ | ⟨e, x, y, he, rfl⟩
  · have hw := pendingWrites_of_done hp hd he a
    refine ⟨nofun, fun _ hi => ⟨fun ha => ?_, fun ha => hw.mpr (exists_stored_of_inDestination he hi ha)⟩, ?_⟩
    · obtain ⟨c, hc, rfl⟩ := hw.mp ha
      exact (inDestination_of_mayStore (mayStore_of_stored he hc)).2
    · rintro - rfl
      exact hw.trans (stored_of_stgExtract he)
  · exact ⟨fun _ => pendingWrites_of_raise hp hd he a, nofun, nofun⟩

/-- A legal read of bytes that can all be seen returns them, little-endian, and draws one free value for each while a
command is pending. -/
theorem hostAccess_read_of_seen {s : State} {a : Word} {n : Nat} (ha : 0x1000 ≤ a.toNat) (hl : legalAccess s.params a.toNat n)
    {bs : List Byte} (hn : bs.length = n) (hs : ∀ j (hj : j < bs.length), seesByte s (a.toNat + j) (s.draws + j) bs[j]) :
    ∃ t v, hostAccess s (.read a n) = .next t ∧
      t = { s with reads := v :: s.reads, draws := if s.pending = true then s.draws + n else s.draws } ∧
      (∀ j (hj : j < bs.length), v.extractLsb' (8 * j) 8 = bs[j]) ∧ v.toNat < 2 ^ (8 * n) := by
  have hbytes : hostBytes s a.toNat s.draws n = some bs :=
    hostBytes_eq_some.mpr ⟨hn, fun j hj => hostByte_of_seesByte (hs j hj)⟩
  have h4 : bs.length ≤ 4 := by
    rcases hl with ⟨-, h4, -⟩ | ⟨h124, -⟩ <;> omega
  refine ⟨_, BitVec.ofNat 32 (leNat bs), ?_, rfl, fun j hj => extractLsb'_leNat h4 hj, ?_⟩
  · rw [hostAccess_read_of_bytes (targetOf_of_bytes ha hl), readBytesAccess, hbytes]
    dsimp only [countDraws, pushRead]
    split <;> rfl
  · rw [BitVec.toNat_ofNat, ← hn]
    exact (Nat.mod_le ..).trans_lt (leNat_lt bs)

/-- A legal read of a byte that is neither in the write set nor written stops on such a byte (R54). -/
theorem hostAccess_read_of_unwritten {s : State} {a : Word} {n : Nat} (ha : 0x1000 ≤ a.toNat)
    (hl : legalAccess s.params a.toNat n) {j : Nat} (hj : j < n) (hw : pendingWrites s (a.toNat + j) = false)
    (hr : s.mem.read (a.toNat + j) = none) :
    ∃ x, hostAccess s (.read a n) = .fault (.uninitRead x) ∧
      a.toNat ≤ x ∧ x < a.toNat + n ∧ pendingWrites s x = false ∧ s.mem.read x = none := by
  have hbytes : hostBytes s a.toNat s.draws n = none := by
    refine Option.eq_none_iff_forall_not_mem.mpr fun bs hbs => ?_
    obtain ⟨hn, hseen⟩ := hostBytes_eq_some.mp hbs
    simpa [hostByte, hw, hr] using hseen j (hn ▸ hj)
  refine ⟨hostGap s a.toNat s.draws n, ?_, hostGap_spec hbytes⟩
  rw [hostAccess_read_of_bytes (targetOf_of_bytes ha hl), readBytesAccess, hbytes]

/-! ### The statement settled -/

/-- Settles O60: the write set from the decoded command's rule, a host read from the bytes it sees. -/
theorem hostByteReadWhilePending : Obligations.HostByteReadWhilePending := by
  refine ⟨fun s t a hp h ha => ?_, fun s t m a hp hm h ha => ?_, fun s a h => ?_, fun s t i a hp hd h => ?_,
    fun s a n ha hl => ⟨fun bs hn hs => ?_, fun j hj hw hr => ?_⟩⟩
  · exact read_of_not_pendingWrites (m := s.mem) hp (fun _ _ => id) h ha
  · exact read_of_not_pendingWrites hp hm h ha
  · obtain ⟨hp, i, hd, hm⟩ := mayStore_of_pendingWrites h
    exact ⟨hp, i, hd, inDestination_of_mayStore hm⟩
  · exact pendingWrites_of_next hp hd h a
  · exact hostAccess_read_of_seen ha hl hn hs
  · exact hostAccess_read_of_unwritten ha hl hj hw hr

end Sys2Proof.Claims
end

section
/-! PROOFS. The host's accesses to the windows (spec/20_memory.md R61 to R63, R67, R76): what a read changes, which accesses
are bus errors, and what a write of BUF or IMG stores and a read of it then returns. -/

namespace Sys2Proof.Machine

open Sys2Proof.Claims

/-! ### Which accesses have no target -/

theorem targetOf_of_illegal {p : Params} {a n : Nat} (h : ¬legalAccess p a n) : targetOf p a n = none := by
  obtain ⟨hreg, hmem⟩ := not_or.mp h
  unfold targetOf
  split
  case isTrue hlt => exact if_neg fun hr => hreg ⟨hlt, hr⟩
  case isFalse => exact if_neg hmem

theorem hostAccess_read_of_illegal {s : State} {addr : Word} {n : Nat} (h : ¬legalAccess s.params addr.toNat n) :
    hostAccess s (.read addr n) = .refused (.busError (.read addr n)) := by
  simp only [hostAccess, targetOf_of_illegal h]

theorem hostAccess_write_of_illegal {s : State} {addr v : Word} {n : Nat} (h : ¬legalAccess s.params addr.toNat n) :
    hostAccess s (.write addr n v) = .refused (.busError (.write addr n v)) := by
  simp only [hostAccess, targetOf_of_illegal h]

/-! ### What a read changes -/

theorem countDraws_eq (n : Nat) (s : State) : countDraws n s = { s with draws := (countDraws n s).draws } := by
  unfold countDraws
  split <;> rfl

theorem countDraws_of_idle {s : State} (h : s.pending = false) (n : Nat) : countDraws n s = s :=
  if_neg (Bool.eq_false_iff.mp h)

theorem readBytesAccess_eq_next {s t : State} {a n : Nat} (h : readBytesAccess s a n = .next t) :
    ∃ v, t = countDraws n (pushRead v s) := by
  unfold readBytesAccess at h
  split at h
  · cases h; exact ⟨_, rfl⟩
  · cases h

/-- A host read that answers has put a value in front of `reads`, and a read of BUF or IMG has counted its draws. -/
theorem hostAccess_read_eq_next {s t : State} {addr : Word} {n : Nat} (h : hostAccess s (.read addr n) = .next t) :
    ∃ v, t = pushRead v s ∨ t = countDraws n (pushRead v s) := by
  match ht : targetOf s.params addr.toNat n with
  | none => simp [hostAccess, ht] at h
  | some (.bytes a) =>
    obtain ⟨v, hv⟩ := readBytesAccess_eq_next ((hostAccess_read_of_bytes ht).symm.trans h)
    exact ⟨v, .inr hv⟩
  | some (.register off) =>
    cases hr : regAt off with
    | none => rw [hostAccess_read_of_reserved ht hr] at h; cases h; exact ⟨_, .inl rfl⟩
    | some r => rw [hostAccess_read_of_register ht hr] at h; cases h; exact ⟨_, .inl rfl⟩

/-! ### The bytes of a number, lowest first -/

theorem byteOf_div_256 (v k : Nat) : byteOf (v / 256) k = byteOf v (k + 1) := by
  rw [byteOf, byteOf, Nat.div_div_eq_div_mul, Nat.mul_succ, Nat.pow_add, Nat.mul_comm]

theorem getElem_toLe (n v j : Nat) (h : j < (toLe n v).length) : (toLe n v)[j] = byteOf v j := by
  induction n generalizing v j with
  | zero => cases h
  | succ n ih =>
    cases j with
    | zero => rfl
    | succ j => exact (ih (v / 256) j (Nat.lt_of_succ_lt_succ h)).trans (byteOf_div_256 v j)

/-- `byteOf` takes bits `8k+7 : 8k`. -/
theorem byteOf_toNat (v : Word) (k : Nat) : byteOf v.toNat k = v.extractLsb' (8 * k) 8 := by
  rw [byteOf, ← Nat.shiftRight_eq_div_pow]
  rfl

/-- Reading `n` bytes back keeps the low `8 * n` bits: a narrow access takes them and puts zeros above (log 13). -/
theorem leNat_toLe (n v : Nat) : leNat (toLe n v) = v % 2 ^ (8 * n) := by
  induction n generalizing v with
  | zero => exact (Nat.mod_one v).symm
  | succ n ih =>
    rw [toLe, leNat, ih, byteOf, BitVec.toNat_ofNat, Nat.mul_zero, Nat.pow_zero, Nat.div_one,
      Nat.mul_succ, Nat.add_comm (8 * n), Nat.pow_add]
    exact (Nat.mod_mul).symm

/-! ### A write of BUF or IMG, and the read that follows it -/

theorem read_writeBytesAccess_in (s : State) (a : Nat) (v : Word) {n j : Nat} (hj : j < n) :
    (writeBytesAccess s a n v).mem.read (a + j) = some (v.extractLsb' (8 * j) 8) := by
  rw [writeBytesAccess_mem, Memory.read_writeCells_cellsAt_in _ (by rwa [length_toLe]), getElem_toLe, byteOf_toNat]

theorem read_writeBytesAccess_out (s : State) {a n x : Nat} (v : Word) (hx : x < a ∨ a + n ≤ x) :
    (writeBytesAccess s a n v).mem.read x = s.mem.read x := by
  rw [writeBytesAccess_mem, Memory.read_writeCells_cellsAt_out _ (by rwa [length_toLe])]

theorem hostByte_of_idle {s : State} (hp : s.pending = false) (a draw : Nat) : hostByte s a draw = s.mem.read a := by
  simp [hostByte, pendingWrites_of_idle hp]

theorem hostBytes_writeBytesAccess {s : State} (hp : s.pending = false) (a n draw : Nat) (v : Word) :
    hostBytes (writeBytesAccess s a n v) a draw n = some (toLe n v.toNat) := by
  refine hostBytes_eq_some.mpr ⟨length_toLe n _, fun j hj => ?_⟩
  rw [hostByte_of_idle (s := writeBytesAccess s a n v) hp, writeBytesAccess_mem, Memory.read_writeCells_cellsAt_in _ hj]

/-- With nothing pending, a read of the bytes just written returns the low `8 * n` bits of the value. -/
theorem readBytesAccess_writeBytesAccess {s : State} (hp : s.pending = false) (a n : Nat) (v : Word) :
    readBytesAccess (writeBytesAccess s a n v) a n =
      .next (pushRead (BitVec.ofNat 32 (v.toNat % 2 ^ (8 * n))) (writeBytesAccess s a n v)) := by
  simp only [readBytesAccess, hostBytes_writeBytesAccess hp, leNat_toLe]
  rw [countDraws_of_idle (by simpa using hp)]

end Sys2Proof.Machine

namespace Sys2Proof.Claims

open Sys2Proof.Machine

/-! ### The statements settled -/

/-- Settles O56: a read answers with `pushRead`, at most followed by `countDraws`. -/
theorem hostReadsHaveNoSideEffect : Obligations.HostReadsHaveNoSideEffect := by
  intro s t a n h
  obtain ⟨v, rfl | rfl⟩ := hostAccess_read_eq_next h
  · exact ⟨v, rfl⟩
  · exact ⟨v, countDraws_eq n (pushRead v s)⟩

/-- Settles O57: an access that is not legal has no target. -/
theorem busErrorsAreRefused : Obligations.BusErrorsAreRefused :=
  fun _ _ _ _ h => ⟨hostAccess_read_of_illegal h, hostAccess_write_of_illegal h⟩

/-- Settles O58: both accesses go to the same bytes, and the read sees them as they were written, nothing being pending. -/
theorem hostWriteIsLittleEndian : Obligations.HostWriteIsLittleEndian := by
  intro s a v n hb hp ha hl
  have ht : targetOf s.params a.toNat n = some (.bytes a.toNat) := targetOf_of_bytes ha hl
  refine ⟨writeBytesAccess s a.toNat n v, hostAccess_write_of_bytes ht hb, rfl,
    fun j hj => read_writeBytesAccess_in s a.toNat v hj, fun x hx => read_writeBytesAccess_out s v hx, ?_⟩
  exact (hostAccess_read_of_bytes (s := writeBytesAccess s a.toNat n v) ht).trans
    (readBytesAccess_writeBytesAccess hp a.toNat n v)

end Sys2Proof.Claims
end

section
/-! PROOFS. The decoder and the encoder are inverse to each other (spec/30_encoding.md R81 to R85, R92): the fields of a
command word and of its MODE, the decoder by rows of the opcode map, and the encoder on the command that a row builds. -/

namespace Sys2Proof

/-! ### The fields of a command word (R81) -/

@[simp] theorem opcodeOf_commandWord (m op : BitVec 8) : opcodeOf (commandWord m op) = op :=
  BitVec.extractLsb'_append_eq_right

@[simp] theorem modeOf_commandWord (m op : BitVec 8) : modeOf (commandWord m op) = m :=
  (BitVec.extractLsb'_append_eq_of_le (Nat.le_refl 8)).trans BitVec.extractLsb'_append_eq_right

@[simp] theorem rsvOf_commandWord (m op : BitVec 8) : rsvOf (commandWord m op) = 0 :=
  (BitVec.extractLsb'_append_eq_of_le (by decide)).trans BitVec.extractLsb'_append_eq_left

/-- A word with RSV = 0 is made of its MODE and its OPCODE. -/
theorem commandWord_modeOf_opcodeOf {w : Word} (h : rsvOf w = 0) : commandWord (modeOf w) (opcodeOf w) = w := by
  have high : rsvOf w ++ modeOf w = w.extractLsb' 8 24 := BitVec.extractLsb'_append_extractLsb'_eq_extractLsb' rfl
  calc commandWord (modeOf w) (opcodeOf w)
    _ = rsvOf w ++ modeOf w ++ opcodeOf w := by rw [h]; rfl
    _ = w.extractLsb' 0 32 := by rw [high]; exact BitVec.extractLsb'_append_extractLsb'_eq_extractLsb' rfl
    _ = w := BitVec.extractLsb'_eq_self

/-! ### The fields of MODE (R84) -/

@[simp] theorem modeV_encodeV (v : Bool) : modeV (encodeV v) = v := by
  cases v <;> rfl

@[simp] theorem modeP_encodePSel (p : Bool) (sel : Nat) : modeP (encodePSel p sel) = p := by
  simp only [modeP, encodePSel, BitVec.getLsbD_append]
  simp

theorem modeSel_encodePSel (p : Bool) {sel : Nat} (h : sel < 8) : modeSel (encodePSel p sel) = sel := by
  rw [modeSel, encodePSel, BitVec.extractLsb'_append_eq_right, BitVec.toNat_ofNat, Nat.mod_eq_of_lt h]

/-- The MODE value of a command with V is the one that V encodes to. -/
theorem encodeV_modeV : ∀ {m : BitVec 8}, m &&& ~~~0x01 = 0 → encodeV (modeV m) = m := by decide

/-- The MODE value of LINE_RECON is the one that P encodes to. -/
theorem encodePSel_modeP : ∀ {m : BitVec 8}, m &&& ~~~0x08 = 0 → encodePSel (modeP m) 0 = m := by decide

/-- The MODE value of LINE_FILTER is the one that P and SEL encode to. -/
theorem encodePSel_modeP_modeSel : ∀ {m : BitVec 8}, m &&& ~~~0x0F = 0 → encodePSel (modeP m) (modeSel m) = m := by
  decide

/-- The MODE value of IMG_FILTER is the one that SEL encodes to. -/
theorem encodePSel_modeSel : ∀ {m : BitVec 8}, m &&& ~~~0x07 = 0 → encodePSel false (modeSel m) = m := by decide

theorem modeSel_lt (m : BitVec 8) : modeSel m < 8 := (m.extractLsb' 0 3).isLt

/-! ### The decoder by rows of the opcode map (R82, R83) -/

theorem decode_eq_ok_iff {w : Word} {i : Instr} :
    decode w = .ok i ↔
      rsvOf w = 0 ∧ ∃ row,
        opcodeRow (opcodeOf w).toNat = some row ∧ modeOf w &&& ~~~row.mask = 0 ∧ row.build (modeOf w) = i := by
  unfold decode
  split
  case isTrue hrsv => exact iff_of_false nofun fun h => hrsv h.1
  case isFalse hrsv =>
    cases opcodeRow (opcodeOf w).toNat with
    | none => exact iff_of_false nofun fun ⟨_, _, h, _⟩ => nomatch h
    | some row =>
      dsimp only
      split
      case isTrue hmode => exact iff_of_false nofun (by rintro ⟨-, _, ⟨⟩, h, -⟩; exact hmode h)
      case isFalse hmode => simp_all

/-! ### The encoder on what a row builds (R84, R92) -/

/-- A row's command, built from a MODE value inside the row's mask, encodes to that MODE and the row's OPCODE. -/
theorem encode_build {n : Nat} {m : BitVec 8} {row : OpcodeRow} (hrow : opcodeRow n = some row)
    (hmask : m &&& ~~~row.mask = 0) : encode (row.build m) = commandWord m (BitVec.ofNat 8 n) := by
  unfold opcodeRow at hrow
  split at hrow <;> cases hrow
  -- the rows with MODE fields: CHUNK_CHECK, LINE_RECON, LINE_FILTER, IMG_FILTER
  case h_7 => exact congrArg (commandWord · 0x06) (encodeV_modeV hmask)
  case h_15 => exact congrArg (commandWord · 0x20) (encodePSel_modeP hmask)
  case h_16 => exact congrArg (commandWord · 0x21) (encodePSel_modeP_modeSel hmask)
  case h_18 => exact congrArg (commandWord · 0x23) (encodePSel_modeSel hmask)
  all_goals
    obtain rfl : m = 0 := BitVec.and_allOnes.symm.trans hmask
    rfl

theorem wf_build {n : Nat} {row : OpcodeRow} (hrow : opcodeRow n = some row) (m : BitVec 8) :
    (row.build m).wf = true := by
  unfold opcodeRow at hrow
  split at hrow <;> cases hrow
  -- the rows with SEL: LINE_FILTER, IMG_FILTER
  case h_16 => exact decide_eq_true (modeSel_lt m)
  case h_18 => exact decide_eq_true (modeSel_lt m)
  all_goals rfl

theorem encode_of_decode {w : Word} {i : Instr} (h : decode w = .ok i) : encode i = w := by
  obtain ⟨hrsv, row, hrow, hmask, rfl⟩ := decode_eq_ok_iff.mp h
  rw [encode_build hrow hmask, BitVec.ofNat_toNat, BitVec.setWidth_eq, commandWord_modeOf_opcodeOf hrsv]

/-- A decoded command has its SEL in three bits. -/
theorem wf_of_decode {w : Word} {i : Instr} (h : decode w = .ok i) : i.wf = true := by
  obtain ⟨-, row, hrow, -, rfl⟩ := decode_eq_ok_iff.mp h
  exact wf_build hrow (modeOf w)

/-! ### The decoder on the encoder's words -/

/-- The encoder's word keeps to the map and the masks, so it decodes to what its row builds from its MODE. -/
theorem decode_encode_of_build {i : Instr} (hword : Laws.OpcodeWord.Statement i)
    (hbuild : ∀ row, opcodeRow (opcodeOf (encode i)).toNat = some row → row.build (modeOf (encode i)) = i) :
    decode (encode i) = .ok i := by
  obtain ⟨hrsv, row, hrow, hmask⟩ := hword
  exact decode_eq_ok_iff.mpr ⟨hrsv, row, hrow, hmask, hbuild row hrow⟩

theorem decode_encode {i : Instr} (h : i.wf = true) : decode (encode i) = .ok i := by
  cases i
  case chunkCheck v =>
    exact decode_encode_of_build (Laws.OpcodeWord.chunkCheck v) (by simp [encode, opcodeRow])
  case lineRecon p =>
    exact decode_encode_of_build (Laws.OpcodeWord.lineRecon p) (by simp [encode, opcodeRow])
  case lineFilter sel p =>
    have hsel : sel < 8 := of_decide_eq_true h
    exact decode_encode_of_build (Laws.OpcodeWord.lineFilter sel p) (by simp [encode, opcodeRow, modeSel_encodePSel p hsel])
  case imgFilter sel =>
    have hsel : sel < 8 := of_decide_eq_true h
    exact decode_encode_of_build (Laws.OpcodeWord.imgFilter sel) (by simp [encode, opcodeRow, modeSel_encodePSel false hsel])
  all_goals rfl

end Sys2Proof

namespace Sys2Proof.Claims

open Sys2Proof.Machine

/-! ### The statements settled -/

/-- Settles O1: each field of MODE is read back from the word it was put into. -/
theorem decodeOfEncode : Obligations.DecodeOfEncode := fun _ => decode_encode

/-- Settles O2: a row's command encodes to the row's OPCODE and the MODE it was built from, and with RSV = 0 these are the
whole word. -/
theorem encodeOfDecode : Obligations.EncodeOfDecode := fun _ _ h => ⟨encode_of_decode h, wf_of_decode h⟩

/-- Settles O3: each word is the encoder's for a well-formed command. -/
theorem knownWordsDecode : Obligations.KnownWordsDecode :=
  ⟨decodeOfEncode (.chunkCheck true) rfl, decodeOfEncode (.lineFilter 5 true) rfl, decodeOfEncode (.imgFilter 0) rfl,
    decodeOfEncode (.imgFilter 5) rfl, decodeOfEncode (.lineRecon true) rfl, decodeOfEncode .pixWrite rfl,
    decodeOfEncode .stgExtract rfl⟩

/-- Settles O4: a word is illegal exactly when the decoder rejects it, and the sequencer's turn goes by the decoder. -/
theorem everyWordRunsOrIsIllegal : Obligations.EveryWordRunsOrIsIllegal := by
  intro s hp
  have turn : sequencerTurn s = runCommand s := sequencerTurn_of_pending hp
  refine ⟨fun hw => turn.trans (runCommand_of_illegalWord hw), illegalWord_iff_decode_eq_error, fun hw => ?_⟩
  cases hd : decode s.cmd with
  | error r => exact absurd (illegalWord_iff_decode_eq_error.mpr ⟨r, hd⟩) hw
  | ok i => exact ⟨i, wf_of_decode hd, rfl, turn.trans (runCommand_of_decoded hd)⟩

/-- Settles O14: a command that stores nothing has an empty destination. -/
theorem registerCommandsKeepMemory : Obligations.RegisterCommandsKeepMemory := by
  intro i s t hi h a
  have outside : mayStore i s a = false := Bool.eq_false_iff.mpr fun hm => (inDestination_of_mayStore hm).1 hi
  exact read_of_not_mayStore h outside

/-- Settles O53: CMD and the ARG registers stand at these offsets, and with BUSY = 0 no register is guarded. -/
theorem cmdWriteStartsCommand : Obligations.CmdWriteStartsCommand := by
  intro s w k hb
  have write : ∀ r, hostAccess s (.write (BitVec.ofNat 32 (regOffset r)) 4 w) = .next (writeReg r w s) := fun r =>
    hostAccess_write_of_register (targetOf_regOffset s.params r) (regAt_regOffset r) (.inl hb)
  exact ⟨write .cmd, write (.arg k)⟩

end Sys2Proof.Claims
end

section
/-! PROOFS. The commands that write BUF store only to their destination there (spec/41_crc_frame.md R127, spec/42_pixel.md
R154, spec/44_stego.md R230, R234). -/

namespace Sys2Proof.Machine

theorem inRange_eq_false {base n a : Nat} (h : a < base ∨ base + n ≤ a) : inRange base n a = false :=
  Bool.eq_false_iff.mpr fun hr => by
    rw [inRange_eq_true] at hr
    omega

end Sys2Proof.Machine

namespace Sys2Proof.Claims

open Sys2Proof.Machine

/-! ### The statement settled -/

/-- Settles O15: three destinations are ranges that the operands name, and that of STG_EXTRACT is as long as RES0 then says. -/
theorem bufferCommandsStoreOnlyDestination : Obligations.BufferCommandsStoreOnlyDestination := by
  intro s t a
  refine ⟨fun h ha => ?_, fun h ha => ?_, fun h ha => ?_, fun h _ ha => ?_⟩
  · exact read_of_not_mayStore h (inRange_eq_false ha)
  · exact read_of_not_mayStore h (inRange_eq_false ha)
  · exact read_of_not_mayStore h (inRange_eq_false ha)
  · rcases exec_eq_next.mp h with ⟨d, hd, rfl⟩ | ⟨e, x, y, -, rfl⟩
    · refine read_commitStores_of_not_mem hd fun c hc hca => ?_
      have hin := (stored_of_stgExtract hd).mp ⟨c, hc, hca⟩
      rw [completeCommand_res, commitStores_res] at ha
      omega
    · rfl

end Sys2Proof.Claims
end

section
/-! PROOFS. A command's rule against its list of errors in the spec's order (spec/60_exceptions.md R262, R263, R266): each
check of the rule is the next line of the list, and a read goes on with the bytes that stand there. -/

namespace Sys2Proof.Machine

open Sys2Proof.Claims

/-! ### The first error that applies -/

theorem firstError_cons_eq_none {line : ErrorLine} {rest : List ErrorLine} :
    firstError (line :: rest) = none ↔ line.1 = false ∧ firstError rest = none := by
  obtain ⟨_ | _, e, a, b⟩ := line <;> simp [firstError]

theorem firstError_append_of_none {pre post : List ErrorLine} (h : firstError pre = none) :
    firstError (pre ++ post) = firstError post := by
  induction pre with
  | nil => rfl
  | cons line pre ih =>
    obtain ⟨bad, e, a, b⟩ := line
    obtain ⟨rfl, hpre⟩ := firstError_cons_eq_none.mp h
    exact ih hpre

/-! ### A rule follows a list of errors -/

/-- The rule stops with the first error of the list that applies, and completes with `d` when none does. -/
structure Follows (x : Check Done) (errors : List ErrorLine) (d : Done) : Prop where
  raises : ∀ {e a b}, firstError errors = some (e, a, b) → x = .error (.raise e a b)
  completes : firstError errors = none → x = .ok d

section

variable {i : Instr} {s t : State} {errors : List ErrorLine}

theorem followsRule_of_follows {d : Done} (h : Follows (endOf i s) errors d) : followsRule i s errors (commitStores d) := by
  refine ⟨fun e a b he => ?_, fun hn => ?_⟩
  · rw [exec_eq_finish, h.raises he]
    rfl
  · rw [exec_eq_finish, h.completes hn]
    rfl

/-- A command that writes registers only. -/
theorem followsRule_of_regs (h : Follows (endOf i s) errors ⟨t, []⟩) : followsRule i s errors t :=
  followsRule_of_follows h

/-- A command that also stores one byte sequence. -/
theorem followsRule_of_stores {a : Nat} {bs : List Byte} (h : Follows (endOf i s) errors ⟨t, cellsAt a bs⟩) :
    followsRule i s errors (stored t a bs) :=
  followsRule_of_follows h

end

namespace Follows

variable {s : State} {errors : List ErrorLine} {d : Done}

theorem doneRegs : Follows (doneRegs s) [] ⟨s, []⟩ := ⟨nofun, fun _ => rfl⟩

theorem doneStores {cells : List Host.Cell} : Follows (doneStores s cells) [] ⟨s, cells⟩ := ⟨nofun, fun _ => rfl⟩

theorem raiseIf {bad : Prop} [Decidable bad] {applies : Bool} {e : ErrorCode} {a b : Nat} {f : Unit → Check Done}
    (hl : applies = decide bad) (hf : ¬bad → Follows (f ()) errors d) :
    Follows (raiseIf bad e a b >>= f) ((applies, e, a, b) :: errors) d := by
  subst hl
  by_cases h : bad
  · rw [raiseIf_of h, decide_eq_true h]
    exact ⟨fun he => by cases he; rfl, nofun⟩
  · rw [raiseIf_of_not h, decide_eq_false h]
    exact ⟨(hf h).raises, (hf h).completes⟩

theorem bufCheck {off n : Nat} {f : Unit → Check Done} (hf : off + n ≤ s.params.bufBytes → Follows (f ()) errors d) :
    Follows (bufCheck s off n >>= f) (bufLine s off n :: errors) d :=
  raiseIf rfl fun h => hf (Nat.not_lt.mp h)

theorem memRead {a n : Nat} {bs : List Byte} {f : List Byte → Check Done} (h : s.mem.readBytes a n = some bs)
    (hf : Follows (f bs) errors d) : Follows (memRead s a n >>= f) errors d := by
  rwa [memRead_eq_ok.mpr h]

end Follows

/-- RES0 as a word. -/
theorem setRes_zero_toNat (s : State) (w : Word) : s.setRes 0 w.toNat = { s with res := s.res.set 0 w } := by
  simp [State.setRes]

end Sys2Proof.Machine
end

section
/-! PROOFS. MemRead (spec/00_scope.md R12) of consecutive ranges, and of a range or its neighbours after one byte is written. -/

namespace Sys2Proof.Machine.Memory

theorem readBytes_append {m : Memory} {a n k : Nat} {xs ys : List Byte} (hx : xs.length = n) :
    m.readBytes a (n + k) = some (xs ++ ys) ↔ m.readBytes a n = some xs ∧ m.readBytes (a + n) k = some ys := by
  subst hx
  simp only [readBytes_eq_some, List.length_append, Nat.add_left_cancel_iff, true_and]
  constructor
  · rintro ⟨hl, hr⟩
    refine ⟨fun j hj => ?_, hl, fun j hj => ?_⟩
    · rw [hr j (by omega), List.getElem_append_left hj]
    · rw [Nat.add_assoc, hr (xs.length + j) (by omega), List.getElem_append_right (by omega)]
      simp
  · rintro ⟨hx, hl, hy⟩
    refine ⟨hl, fun j hj => ?_⟩
    by_cases hjx : j < xs.length
    · rw [hx j hjx, List.getElem_append_left hjx]
    · obtain ⟨i, rfl⟩ := Nat.exists_eq_add_of_le (Nat.not_lt.mp hjx)
      rw [← Nat.add_assoc, hy i (by omega), List.getElem_append_right (by omega)]
      simp

theorem readBytes_write_of_out {m : Memory} {a n x : Nat} (h : x < a ∨ a + n ≤ x) (b : Byte) :
    (m.write x b).readBytes a n = m.readBytes a n :=
  readBytes_congr fun _ _ => read_write_ne m b (by omega)

theorem readBytes_write {m : Memory} {a n j : Nat} {bs : List Byte} (h : m.readBytes a n = some bs) (b : Byte) :
    (m.write (a + j) b).readBytes a n = some (bs.set j b) := by
  obtain ⟨hl, hr⟩ := readBytes_eq_some.mp h
  refine readBytes_eq_some.mpr ⟨by simpa using hl, fun i hi => ?_⟩
  rw [read_write, List.getElem_set]
  by_cases hij : j = i
  · simp [hij]
  · simpa [hij, Ne.symm hij] using hr i (by simpa using hi)

/-- A byte written between two ranges changes neither. -/
theorem readBytes_write_between {m : Memory} {a k n j : Nat} (hj : j < n) (b : Byte) (l : Nat) :
    (m.write (a + k + j) b).readBytes a k = m.readBytes a k ∧
      (m.write (a + k + j) b).readBytes (a + k + n) l = m.readBytes (a + k + n) l :=
  ⟨readBytes_write_of_out (.inr (by omega)) b, readBytes_write_of_out (.inl (by omega)) b⟩

end Sys2Proof.Machine.Memory
end

section
/-! PROOFS. The CRC unit (spec/41_crc_frame.md R110 to R112, R120 to R124): `crc_update` as a fold of shifts, that it splits and
that one changed byte changes it, and the commands that read a range of BUF. -/

namespace Sys2Proof.Machine

open Sys2Proof.Claims

/-! ### `crc_update` in the words of R110 -/

theorem crcShift_eq (c : Word) :
    crcShift c = if c.getLsbD 0 = true then (c >>> 1) ^^^ 0xEDB88320 else c >>> 1 := by
  have hand : c &&& 1 = (BitVec.ofBool (c.getLsbD 0)).setWidth 32 := BitVec.and_one_eq_setWidth_ofBool_getLsbD
  have low : c &&& 1 = 1 ↔ c.getLsbD 0 = true := by
    rw [hand]
    cases c.getLsbD 0 <;> decide
  simp only [crcShift, low, crcPoly]

theorem crcShifts_length {α : Type} (l : List α) (c : Word) : crcShifts l.length c = l.foldl (fun c _ => crcShift c) c := by
  induction l generalizing c with
  | nil => rfl
  | cons _ l ih => exact ih (crcShift c)

theorem crcByte_eq (c : Word) (b : Byte) :
    crcByte c b =
      (List.range 8).foldl (fun (c : Word) _ => if c.getLsbD 0 = true then (c >>> 1) ^^^ 0xEDB88320 else c >>> 1)
        (c ^^^ b.setWidth 32) := by
  simp only [← crcShift_eq]
  exact crcShifts_length (List.range 8) _

theorem crcUpdate_append (c : Word) (xs ys : List Byte) : crcUpdate c (xs ++ ys) = crcUpdate (crcUpdate c xs) ys := by
  induction xs generalizing c with
  | nil => rfl
  | cons x xs ih => exact ih (crcByte c x)

/-- The check value of "IHDR" (R112). -/
theorem crc32_ihdr : crc32 [0x49, 0x48, 0x44, 0x52] = 0xA8A1AE0A := by decide +kernel

/-! ### One changed byte changes the CRC -/

/-- The polynomial has its top bit set and a right shift clears it, so the bit shifted out is read back there. -/
theorem getLsbD_crcShift_top (c : Word) : (crcShift c).getLsbD 31 = c.getLsbD 0 := by
  have hpoly : (0xEDB88320 : Word).getLsbD 31 = true := by decide
  have hshift : (c >>> 1).getLsbD 31 = false := by simp
  rw [crcShift_eq]
  split
  case isTrue h => rw [BitVec.getLsbD_xor, hshift, hpoly, h, Bool.false_xor]
  case isFalse h => rw [hshift, Bool.eq_false_iff.mpr h]

theorem crcShift_injective : Function.Injective crcShift := by
  intro c c' h
  have h0 : c.getLsbD 0 = c'.getLsbD 0 := by rw [← getLsbD_crcShift_top, h, getLsbD_crcShift_top]
  have hs : c >>> 1 = c' >>> 1 := by
    rw [crcShift_eq, crcShift_eq, h0] at h
    split at h
    · exact (BitVec.xor_left_inj _).mp h
    · exact h
  refine BitVec.eq_of_getLsbD_eq fun i hi => ?_
  cases i with
  | zero => exact h0
  | succ i => simpa [Nat.add_comm] using congrArg (·.getLsbD i) hs

theorem crcShifts_injective (n : Nat) : Function.Injective (crcShifts n) := by
  induction n with
  | zero => exact Function.injective_id
  | succ n ih => exact ih.comp crcShift_injective

theorem crcByte_injective_state (b : Byte) : Function.Injective (crcByte · b) := fun _ _ h =>
  (BitVec.xor_left_inj _).mp (crcShifts_injective 8 h)

theorem crcByte_injective (c : Word) : Function.Injective (crcByte c) := by
  intro b b' h
  have hw : b.setWidth 32 = b'.setWidth 32 := (BitVec.xor_right_inj _).mp (crcShifts_injective 8 h)
  simpa using congrArg (BitVec.setWidth 8) hw

theorem crcUpdate_injective_state (bs : List Byte) : Function.Injective (crcUpdate · bs) := by
  induction bs with
  | nil => exact Function.injective_id
  | cons b bs ih => exact ih.comp (crcByte_injective_state b)

/-- Sequences that differ in one byte only have different CRCs. -/
theorem eq_of_crc32_eq {xs ys : List Byte} {b b' : Byte} (h : crc32 (xs ++ b :: ys) = crc32 (xs ++ b' :: ys)) : b = b' := by
  have hu := (BitVec.xor_left_inj _).mp h
  rw [crcUpdate_append, crcUpdate_append] at hu
  exact crcByte_injective _ (crcUpdate_injective_state ys hu)

theorem crc32_set_ne {xs ys : List Byte} {j : Nat} {b : Byte} (hj : j < ys.length) (hb : b ≠ ys[j]) :
    crc32 (xs ++ ys.set j b) ≠ crc32 (xs ++ ys) := by
  intro h
  have hset : xs ++ ys.set j b = (xs ++ ys.take j) ++ b :: ys.drop (j + 1) := by
    rw [List.set_eq_take_append_cons_drop, if_pos hj, List.append_assoc]
  have hys : xs ++ ys = (xs ++ ys.take j) ++ ys[j] :: ys.drop (j + 1) := by
    rw [List.getElem_cons_drop, List.append_assoc, List.take_append_drop]
  rw [hset, hys] at h
  exact hb (eq_of_crc32_eq h)

/-! ### Commands with an offset and a length set -/

/-- Offsets and lengths inside BUF fit in ARG0 and ARG1 (spec/00_scope.md R7). -/
theorem args_atRange {s : State} {off n : Nat} (hp : s.params.legal) (hb : off + n ≤ s.params.bufBytes) :
    (atRange s off n).arg 0 = off ∧ (atRange s off n).arg 1 = n := by
  obtain ⟨⟨-, hbuf⟩, -⟩ := hp
  have h0 : (atRange s off n).arg 0 = off % 2 ^ 32 := by simp [atRange, State.arg]
  have h1 : (atRange s off n).arg 1 = n % 2 ^ 32 := by simp [atRange, State.arg]
  rw [h0, h1]
  exact ⟨Nat.mod_eq_of_lt (by omega), Nat.mod_eq_of_lt (by omega)⟩

theorem exec_crcUpdate_atRange {s : State} {off n : Nat} {bs : List Byte} (hp : s.params.legal)
    (hb : off + n ≤ s.params.bufBytes) (hr : s.mem.readBytes (bufBase + off) n = some bs) :
    exec .crcUpdate (atRange s off n) =
      .next (completeCommand { atRange s off n with crcState := crcUpdate s.crcState bs }) := by
  obtain ⟨h0, h1⟩ := args_atRange hp hb
  refine exec_eq_next.mpr (.inl ⟨_, endCrcUpdate_eq_ok.mpr ⟨?_, bs, ?_, rfl⟩, rfl⟩)
  · rwa [h0, h1]
  · rwa [h0, h1]

end Sys2Proof.Machine

namespace Sys2Proof.Claims

open Sys2Proof.Machine

/-! ### The statements settled -/

/-- Settles O19: these rules make no check and no read. -/
theorem crcRegisterCommandsComplete : Obligations.CrcRegisterCommandsComplete := by
  refine fun s => ⟨rfl, rfl, ?_⟩
  exact congrArg (fun u => Host.Outcome.next (completeCommand u)) (setRes_zero_toNat s _)

/-- Settles O20: both rules check the range and then read it. -/
theorem crcRangeCommandsFollowTheirRules : Obligations.CrcRangeCommandsFollowTheirRules := by
  intro s bs hbs
  rw [← setRes_zero_toNat]
  refine ⟨followsRule_of_regs ?_, followsRule_of_regs ?_⟩
  · exact .bufCheck fun hb => .memRead (hbs hb) .doneRegs
  · exact .bufCheck fun hb => .memRead (hbs hb) .doneRegs

/-- Settles O21: `crc_update` is a fold over the bytes, so it goes on over a second range from where the first ended. -/
theorem crcUpdateSplits : Obligations.CrcUpdateSplits := by
  refine ⟨fun _ => rfl, fun c b bs => ?_, fun _ => rfl, crc32_ihdr, fun s off n m xs ys hp hb hx hy => ?_⟩
  · rw [crcUpdate, crcByte_eq]
  · have hxy : s.mem.readBytes (bufBase + off) (n + m) = some (xs ++ ys) :=
      (Memory.readBytes_append (Memory.length_of_readBytes hx)).mpr ⟨hx, hy⟩
    rw [Nat.add_assoc bufBase] at hy
    exact ⟨_, _, _, exec_crcUpdate_atRange hp (by omega) hx, exec_crcUpdate_atRange (bs := ys) hp hb hy,
      exec_crcUpdate_atRange hp (by omega) hxy, (crcUpdate_append s.crcState xs ys).symm⟩

end Sys2Proof.Claims
end

section
/-! PROOFS. SIG_CHECK and the chunk framer (spec/41_crc_frame.md R113, R125 to R127, spec/30_encoding.md R95): their rules
against their errors, a chunk's frame read back, and a chunk with one byte of its data changed. -/

namespace Sys2Proof.Machine

open Sys2Proof.Claims

/-! ### Big-endian numbers (spec/00_scope.md R11) -/

theorem be32_take (bs : List Byte) : be32 (bs.take 4) = be32 bs := by
  simp [be32, byteAt]

theorem be32_append {xs : List Byte} (h : xs.length = 4) (ys : List Byte) : be32 (xs ++ ys) = be32 xs := by
  rw [← be32_take, List.take_left' h]

theorem be32_toBe32 {v : Nat} (h : v < 2 ^ 32) : be32 (toBe32 v) = v := by
  simp [be32, toBe32, byteAt, byteOf]
  omega

@[simp] theorem length_toBe32 (v : Nat) : (toBe32 v).length = 4 := rfl

/-! ### The test of a tag (R113) -/

theorem asciiTag_eq_tagOk (tag : List Byte) : asciiTag tag = tagOk tag := by
  have low : ∀ b : Byte, (!b.getLsbD 7) = decide (b.toNat ≤ 0x7F) := by decide
  simp only [asciiTag, tagOk, low]

theorem Follows.checkTag {s : State} {tag : List Byte} {errors : List ErrorLine} {d : Done} {f : Unit → Check Done}
    (hf : ¬(s.params.tagCheck = true ∧ tagOk tag = false) → Follows (f ()) errors d) :
    Follows (checkTag s tag >>= f) ((s.params.tagCheck && !asciiTag tag, .invalidChunkTag, be32 tag, 0) :: errors) d :=
  raiseIf (by simp [asciiTag_eq_tagOk]) hf

/-! ### CHUNK_CHECK (R126) -/

/-- The errors of CHUNK_CHECK, in order, down to the test of the tag; `h` is the chunk's first eight bytes. -/
def chunkCheckLines (s : State) (h : List Byte) : List ErrorLine :=
  [bufLine s (s.arg 0) (s.arg 1), (decide (s.arg 1 < 8), .truncated, 8, s.arg 1),
    (decide (be32 h > maxChunkLen), .truncated, 12 + be32 h, s.arg 1),
    (decide (s.arg 1 < 12 + be32 h), .truncated, 12 + be32 h, s.arg 1),
    (s.params.tagCheck && !asciiTag (h.drop 4), .invalidChunkTag, be32 (h.drop 4), 0)]

theorem firstError_chunkCheckLines_eq_none {s : State} {h : List Byte} :
    firstError (chunkCheckLines s h) = none ↔
      s.arg 0 + s.arg 1 ≤ s.params.bufBytes ∧ 8 ≤ s.arg 1 ∧ be32 h ≤ maxChunkLen ∧ 12 + be32 h ≤ s.arg 1 ∧
        ¬(s.params.tagCheck = true ∧ tagOk (h.drop 4) = false) := by
  simp [chunkCheckLines, firstError_cons_eq_none, bufLine, firstError, asciiTag_eq_tagOk]

/-- The seven results for a chunk with the first eight bytes `h`, the data `data` and the CRC bytes `cb`. -/
def chunkResults (s : State) (h data cb : List Byte) : State :=
  let comp := (crc32 (h.drop 4 ++ data)).toNat
  ((((((s.setRes 0 (be32 h)).setRes 1 (be32 (h.drop 4))).setRes 2 (be32 cb)).setRes 3 comp).setRes 4 (s.arg 0 + 8)).setRes 5
    (s.arg 0 + 12 + be32 h)).setRes 6 (if be32 cb = comp then 1 else 0)

theorem chunkResults_res (s : State) (h data cb : List Byte) :
    let res := (chunkResults s h data cb).res
    res[0].toNat = be32 h ∧ res[1] = BitVec.ofNat 32 (be32 (h.drop 4)) ∧ res[2].toNat = be32 cb ∧
      res[3] = crc32 (h.drop 4 ++ data) ∧ (be32 cb = (crc32 (h.drop 4 ++ data)).toNat → res[6] = 1) := by
  have fits : ∀ bs, be32 bs % 4294967296 = be32 bs := fun bs => Nat.mod_eq_of_lt (be32_lt bs)
  simp +contextual [chunkResults, fits]

theorem follows_chunkCheck {v : Bool} {s : State} {h data cb : List Byte}
    (hhead : s.arg 0 + s.arg 1 ≤ s.params.bufBytes → 8 ≤ s.arg 1 → s.mem.readBytes (bufBase + s.arg 0) 8 = some h)
    (hbody : firstError (chunkCheckLines s h) = none →
      s.mem.readBytes (bufBase + s.arg 0 + 8) (be32 h) = some data ∧
        s.mem.readBytes (bufBase + s.arg 0 + 8 + be32 h) 4 = some cb) :
    Follows (endOf (.chunkCheck v) s)
      (chunkCheckLines s h ++ [(v && decide (be32 cb ≠ (crc32 (h.drop 4 ++ data)).toNat), .badCrc, be32 cb,
        (crc32 (h.drop 4 ++ data)).toNat)])
      ⟨chunkResults s h data cb, []⟩ := by
  refine .bufCheck fun hb => .raiseIf rfl fun h8 => .memRead (hhead hb (Nat.not_lt.mp h8)) <|
    .raiseIf rfl fun hmax => .raiseIf rfl fun hlen => .checkTag fun htag => ?_
  obtain ⟨hdata, hcb⟩ := hbody <| firstError_chunkCheckLines_eq_none.mpr
    ⟨hb, Nat.not_lt.mp h8, Nat.not_lt.mp hmax, Nat.not_lt.mp hlen, htag⟩
  exact .memRead hdata <| .memRead hcb <| .raiseIf (by simp) fun _ => .doneRegs

/-- A chunk that passes every check and holds the CRC of its tag and data. -/
theorem endOf_chunkCheck_of_accepted {v : Bool} {s : State} {h data cb : List Byte}
    (hnone : firstError (chunkCheckLines s h) = none) (hhead : s.mem.readBytes (bufBase + s.arg 0) 8 = some h)
    (hdata : s.mem.readBytes (bufBase + s.arg 0 + 8) (be32 h) = some data)
    (hcb : s.mem.readBytes (bufBase + s.arg 0 + 8 + be32 h) 4 = some cb)
    (hcrc : be32 cb = (crc32 (h.drop 4 ++ data)).toNat) :
    endOf (.chunkCheck v) s = .ok ⟨chunkResults s h data cb, []⟩ := by
  refine (follows_chunkCheck (fun _ _ => hhead) fun _ => ⟨hdata, hcb⟩).completes ?_
  rw [firstError_append_of_none hnone, firstError_cons_eq_none]
  exact ⟨by simp [hcrc], rfl⟩

/-- What a chunk that CHUNK_CHECK accepts has passed, and the results it leaves. -/
theorem accepted_of_exec_chunkCheck {v : Bool} {s t : State} (h : exec (.chunkCheck v) s = .next t) (herr : t.err = false) :
    ∃ hd data cb : List Byte, firstError (chunkCheckLines s hd) = none ∧
      s.mem.readBytes (bufBase + s.arg 0) 8 = some hd ∧
      s.mem.readBytes (bufBase + s.arg 0 + 8) (be32 hd) = some data ∧
      s.mem.readBytes (bufBase + s.arg 0 + 8 + be32 hd) 4 = some cb ∧
      (v = true → be32 cb = (crc32 (hd.drop 4 ++ data)).toNat) ∧ t.res = (chunkResults s hd data cb).res := by
  rcases exec_eq_next.mp h with ⟨d, he, rfl⟩ | ⟨e, x, y, -, rfl⟩
  · obtain ⟨hbuf, h8, hd, hhead, hmax, hlen, hascii, data, hdata, cb, hcb, hcrc, rfl⟩ := endChunkCheck_eq_ok.mp he
    refine ⟨hd, data, cb, firstError_chunkCheckLines_eq_none.mpr ⟨hbuf, h8, hmax, hlen, hascii⟩, hhead, hdata, hcb,
      fun hv => ?_, rfl⟩
    exact not_not.mp fun hne => hcrc ⟨hv, hne⟩
  · cases herr

/-! ### CHUNK_EMIT (R127) -/

/-- The errors of CHUNK_EMIT, in order. -/
def chunkEmitLines (s : State) : List ErrorLine :=
  [(decide (s.arg 1 > maxChunkLen), .integerOverflow, s.arg 1, maxChunkLen),
    (s.params.tagCheck && !asciiTag (toBe32 (s.arg 2)), .invalidChunkTag, be32 (toBe32 (s.arg 2)), 0),
    bufLine s (s.arg 0) (s.arg 1), bufLine s (s.arg 3) (12 + s.arg 1)]

theorem firstError_chunkEmitLines_eq_none {s : State} :
    firstError (chunkEmitLines s) = none ↔
      s.arg 1 ≤ maxChunkLen ∧ ¬(s.params.tagCheck = true ∧ tagOk (toBe32 (s.arg 2)) = false) ∧
        s.arg 0 + s.arg 1 ≤ s.params.bufBytes ∧ s.arg 3 + (12 + s.arg 1) ≤ s.params.bufBytes := by
  simp [chunkEmitLines, firstError_cons_eq_none, bufLine, firstError, asciiTag_eq_tagOk]

theorem follows_chunkEmit {s : State} {data : List Byte}
    (hread : firstError (chunkEmitLines s) = none → s.mem.readBytes (bufBase + s.arg 0) (s.arg 1) = some data) :
    Follows (endOf .chunkEmit s) (chunkEmitLines s)
      ⟨(s.setRes 0 (crc32 (toBe32 (s.arg 2) ++ data)).toNat).setRes 1 (s.arg 3 + 12 + s.arg 1),
        cellsAt (bufBase + s.arg 3)
          (toBe32 (s.arg 1) ++ toBe32 (s.arg 2) ++ data ++ toBe32 (crc32 (toBe32 (s.arg 2) ++ data)).toNat)⟩ := by
  refine .raiseIf rfl fun hmax => .checkTag fun htag => .bufCheck fun hsrc => .bufCheck fun hdst => ?_
  have hdata := hread <| firstError_chunkEmitLines_eq_none.mpr ⟨Nat.not_lt.mp hmax, htag, hsrc, hdst⟩
  have hframe : toBe32 (s.arg 1) ++ toBe32 (s.arg 2) ++ data ++ toBe32 (crc32 (toBe32 (s.arg 2) ++ data)).toNat =
      chunkFrame (toBe32 (s.arg 2)) data := by
    rw [chunkFrame, Memory.length_of_readBytes hdata]
  rw [hframe]
  exact .memRead hdata .doneStores

/-! ### CHUNK_CHECK on a frame -/

theorem length_chunkFrame {tag : List Byte} (h : tag.length = 4) (data : List Byte) :
    (chunkFrame tag data).length = 12 + data.length := by
  simp [chunkFrame, h]
  omega

/-- The pieces of a frame in memory: its first eight bytes, its data and its CRC bytes. -/
theorem readBytes_chunkFrame {m : Memory} {a : Nat} {tag data : List Byte} (ht : tag.length = 4)
    (h : m.readBytes a (12 + data.length) = some (chunkFrame tag data)) :
    m.readBytes a 8 = some (toBe32 data.length ++ tag) ∧ m.readBytes (a + 8) data.length = some data ∧
      m.readBytes (a + 8 + data.length) 4 = some (toBe32 (crc32 (tag ++ data)).toNat) := by
  have hhead : (toBe32 data.length ++ tag).length = 8 := by simp [ht]
  rw [show 12 + data.length = 8 + data.length + 4 by omega, chunkFrame,
    Memory.readBytes_append (by rw [List.length_append, hhead]), Memory.readBytes_append hhead, ← Nat.add_assoc] at h
  obtain ⟨⟨h8, hdata⟩, hcrc⟩ := h
  exact ⟨h8, hdata, hcrc⟩

/-- What CHUNK_EMIT leaves when it completes: the frame in BUF and its CRC in RES0. -/
theorem frame_of_exec_chunkEmit {s t : State} (h : exec .chunkEmit s = .next t) (herr : t.err = false) :
    ∃ data : List Byte, data.length = s.arg 1 ∧ data.length ≤ maxChunkLen ∧
      ¬(s.params.tagCheck = true ∧ tagOk (toBe32 (s.arg 2)) = false) ∧
      s.arg 3 + (12 + data.length) ≤ s.params.bufBytes ∧ t.params = s.params ∧
      t.res[0] = crc32 (toBe32 (s.arg 2) ++ data) ∧
      t.mem.readBytes (bufBase + s.arg 3) (12 + data.length) = some (chunkFrame (toBe32 (s.arg 2)) data) := by
  rcases exec_eq_next.mp h with ⟨d, hd, rfl⟩ | ⟨e, x, y, -, rfl⟩
  · obtain ⟨hmax, hascii, -, hdst, data, hdata, rfl⟩ := endChunkEmit_eq_ok.mp hd
    have hlen : data.length = s.arg 1 := Memory.length_of_readBytes hdata
    refine ⟨data, hlen, hlen ▸ hmax, hascii, hlen ▸ hdst, rfl, by simp, ?_⟩
    rw [← length_chunkFrame (length_toBe32 (s.arg 2))]
    exact Memory.readBytes_writeCells_cellsAt s.mem (bufBase + s.arg 3) _
  · cases herr

/-- CHUNK_CHECK accepts a frame with a legal length and tag, and finds its length, tag and CRC in it. -/
theorem exec_chunkCheck_of_chunkFrame {v : Bool} {s : State} {off : Nat} {tag data : List Byte} (hp : s.params.legal)
    (hb : off + (12 + data.length) ≤ s.params.bufBytes) (hmax : data.length ≤ maxChunkLen) (ht : tag.length = 4)
    (hascii : ¬(s.params.tagCheck = true ∧ tagOk tag = false))
    (hframe : s.mem.readBytes (bufBase + off) (12 + data.length) = some (chunkFrame tag data)) :
    ∃ u, exec (.chunkCheck v) (atRange s off (12 + data.length)) = .next u ∧ u.err = false ∧
      u.res[0].toNat = data.length ∧ u.res[1] = BitVec.ofNat 32 (be32 tag) ∧ u.res[2] = crc32 (tag ++ data) ∧
        u.res[3] = crc32 (tag ++ data) ∧ u.res[6] = 1 := by
  obtain ⟨hhead, hdata, hcb⟩ := readBytes_chunkFrame ht hframe
  have hlen : be32 (toBe32 data.length ++ tag) = data.length := by
    rw [be32_append (length_toBe32 _), be32_toBe32 (hmax.trans_lt (by decide))]
  have htag : (toBe32 data.length ++ tag).drop 4 = tag := List.drop_left' (length_toBe32 _)
  have hcrc : be32 (toBe32 (crc32 (tag ++ data)).toNat) = (crc32 (tag ++ data)).toNat := be32_toBe32 (BitVec.isLt _)
  obtain ⟨h0, h1⟩ := args_atRange hp hb
  have hnone : firstError (chunkCheckLines (atRange s off (12 + data.length)) (toBe32 data.length ++ tag)) = none := by
    rw [firstError_chunkCheckLines_eq_none, h0, h1, hlen, htag]
    exact ⟨hb, by omega, hmax, Nat.le_refl _, hascii⟩
  have hdone : endOf (.chunkCheck v) (atRange s off (12 + data.length)) = _ :=
    endOf_chunkCheck_of_accepted hnone (by rwa [h0]) (by rwa [h0, hlen]) (by rwa [h0, hlen]) (by rwa [htag])
  obtain ⟨hres0, hres1, hres2, hres3, hres6⟩ :=
    chunkResults_res (atRange s off (12 + data.length)) (toBe32 data.length ++ tag) data
      (toBe32 (crc32 (tag ++ data)).toNat)
  rw [htag] at hres1 hres3 hres6
  exact ⟨_, exec_eq_next.mpr (.inl ⟨_, hdone, rfl⟩), rfl, hres0.trans hlen, hres1,
    BitVec.eq_of_toNat_eq (hres2.trans hcrc), hres3, hres6 hcrc⟩

end Sys2Proof.Machine

namespace Sys2Proof.Claims

open Sys2Proof.Machine

/-! ### The statements settled -/

/-- Settles O22: the rule checks the range and the length, reads eight bytes and compares them with the signature. -/
theorem sigCheckFollowsItsRule : Obligations.SigCheckFollowsItsRule := by
  intro s h hh
  rw [be32_take]
  refine followsRule_of_regs ?_
  exact .bufCheck fun hb => .raiseIf rfl fun h8 => .memRead (hh hb (Nat.not_lt.mp h8)) <| .raiseIf rfl fun _ => .doneRegs

/-- Settles O23: the statement's errors and results are `chunkCheckLines` and `chunkResults`. -/
theorem chunkCheckFollowsItsRule : Obligations.ChunkCheckFollowsItsRule := by
  intro v s h data cb
  rw [be32_take]
  exact fun hhead hbody => followsRule_of_regs (follows_chunkCheck hhead hbody)

/-- Settles O24: the statement's errors are `chunkEmitLines`, with the tag's word for its bytes. -/
theorem chunkEmitFollowsItsRule : Obligations.ChunkEmitFollowsItsRule := by
  intro s data src n tag dst c errors hread
  have herrors : errors = chunkEmitLines s := by
    have htag : be32 tag = s.arg 2 := be32_toBe32 (s.args[2]).isLt
    simp only [errors, chunkEmitLines, bufLine]
    rw [htag, Nat.add_assoc]
    rfl
  rw [herrors] at hread ⊢
  exact followsRule_of_stores (follows_chunkEmit hread)

/-- Settles O25: the frame that CHUNK_EMIT stored is read back whole. -/
theorem emittedChunkPassesCheck : Obligations.EmittedChunkPassesCheck := by
  intro s t hp h herr
  obtain ⟨data, hlen, hmax, hascii, hb, hparams, hcrc, hframe⟩ := frame_of_exec_chunkEmit h herr
  rw [← hparams] at hp hascii hb
  obtain ⟨u, hu, huerr, h0, h1, h2, h3, h6⟩ :=
    exec_chunkCheck_of_chunkFrame (v := true) hp hb hmax (length_toBe32 (s.arg 2)) hascii hframe
  have hword : BitVec.ofNat 32 (be32 (toBe32 (s.arg 2))) = s.args[2] := by
    rw [be32_toBe32 (v := s.arg 2) (s.args[2]).isLt]
    exact BitVec.ofNat_toNat ..
  exact ⟨u, hlen ▸ hu, huerr, h0.trans hlen, h1.trans hword, h2.trans hcrc.symm, h3.trans hcrc.symm, h6⟩

/-- Settles O26: the length, the tag and the stored CRC are read as before, and the CRC of the changed data is another. -/
theorem damagedChunkRaisesBadCrc : Obligations.DamagedChunkRaisesBadCrc := by
  intro s t j b b' _ h herr hj hb hne s'
  obtain ⟨hd, data, cb, hnone, hhead, hdata, hcb, hcrc, hres⟩ := accepted_of_exec_chunkCheck h herr
  obtain ⟨hres0, -, hres2, -, -⟩ := chunkResults_res s hd data cb
  rw [hres, hres0] at hj
  rw [hres, hres2]
  have hlen : j < data.length := by rwa [Memory.length_of_readBytes hdata]
  have hold : data[j] = b := by
    have hread := Memory.readBytes_getElem hdata hj
    rw [hb, List.getElem?_eq_getElem hlen] at hread
    exact (Option.some.inj hread).symm
  have hcomp : (crc32 (hd.drop 4 ++ data.set j b')).toNat ≠ be32 cb := by
    rw [hcrc rfl]
    exact fun e => crc32_set_ne hlen (hold.symm ▸ hne) (BitVec.eq_of_toNat_eq e)
  obtain ⟨hhead', hcb'⟩ := Memory.readBytes_write_between (m := s.mem) (a := bufBase + s.arg 0) (k := 8) hj b' 4
  have hfollows : Follows (endOf (.chunkCheck true) s') _ _ :=
    follows_chunkCheck (fun _ _ => hhead'.trans hhead) fun _ => ⟨Memory.readBytes_write hdata b', hcb'.trans hcb⟩
  refine ⟨_, hcomp, (followsRule_of_follows hfollows).1 _ _ _ ?_⟩
  rw [firstError_append_of_none (pre := chunkCheckLines s' hd) hnone, decide_eq_true hcomp.symm]
  rfl

end Sys2Proof.Claims
end

section
/-! PROOFS. The checks that the commands on the image share (spec/42_pixel.md R148, R149, R151), and a kind that must
exist, as lines of a list of errors. -/

namespace Sys2Proof.Machine

open Sys2Proof.Claims

theorem firstError_eq_none_iff {errors : List ErrorLine} :
    firstError errors = none ↔ ∀ line ∈ errors, line.1 = false := by
  induction errors with
  | nil => simp [firstError]
  | cons line errors ih => rw [firstError_cons_eq_none, ih, List.forall_mem_cons]

namespace Follows

variable {s : State} {errors : List ErrorLine} {d : Done}

theorem needCfg {f : Unit → Check Done} (hf : s.cfgValid = true → Follows (f ()) errors d) :
    Follows (needCfg s >>= f) (cfgLine s :: errors) d :=
  raiseIf (by simp) fun h => hf (by simpa using h)

theorem needImage {f : Unit → Check Done} (hf : s.imgState ≠ .empty → Follows (f ()) errors d) :
    Follows (needImage s >>= f) (imageLine s :: errors) d :=
  raiseIf rfl hf

theorem needRaw {f : Unit → Check Done} (hf : s.imgState = .raw → Follows (f ()) errors d) :
    Follows (needRaw s >>= f) (imageLine s :: filteredLine s :: errors) d := by
  rw [Machine.needRaw, bind_assoc]
  refine needImage fun himg => raiseIf rfl fun hfil => hf ?_
  cases h : s.imgState
  case raw => rfl
  case empty => exact absurd h himg
  case filtered => exact absurd h hfil

theorem orRaise {α : Type} {v : Option α} {applies : Bool} {e : ErrorCode} {a b : Nat} {f : α → Check Done}
    (hl : applies = true ↔ v = none) (hf : ∀ x, v = some x → Follows (f x) errors d) :
    Follows (orRaise v e a b >>= f) ((applies, e, a, b) :: errors) d := by
  cases v with
  | none =>
    rw [hl.mpr rfl]
    exact ⟨fun he => by cases he; rfl, nofun⟩
  | some x =>
    rw [Bool.eq_false_iff.mpr fun h => nomatch hl.mp h]
    exact ⟨(hf x rfl).raises, (hf x rfl).completes⟩

/-- The index checks as lines: line, span and sample (R151, R152). -/
theorem pixelBounds {y sp i : Nat} {f : Unit → Check Done}
    (hf : y < s.height.toNat → sp < s.spanCount.toNat → i < s.kindRow.sps → Follows (f ()) errors d) :
    Follows (pixelBounds s y sp i >>= f)
      ((decide (y ≥ s.height.toNat), .outOfBounds, y, s.height.toNat) ::
        (decide (sp ≥ s.spanCount.toNat), .outOfBounds, sp, s.spanCount.toNat) ::
        (decide (i ≥ s.kindRow.sps), .outOfBounds, i, s.kindRow.sps) :: errors) d := by
  simp only [Machine.pixelBounds, bind_assoc]
  exact raiseIf rfl fun hy => raiseIf rfl fun hsp => raiseIf rfl fun hi =>
    hf (Nat.not_le.mp hy) (Nat.not_le.mp hsp) (Nat.not_le.mp hi)

/-- The sample range check as one line for each channel (R148). -/
theorem checkSamples {max : Nat} {vs : List Nat} {f : Unit → Check Done}
    (hf : (∀ v ∈ vs, v ≤ max) → Follows (f ()) errors d) :
    Follows (checkSamples max vs >>= f)
      ((vs.map fun v => (decide (v > max), .integerOverflow, v, max)) ++ errors) d := by
  induction vs with
  | nil => exact hf (by simp)
  | cons v vs ih =>
    rw [Machine.checkSamples, bind_assoc]
    exact raiseIf rfl fun hv => ih fun hvs => hf (List.forall_mem_cons.mpr ⟨Nat.not_lt.mp hv, hvs⟩)

end Follows

end Sys2Proof.Machine
end

section
/-! PROOFS. The kind table and the derived sizes (spec/42_pixel.md R140 to R142). -/

namespace Sys2Proof.Machine

open Sys2Proof.Claims

theorem mem_kindTable (k : PixelKind) : ∃ cols, (k, cols) ∈ kindTable := by
  have listed : ∃ row ∈ kindTable, row.1 = k := by cases k <;> decide
  obtain ⟨⟨_, cols⟩, hrow, rfl⟩ := listed
  exact ⟨cols, hrow⟩

theorem bpp_eq (k : PixelKind) : (kindRow k).bpp = (kindRow k).chans * (kindRow k).depth := by
  cases k <;> rfl

/-- No two kinds share a colour type and a bit depth (R141). -/
theorem kindOf_kindRow (k : PixelKind) : kindOf (kindRow k).colorType (kindRow k).depth = some k := by
  cases k <;> rfl

/-- No two kinds share a code (R141). -/
theorem kindOfCode_kindRow (k : PixelKind) : kindOfCode (kindRow k).code = some k := by
  cases k <;> rfl

end Sys2Proof.Machine

namespace Sys2Proof.Claims

open Sys2Proof.Machine

/-! ### The statements settled -/

/-- Settles O27: the table row by row, and a line is its spans. -/
theorem strideIsSpansTimesSpanBytes : Obligations.StrideIsSpansTimesSpanBytes :=
  ⟨by decide, fun k w _ => ⟨mem_kindTable k, rfl, rfl, strideOf_eq_spanCountOf_mul k w, bpp_eq k, kindOf_kindRow k,
    kindOfCode_kindRow k⟩⟩

end Sys2Proof.Claims
end

section
/-! PROOFS. Numbers in one word: two channels (spec/30_encoding.md R88), the fields of HDR_FIELDS (spec/10_state.md R37),
and the value of CAP_BITS (spec/42_pixel.md R150). -/

namespace Sys2Proof.Machine

theorem or_shiftLeft_eq_add {lo n : Nat} (h : lo < 2 ^ n) (hi : Nat) : lo ||| hi <<< n = lo + hi * 2 ^ n := by
  rw [Nat.or_comm, ← Nat.shiftLeft_add_eq_or_of_lt h, Nat.shiftLeft_eq, Nat.add_comm]

theorem setRes_packPair (s : State) (k : Fin 8) {lo : Nat} (h : lo < 2 ^ 16) (hi : Nat) :
    s.setRes k (packPair lo hi).toNat = s.setRes k (lo + hi * 2 ^ 16) := by
  rw [packPair, or_shiftLeft_eq_add h, State.setRes, State.setRes, BitVec.ofNat_toNat, BitVec.setWidth_eq]

theorem hdrFieldsOf_eq {bd : Nat} (h : bd < 2 ^ 8) (ct : Nat) :
    hdrFieldsOf bd ct 0 0 = BitVec.ofNat 32 (bd + ct * 256) := by
  rw [hdrFieldsOf, Nat.zero_shiftLeft, Nat.zero_shiftLeft, Nat.or_zero, Nat.or_zero, or_shiftLeft_eq_add h]
  rfl

theorem capBitsOf_eq (k : PixelKind) (w h : Nat) :
    capBitsOf k w h = if k = .rgb8 ∨ k = .rgba8 then 12 * w * h else 0 := by
  cases k <;> rfl

/-- ARG4 and ARG5 as four channels (spec/30_encoding.md R88). -/
theorem argChannels_eq (s : State) :
    argChannels s = [s.arg 4 % 2 ^ 16, s.arg 4 / 2 ^ 16, s.arg 5 % 2 ^ 16, s.arg 5 / 2 ^ 16] := by
  have low : ∀ v, v &&& 0xFFFF = v % 2 ^ 16 := fun v => Nat.and_two_pow_sub_one_eq_mod v 16
  simp only [argChannels, low, Nat.shiftRight_eq_div_pow]

end Sys2Proof.Machine
end

section
/-! PROOFS. Spans (spec/42_pixel.md R143 to R147): where the channels of a pixel stand, the packing law bit by bit, and
the padding of a line. -/

namespace Sys2Proof.Machine

/-! ### The bits of one sample of a sub-byte kind -/

/-- With samples of `m` bits, a bit of the sample `a` lies below the start of the sample `b` exactly when `a` does. -/
theorem mul_add_lt_mul_iff {m t : Nat} (h : t < m) (a b : Nat) : a * m + t < b * m ↔ a < b := by
  rw [← Nat.div_lt_iff_lt_mul (Nat.zero_lt_of_lt h), Nat.mul_comm, Nat.mul_add_div (Nat.zero_lt_of_lt h),
    Nat.div_eq_of_lt h, Nat.add_zero]

/-- A span of a sub-byte kind is one byte of whole samples, one channel each (R140, R144). -/
theorem subByte_row {k : PixelKind} (h : (kindRow k).depth < 8) :
    (kindRow k).sps * (kindRow k).depth = 8 ∧ (kindRow k).chans = 1 ∧ (kindRow k).spanBytes = 1 := by
  cases k <;> revert h <;> decide

/-- Bit `t` of sample `j` is a bit of sample `i` exactly when they are one sample. -/
theorem mem_sample_iff {r : KindRow} {i j t : Nat} (hi : i < r.sps) (hj : j < r.sps) (ht : t < r.depth) :
    (sampleShift r i ≤ sampleShift r j + t ∧ sampleShift r j + t < sampleShift r i + r.depth) ↔ i = j := by
  rw [← Nat.not_lt, sampleShift, sampleShift, ← Nat.succ_mul, mul_add_lt_mul_iff ht, mul_add_lt_mul_iff ht]
  omega

/-- The samples lie inside the byte. -/
theorem sampleShift_add_lt {r : KindRow} (h8 : r.sps * r.depth = 8) {j t : Nat} (hj : j < r.sps) (ht : t < r.depth) :
    sampleShift r j + t < 8 :=
  h8 ▸ (mul_add_lt_mul_iff ht _ _).mpr (by omega)

section SubByte

variable {r : KindRow} (hr : r.depth < 8)
include hr

theorem spanRead_subByte (sb : List Byte) (i : Nat) :
    spanRead r sb i = [byteAt sb 0 / 2 ^ sampleShift r i % 2 ^ r.depth, 0, 0, 0] := by
  rw [spanRead, if_pos hr, sampleMax, Nat.and_two_pow_sub_one_eq_mod, Nat.shiftRight_eq_div_pow]

theorem testBit_spanRead (sb : List Byte) (i t : Nat) :
    ((spanRead r sb i).getD 0 0).testBit t = (decide (t < r.depth) && (byteAt sb 0).testBit (sampleShift r i + t)) := by
  simp [spanRead_subByte hr, Nat.testBit_mod_two_pow, Nat.testBit_div_two_pow, Nat.add_comm]

/-- Writing a sample puts its bits in their place and keeps the other bits of the byte (R145). -/
theorem testBit_spanWrite (sb : List Byte) (i : Nat) {v p : Nat} (hv : v < 2 ^ r.depth) (hp : p < 8) :
    (byteAt (spanWrite r sb i [v]) 0).testBit p =
      if sampleShift r i ≤ p ∧ p < sampleShift r i + r.depth then v.testBit (p - sampleShift r i)
      else (byteAt sb 0).testBit p := by
  have low : Nat.testBit 255 p = true := by simpa [hp] using Nat.testBit_two_pow_sub_one (n := 8) (i := p)
  have hbyte : (byteAt (spanWrite r sb i [v]) 0).testBit p =
      ((byteAt sb 0 &&& (0xFF ^^^ sampleMax r <<< sampleShift r i)) ||| v <<< sampleShift r i).testBit p := by
    simp only [spanWrite, hr, if_true, byteAt, List.getD_cons_zero, BitVec.toNat_ofNat, Nat.testBit_mod_two_pow, hp,
      decide_true, Bool.true_and]
  rw [hbyte, Nat.testBit_or, Nat.testBit_and, Nat.testBit_xor, Nat.testBit_shiftLeft, Nat.testBit_shiftLeft, low,
    sampleMax, Nat.testBit_two_pow_sub_one]
  by_cases hge : sampleShift r i ≤ p
  · by_cases hlt : p - sampleShift r i < r.depth
    · rw [if_pos ⟨hge, by omega⟩]
      simp [hge, hlt]
    · have hv' : v.testBit (p - sampleShift r i) = false :=
        Nat.testBit_lt_two_pow (hv.trans_le (Nat.pow_le_pow_right Nat.two_pos (Nat.not_lt.mp hlt)))
      rw [if_neg (by omega)]
      simp [hlt, hv']
  · simp [hge]

/-- A sample reads as it was just written, every other sample as before (R146). -/
theorem spanRead_spanWrite (h8 : r.sps * r.depth = 8) (sb : List Byte) {i j v : Nat} (hi : i < r.sps) (hj : j < r.sps)
    (hv : v < 2 ^ r.depth) :
    (spanRead r (spanWrite r sb i [v]) j).getD 0 0 = if i = j then v else (spanRead r sb j).getD 0 0 := by
  refine Nat.eq_of_testBit_eq fun t => ?_
  rw [testBit_spanRead hr]
  by_cases ht : t < r.depth
  · rw [testBit_spanWrite hr sb i hv (sampleShift_add_lt h8 hj ht), if_congr (mem_sample_iff hi hj ht) rfl rfl]
    split
    case isTrue hij => rw [hij, Nat.add_sub_cancel_left, decide_eq_true ht, Bool.true_and]
    case isFalse => rw [testBit_spanRead hr]
  · rw [decide_eq_false ht, Bool.false_and]
    split
    case isTrue =>
      exact (Nat.testBit_lt_two_pow (hv.trans_le (Nat.pow_le_pow_right Nat.two_pos (Nat.not_lt.mp ht)))).symm
    case isFalse => rw [testBit_spanRead hr, decide_eq_false ht, Bool.false_and]

end SubByte

/-! ### A sequence of sample writes -/

/-- The span after a sequence of writes, each a sample's number and its value. -/
def writeSamples (r : KindRow) (sb : List Byte) (ws : List (Nat × Nat)) : List Byte :=
  ws.foldl (fun sb w => spanWrite r sb w.1 [w.2]) sb

theorem writeSamples_concat (r : KindRow) (sb : List Byte) (ws : List (Nat × Nat)) (w : Nat × Nat) :
    writeSamples r sb (ws ++ [w]) = spanWrite r (writeSamples r sb ws) w.1 [w.2] := by
  simp [writeSamples]

theorem length_writeSamples (k : PixelKind) {sb : List Byte} (h : sb.length = (kindRow k).spanBytes)
    (ws : List (Nat × Nat)) : (writeSamples (kindRow k) sb ws).length = (kindRow k).spanBytes := by
  induction ws using List.reverseRecOn with
  | nil => exact h
  | append_singleton ws w _ => rw [writeSamples_concat, length_spanWrite]

/-- Each sample reads as the last value written to it, or as it was (R146). -/
theorem spanRead_writeSamples {r : KindRow} (hr : r.depth < 8) (h8 : r.sps * r.depth = 8) (sb : List Byte)
    {ws : List (Nat × Nat)} (hws : ∀ w ∈ ws, w.1 < r.sps ∧ w.2 < 2 ^ r.depth) {j : Nat} (hj : j < r.sps) :
    (spanRead r (writeSamples r sb ws) j).getD 0 0 =
      ((ws.reverse.find? fun w => w.1 == j).map Prod.snd).getD ((spanRead r sb j).getD 0 0) := by
  induction ws using List.reverseRecOn with
  | nil => rfl
  | append_singleton ws w ih =>
    obtain ⟨hprev, hw⟩ := List.forall_mem_append.mp hws
    obtain ⟨hi, hv⟩ := hw w (List.mem_singleton_self w)
    rw [writeSamples_concat, spanRead_spanWrite hr h8 _ hi hj hv, ih hprev, List.reverse_concat, List.find?_cons]
    by_cases h : w.1 = j
    · rw [if_pos h, beq_iff_eq.mpr h]
      rfl
    · rw [if_neg h, beq_eq_false_iff_ne.mpr h]

/-! ### Kinds of whole bytes -/

theorem depth_of_wide {k : PixelKind} (h : 8 ≤ (kindRow k).depth) :
    (kindRow k).depth = 8 ∨ (kindRow k).depth = 16 := by
  cases k <;> revert h <;> decide

theorem be16_drop (sb : List Byte) (n : Nat) : be16 (sb.drop n) = byteAt sb n * 256 + byteAt sb (n + 1) := by
  simp [be16, byteAt]

theorem spanRead_eight {r : KindRow} (hr : r.depth = 8) (sb : List Byte) (i : Nat) {c : Nat} (hc : c < 4) :
    (spanRead r sb i).getD c 0 = if c < r.chans then byteAt sb c else 0 := by
  simp [spanRead, hr, hc]

theorem spanRead_sixteen {r : KindRow} (hr : r.depth = 16) (sb : List Byte) (i : Nat) {c : Nat} (hc : c < 4) :
    (spanRead r sb i).getD c 0 = if c < r.chans then byteAt sb (2 * c) * 256 + byteAt sb (2 * c + 1) else 0 := by
  simp [spanRead, hr, hc, be16_drop]

/-- Where each channel of a span stands (R144). -/
theorem spanRead_getD (k : PixelKind) (sb : List Byte) (i : Nat) {c : Nat} (hc : c < 4) :
    (spanRead (kindRow k) sb i).getD c 0 =
      if (kindRow k).chans ≤ c then 0
      else if (kindRow k).depth < 8 then byteAt sb 0 / 2 ^ sampleShift (kindRow k) i % 2 ^ (kindRow k).depth
      else if (kindRow k).depth = 8 then byteAt sb c
      else byteAt sb (2 * c) * 256 + byteAt sb (2 * c + 1) := by
  rcases Nat.lt_or_ge (kindRow k).depth 8 with hsub | hwide
  · obtain ⟨-, hchans, -⟩ := subByte_row hsub
    rw [spanRead_subByte hsub, if_pos hsub, hchans]
    interval_cases c <;> rfl
  · rw [if_neg (Nat.not_lt.mpr hwide)]
    rcases depth_of_wide hwide with h8 | h16
    · rw [spanRead_eight h8 _ _ hc, if_pos h8]
      simp only [← not_lt, ite_not]
    · rw [spanRead_sixteen h16 _ _ hc, if_neg (show (kindRow k).depth ≠ 8 by omega)]
      simp only [← not_lt, ite_not]

theorem byteAt_spanWrite_eight {r : KindRow} (hr : r.depth = 8) (sb : List Byte) (i : Nat) (ch : List Nat) {c : Nat}
    (hc : c < r.chans) : byteAt (spanWrite r sb i ch) c = ch.getD c 0 % 256 := by
  simp [spanWrite, hr, byteAt, hc]

/-- The two bytes of each element of a list, one pair after another. -/
theorem getElem?_flatMap_pair {α β : Type} (hi lo : α → β) (l : List α) (c : Nat) :
    (l.flatMap fun x => [hi x, lo x])[2 * c]? = l[c]?.map hi ∧
      (l.flatMap fun x => [hi x, lo x])[2 * c + 1]? = l[c]?.map lo := by
  induction l generalizing c with
  | nil => simp
  | cons x l ih =>
    cases c with
    | zero => simp
    | succ c => simpa [Nat.mul_succ] using ih c

theorem byteAt_spanWrite_sixteen {r : KindRow} (hr : r.depth = 16) (sb : List Byte) (i : Nat) (ch : List Nat) {c : Nat}
    (hc : c < r.chans) :
    byteAt (spanWrite r sb i ch) (2 * c) = ch.getD c 0 / 256 % 256 ∧
      byteAt (spanWrite r sb i ch) (2 * c + 1) = ch.getD c 0 % 256 := by
  have low : ∀ v, v &&& 0xFF = v % 256 := fun v => Nat.and_two_pow_sub_one_eq_mod v 8
  obtain ⟨hhi, hlo⟩ := getElem?_flatMap_pair (fun c => BitVec.ofNat 8 (ch.getD c 0 >>> 8))
    (fun c => BitVec.ofNat 8 (ch.getD c 0 &&& 0xFF)) (List.range r.chans) c
  rw [spanWrite, if_neg (by omega), if_neg (by omega)]
  refine ⟨?_, ?_⟩
  · rw [byteAt, List.getD_eq_getElem?_getD, hhi]
    simp [hc, Nat.shiftRight_eq_div_pow]
  · rw [byteAt, List.getD_eq_getElem?_getD, hlo]
    simp [hc, low]

/-- A written pixel reads back whole (R146). -/
theorem spanRead_spanWrite_wide {r : KindRow} (hr : r.depth = 8 ∨ r.depth = 16) (sb : List Byte) (i : Nat)
    {ch : List Nat} {c : Nat} (hc : c < 4) (hch : ch.getD c 0 < 2 ^ r.depth) :
    (spanRead r (spanWrite r sb i ch) i).getD c 0 = if c < r.chans then ch.getD c 0 else 0 := by
  rcases hr with hr | hr <;> rw [hr] at hch
  · rw [spanRead_eight hr _ _ hc]
    refine if_ctx_congr Iff.rfl (fun h => ?_) fun _ => rfl
    exact (byteAt_spanWrite_eight hr sb i ch h).trans (Nat.mod_eq_of_lt hch)
  · rw [spanRead_sixteen hr _ _ hc]
    refine if_ctx_congr Iff.rfl (fun h => ?_) fun _ => rfl
    obtain ⟨hhi, hlo⟩ := byteAt_spanWrite_sixteen hr sb i ch h
    rw [hhi, hlo]
    omega

/-! ### The padding of a line -/

@[simp] theorem padClear_concat (r : KindRow) (w : Nat) (front : List Byte) (d : Byte) :
    padClear r w (front ++ [d]) = front ++ [d &&& padMask r w] := by
  simp [padClear]

/-- Of the bits of a sub-byte kind's last byte, the mask has those of the used samples (R147). -/
theorem testBit_padMask {r : KindRow} (hr : r.depth < 8) (w p : Nat) :
    (padMask r w).toNat.testBit p = (decide (p < 8) && !decide (p < (r.sps - usedSamples r w) * r.depth)) := by
  have ones : ∀ q, (0xFF#8).getLsbD q = decide (q < 8) := fun _ => BitVec.getLsbD_allOnes (v := 8)
  rw [BitVec.testBit_toNat, padMask]
  split
  case isTrue h => simp [h.resolve_right (Nat.not_le.mpr hr), ones]
  case isFalse =>
    rw [BitVec.getLsbD_shiftLeft, ones]
    by_cases hp : p < 8 <;> simp [hp, Nat.lt_of_le_of_lt (Nat.sub_le ..)]

theorem byteAt_singleton (b : Byte) : byteAt [b] 0 = b.toNat := rfl

/-- Of a line's last byte the mask keeps the used samples and clears the others (R147). -/
theorem spanRead_padMask {r : KindRow} (hr : r.depth < 8) (h8 : r.sps * r.depth = 8) (d : Byte) (w : Nat) {i : Nat}
    (hi : i < r.sps) :
    (spanRead r [d &&& padMask r w] i).getD 0 0 = if i < usedSamples r w then (spanRead r [d] i).getD 0 0 else 0 := by
  refine Nat.eq_of_testBit_eq fun t => ?_
  rw [testBit_spanRead hr, byteAt_singleton, BitVec.toNat_and, Nat.testBit_and, testBit_padMask hr]
  by_cases ht : t < r.depth
  · have hunused : sampleShift r i + t < (r.sps - usedSamples r w) * r.depth ↔ usedSamples r w ≤ i := by
      rw [sampleShift, mul_add_lt_mul_iff ht]
      omega
    rw [decide_eq_true (sampleShift_add_lt h8 hi ht), Bool.true_and]
    split
    case isTrue hu =>
      rw [testBit_spanRead hr, byteAt_singleton, decide_eq_false (mt hunused.mp (Nat.not_le.mpr hu)), Bool.not_false,
        Bool.and_true]
    case isFalse hu =>
      rw [decide_eq_true (hunused.mpr (Nat.not_lt.mp hu)), Bool.not_true, Bool.and_false, Bool.and_false,
        Nat.zero_testBit]
  · rw [decide_eq_false ht, Bool.false_and]
    split
    case isTrue => rw [testBit_spanRead hr, decide_eq_false ht, Bool.false_and]
    case isFalse => rw [Nat.zero_testBit]

end Sys2Proof.Machine

namespace Sys2Proof.Claims

open Sys2Proof.Machine

/-! ### The statements settled -/

/-- Settles O31: where the channels stand, one sample write after another, the pixels of whole bytes, and the last byte of
a line. -/
theorem spanPackingLaw : Obligations.SpanPackingLaw := by
  refine ⟨fun k sb i c _ _ hc => ?_, fun k b ws j hk hws hj => ?_, fun k sb c0 c1 c2 c3 hk hch => ?_,
    fun k w front d _ => ⟨_, padClear_concat .., fun hk => ?_, fun hk i hi => ?_⟩⟩
  · exact spanRead_getD k sb i hc
  · obtain ⟨h8, -, hone⟩ := subByte_row hk
    refine ⟨(length_writeSamples k (sb := [b]) hone.symm ws).trans hone,
      (spanRead_writeSamples hk h8 [b] hws hj).trans ?_⟩
    cases ws.reverse.find? fun w => w.1 == j <;> rfl
  · refine ⟨length_spanWrite .., fun c hc => spanRead_spanWrite_wide (depth_of_wide hk) sb 0 hc (hch _ ?_)⟩
    rw [List.getD_eq_getElem _ _ hc]
    exact List.getElem_mem hc
  · rw [padMask, if_pos (.inr hk)]
    exact BitVec.and_allOnes
  · exact spanRead_padMask hk (subByte_row hk).1 d w hi

end Sys2Proof.Claims
end

section
/-! PROOFS. The pixel unit's commands (spec/42_pixel.md R150 to R155), each against its list of errors. -/

namespace Sys2Proof.Machine

open Sys2Proof.Claims

theorem be16_lt (bs : List Byte) : be16 bs < 2 ^ 16 := by
  have h0 := byteAt_lt bs 0
  have h1 := byteAt_lt bs 1
  unfold be16
  omega

/-- A channel has at most 16 bits (R144). -/
theorem spanRead_getD_lt (r : KindRow) (sb : List Byte) (i c : Nat) : (spanRead r sb i).getD c 0 < 2 ^ 16 := by
  have entry : ∀ v ∈ spanRead r sb i, v < 2 ^ 16 := by
    unfold spanRead
    split
    case isTrue hsub =>
      have hv : (byteAt sb 0 >>> sampleShift r i) &&& sampleMax r < 2 ^ 16 :=
        (Nat.and_le_left.trans (Nat.shiftRight_le ..)).trans_lt ((byteAt_lt sb 0).trans (by decide))
      simpa using hv
    case isFalse =>
      split <;> intro v hv <;> obtain ⟨c, -, rfl⟩ := List.mem_map.mp hv <;> split
      · exact (byteAt_lt sb c).trans (by decide)
      · decide
      · exact be16_lt _
      · decide
  by_cases hc : c < (spanRead r sb i).length
  · rw [List.getD_eq_getElem _ _ hc]
    exact entry _ (List.getElem_mem hc)
  · rw [List.getD_eq_default _ _ (Nat.not_lt.mp hc)]
    decide

/-- The errors of HDR_LOAD, in order, for a header `hd` whose colour type and bit depth name the kind `k`. -/
def hdrLoadLines (s : State) (hd : List Byte) (k : PixelKind) : List ErrorLine :=
  let need := be32 (hd.drop 4) * (1 + strideOf (kindRow k) (be32 hd))
  [bufLine s (s.arg 0) 13, (decide (byteAt hd 9 ∉ colorTypes), .invalidColorType, byteAt hd 9, 0),
    (decide (kindOf (byteAt hd 9) (byteAt hd 8) = none), .invalidBitDepth, byteAt hd 8, byteAt hd 9),
    (decide (byteAt hd 10 ≠ 0), .unsupportedMethod, 0, byteAt hd 10),
    (decide (byteAt hd 11 ≠ 0), .unsupportedMethod, 1, byteAt hd 11),
    (decide (byteAt hd 12 ≠ 0), .unsupportedMethod, 2, byteAt hd 12),
    (decide (be32 hd = 0 ∨ be32 (hd.drop 4) = 0), .noPixels, be32 hd, be32 (hd.drop 4)),
    (decide (need > s.params.imgBytes), .insufficientSize, s.params.imgBytes, need)]

theorem follows_hdrLoad {s : State} {hd : List Byte} {k : PixelKind}
    (hread : s.arg 0 + 13 ≤ s.params.bufBytes → s.mem.readBytes (bufBase + s.arg 0) 13 = some hd)
    (hkind : ∀ k', kindOf (byteAt hd 9) (byteAt hd 8) = some k' → k' = k) :
    Follows (endOf .hdrLoad s) (hdrLoadLines s hd k)
      ⟨configure k (be32 hd) (be32 (hd.drop 4)) (byteAt hd 8) (byteAt hd 9) 0 0 0 s, []⟩ := by
  refine .bufCheck fun hb => .memRead (hread hb) <| .raiseIf rfl fun _ => .orRaise decide_eq_true_iff fun k' hk' => ?_
  obtain rfl := hkind k' hk'
  refine .raiseIf rfl fun hcm => .raiseIf rfl fun hfm => .raiseIf rfl fun him =>
    .raiseIf rfl fun _ => .raiseIf rfl fun _ => ?_
  rw [not_not.mp hcm, not_not.mp hfm, not_not.mp him]
  exact .doneRegs

end Sys2Proof.Machine

namespace Sys2Proof.Claims

open Sys2Proof.Machine

/-! ### The statements settled -/

/-- Settles O28: the checks of the rule are the lines, and `configure` is the configuration the statement writes out. -/
theorem hdrLoadFollowsItsRule : Obligations.HdrLoadFollowsItsRule := by
  intro s hd k
  rw [be32_take, be32_take]
  intro w h bd ct need cap hread hkind
  have follows := follows_hdrLoad hread hkind
  rw [configure, hdrFieldsOf_eq (byteAt_lt hd 8), capBitsOf_eq] at follows
  exact followsRule_of_regs follows

/-- Settles O29: the checks are the lines, and with them passed the span is read; two channels of at most 16 bits make a
word. -/
theorem pixReadFollowsItsRule : Obligations.PixReadFollowsItsRule := by
  intro s sb y sp i ch errors hread
  refine followsRule_of_regs <| .needCfg fun hcfg => .needRaw fun hraw => .pixelBounds fun hy hsp hi => ?_
  have hnone : firstError errors = none := by
    simp [errors, y, sp, i, firstError_eq_none_iff, cfgLine, imageLine, filteredLine, hcfg, hraw, hy, hsp, hi]
  rw [← setRes_packPair s 0 (spanRead_getD_lt ..), ← setRes_packPair _ 1 (spanRead_getD_lt ..)]
  exact .memRead (hread hnone) .doneRegs

/-- Settles O30: the checks are the lines, one for each channel the kind has, and with them passed the span is read. -/
theorem pixWriteFollowsItsRule : Obligations.PixWriteFollowsItsRule := by
  intro s sb
  rw [← argChannels_eq]
  intro y sp i kk max ch errors hread
  refine followsRule_of_stores ?_
  rw [← List.append_nil errors]
  refine .needCfg fun hcfg => .needRaw fun hraw => .raiseIf rfl fun hkk => .raiseIf rfl fun hcode =>
    .pixelBounds fun hy hsp hi => .checkSamples fun hv => ?_
  have hnone : firstError errors = none := by
    refine (firstError_append_of_none ?_).trans (firstError_eq_none_iff.mpr (List.forall_mem_map.mpr fun v hmem => ?_))
    · simp [y, sp, i, kk, firstError_eq_none_iff, cfgLine, imageLine, filteredLine, hcfg, hraw, hkk, hcode, hy, hsp,
        hi]
    · exact decide_eq_false (Nat.not_lt.mpr (hv v hmem))
  exact .memRead (hread hnone) .doneStores

/-- Settles O32: the length is tested before the range, and the range before the image's length. -/
theorem imgImportFollowsItsRule : Obligations.ImgImportFollowsItsRule := by
  intro s bs off len errors hread
  rw [← setRes_zero_toNat { s with imgState := .filtered } s.imgLen]
  refine followsRule_of_stores <| .needCfg fun hcfg => .raiseIf rfl fun h0 => .bufCheck fun hb =>
    .raiseIf rfl fun hlen => ?_
  have hnone : firstError errors = none := by
    simp [errors, off, len, firstError_eq_none_iff, cfgLine, bufLine, hcfg, h0, hb, ← not_not.mp hlen]
  exact .memRead (hread hnone) .doneStores

/-- Settles O33: IMG_ZERO asks for a configuration only; IMG_EXPORT reads the image once its checks are passed. -/
theorem imgExportAndZeroFollowTheirRules : Obligations.ImgExportAndZeroFollowTheirRules := by
  intro s bs dst errors
  refine ⟨followsRule_of_stores <| .needCfg fun _ => .doneStores, fun hread => followsRule_of_stores ?_⟩
  refine .needCfg fun hcfg => .needImage fun himg => .bufCheck fun hb => ?_
  have hnone : firstError errors = none := by
    simp [errors, dst, firstError_eq_none_iff, cfgLine, imageLine, bufLine, hcfg, himg, hb]
  exact .memRead (hread hnone) .doneStores

end Sys2Proof.Claims
end

section
/-! PROOFS. The line functions of the filter pipeline (spec/43_filter.md R180 to R187): the predictors as numbers, each byte
of a filtered and of a reconstructed line, and the adaptive selector as an argument of the least score. -/

namespace Sys2Proof.Machine

open Sys2Proof.Claims

/-! ### Neighbours and predictors as numbers (R180, R182, R183) -/

theorem toNat_leftByte (d : Nat) (v : List Byte) (k : Nat) : (leftByte d v k).toNat = leftOf d v k := by
  unfold leftByte leftOf
  split <;> rfl

theorem toNat_upByte (u : Option (List Byte)) (k : Nat) : (upByte u k).toNat = upOf u k := by
  cases u <;> rfl

theorem toNat_upLeftByte (d : Nat) (u : Option (List Byte)) (k : Nat) : (upLeftByte d u k).toNat = upLeftOf d u k := by
  cases u with
  | none => rfl
  | some v => exact toNat_leftByte d v k

theorem paeth_eq_paethOf (a b c : Nat) : paeth a b c = paethOf a b c := by
  simp only [paeth, paethOf, Int.abs_eq_natAbs, Nat.cast_le]

/-- The Paeth predictor is one of its three neighbours. -/
theorem paethOf_lt {a b c n : Nat} (ha : a < n) (hb : b < n) (hc : c < n) : paethOf a b c < n := by
  dsimp only [paethOf]
  split
  · exact ha
  · split
    · exact hb
    · exact hc

theorem toNat_pred (t : FilterType) (a b c : Byte) :
    (pred t a b c).toNat = predictorOf (filterTag t) a.toNat b.toNat c.toNat := by
  have ha := a.isLt
  have hb := b.isLt
  cases t with
  | none => rfl
  | sub => rfl
  | up => rfl
  | average =>
    have hmean : (a.toNat + b.toNat) / 2 < 2 ^ 8 := by omega
    exact (BitVec.toNat_ofNat ..).trans (Nat.mod_eq_of_lt hmean)
  | paeth =>
    have hnear : (pred .paeth a b c).toNat = paethOf a.toNat b.toNat c.toNat % 2 ^ 8 := by
      rw [pred, BitVec.toNat_ofNat, paeth_eq_paethOf]
    exact hnear.trans (Nat.mod_eq_of_lt (paethOf_lt ha hb c.isLt))

theorem toNat_predAt (t : FilterType) (d : Nat) (v : List Byte) (u : Option (List Byte)) (k : Nat) :
    (predAt t d v u k).toNat = predictionOf (filterTag t) d v u k := by
  rw [predAt, toNat_pred, toNat_leftByte, toNat_upByte, toNat_upLeftByte, predictionOf]

/-! ### Each byte of a line (R183, R184) -/

theorem getD_filterLine (t : FilterType) (d : Nat) {r : List Byte} (u : Option (List Byte)) {k : Nat} (hk : k < r.length) :
    (filterLine t d r u).getD k 0 = r.getD k 0 - predAt t d r u k := by
  simp [filterLine, hk]

/-- Reconstruction appends to what it has one byte for each filtered byte, predicted from the line it is making. -/
theorem exists_reconFrom_eq_append {d : Nat} (hd : 1 ≤ d) (t : FilterType) (u : Option (List Byte)) (out xs : List Byte) :
    ∃ ys, reconFrom t d u out xs = out ++ ys ∧
      ∀ k < xs.length, ys.getD k 0 = xs.getD k 0 + predAt t d (out ++ ys) u (out.length + k) := by
  induction xs generalizing out with
  | nil => exact ⟨[], by simp [reconFrom], by simp⟩
  | cons x xs ih =>
    obtain ⟨ys, heq, hys⟩ := ih (out ++ [x + predAt t d out u out.length])
    have hout : out ++ [x + predAt t d out u out.length] ++ ys = out ++ (x + predAt t d out u out.length) :: ys := by simp
    rw [hout] at heq hys
    refine ⟨_ :: ys, heq, fun k hk => ?_⟩
    cases k with
    | zero => rw [Nat.add_zero, predAt_append hd t out _ u _ (Nat.le_refl _)]; rfl
    | succ k =>
      have hnext := hys k (by simpa using hk)
      rw [List.length_append, List.length_singleton, Nat.add_assoc, Nat.add_comm 1] at hnext
      exact hnext

theorem getD_reconLine {d : Nat} (hd : 1 ≤ d) (t : FilterType) {x : List Byte} (u : Option (List Byte)) {k : Nat}
    (hk : k < x.length) :
    (reconLine t d x u).getD k 0 = x.getD k 0 + predAt t d (reconLine t d x u) u k := by
  obtain ⟨ys, heq, hys⟩ := exists_reconFrom_eq_append hd t u [] x
  rw [reconLine, heq]
  simpa using hys k hk

/-- Reconstruction from byte `k` of a filtered line on, the raw bytes before it standing, gives the raw line. -/
theorem reconFrom_drop_filterLine {d : Nat} (hd : 1 ≤ d) (t : FilterType) (r : List Byte) (u : Option (List Byte))
    (n : Nat) {k : Nat} (hk : k + n = r.length) : reconFrom t d u (r.take k) ((filterLine t d r u).drop k) = r := by
  induction n generalizing k with
  | zero =>
    obtain rfl : k = r.length := hk
    rw [List.take_length, List.drop_of_length_le (length_filterLine ..).le, reconFrom]
  | succ n ih =>
    have hlt : k < r.length := by omega
    have htake : (r.take k).length = k := List.length_take_of_le (Nat.le_of_lt hlt)
    have hpred : predAt t d r u k = predAt t d (r.take k) u k := by
      have h := predAt_append hd t (r.take k) (r.drop k) u k (Nat.le_of_eq htake.symm)
      rwa [List.take_append_drop] at h
    rw [drop_filterLine hlt, reconFrom, htake, hpred, BitVec.sub_add_cancel, List.take_append_getElem]
    exact ih (by omega)

/-- Reconstructing a filtered line with the same tag and previous line gives the raw line back (R184). -/
theorem reconLine_filterLine {d : Nat} (hd : 1 ≤ d) (t : FilterType) (r : List Byte) (u : Option (List Byte)) :
    reconLine t d (filterLine t d r u) u = r :=
  reconFrom_drop_filterLine hd t r u r.length (Nat.zero_add _)

/-! ### The adaptive selector (R185) -/

theorem lineScore_eq_natAbs_sum (f : List Byte) : lineScore f = ((f.map BitVec.toInt).sum).natAbs := by
  rw [lineScore, List.sum_eq_foldl, List.foldl_map]

theorem foldl_argAux_some {α : Type} (r : α → α → Prop) [DecidableRel r] (l : List α) (best : α) :
    l.foldl (List.argAux r) (some best) = some (l.foldl (fun best t => if r t best then t else best) best) := by
  induction l generalizing best with
  | nil => rfl
  | cons t l ih =>
    rw [List.foldl_cons, List.foldl_cons, ← ih]
    congr 1
    exact (apply_ite some ..).symm

/-- The selector is the first filter with the least score. -/
theorem adaptiveFilter_mem_argmin (d : Nat) (r : List Byte) (u : Option (List Byte)) :
    adaptiveFilter d r u ∈ allFilters.argmin (scoreOf d r u) := by
  have hfirst : adaptiveFilter d r u =
      allFilters.tail.foldl (fun best t => if scoreOf d r u t < scoreOf d r u best then t else best) .none := by
    rw [adaptiveFilter, allFilters, List.foldl_cons, ite_self, List.tail_cons]
  rw [hfirst]
  exact foldl_argAux_some (fun t best => scoreOf d r u t < scoreOf d r u best) allFilters.tail .none

/-- The filters stand in the order of their tags. -/
theorem idxOf_allFilters (t : FilterType) : t ∈ allFilters ∧ allFilters.idxOf t = filterTag t := by
  cases t <;> decide

end Sys2Proof.Machine

namespace Sys2Proof.Claims

open Sys2Proof.Machine

/-! ### The statements settled -/

/-- Settles O36: the selector is Mathlib's `argmin`, whose tie goes to the filter that stands first. -/
theorem adaptiveFilterHasLeastScore : Obligations.AdaptiveFilterHasLeastScore := by
  refine ⟨lineScore_eq_natAbs_sum, fun d r u t => ?_⟩
  obtain ⟨hmem, hidx⟩ := idxOf_allFilters t
  obtain ⟨-, hleast, hfirst⟩ := List.mem_argmin_iff.mp (adaptiveFilter_mem_argmin d r u)
  refine ⟨hleast t hmem, fun htag => Nat.lt_of_not_le fun hle => ?_⟩
  have hbefore := hfirst t hmem hle
  rw [hidx, (idxOf_allFilters _).2] at hbefore
  exact Nat.not_lt.mpr hbefore htag

/-- Settles O37: each byte by its predictor, a number below 256. -/
theorem reconstructUndoesFilter : Obligations.ReconstructUndoesFilter := by
  refine ⟨rfl, fun t d r u hd => ⟨reconLine_filterLine hd t r u, length_filterLine .., length_reconLine ..,
    fun k hk => ?_⟩⟩
  rw [getD_filterLine t d u hk, getD_reconLine hd t u hk, ← toNat_predAt, ← toNat_predAt]
  exact ⟨by rw [BitVec.toNat_sub]; omega, BitVec.toNat_add ..⟩

end Sys2Proof.Claims
end

section
/-! PROOFS. LINE_RECON and LINE_FILTER (spec/43_filter.md R190, R191): the checks they share as lines of a list of errors,
the filter that SEL selects, and where they store. -/

namespace Sys2Proof.Machine

open Sys2Proof.Claims

/-! ### Kinds by their codes (spec/30_encoding.md R89, spec/42_pixel.md R141) -/

theorem currentKindCode_eq (s : State) : currentKindCode s = s.arg 3 % 256 :=
  Nat.and_two_pow_sub_one_eq_mod _ 8

theorem previousKindCode_eq (s : State) : previousKindCode s = s.arg 3 / 256 % 256 := by
  rw [previousKindCode, Nat.shiftRight_eq_div_pow]
  exact Nat.and_two_pow_sub_one_eq_mod _ 8

theorem kindOfCode_eq_some {code : Nat} {k : PixelKind} : kindOfCode code = some k ↔ (kindRow k).code = code := by
  constructor
  · intro h
    simpa using List.find?_some h
  · rintro rfl
    exact kindOfCode_kindRow k

theorem code_injective {k k' : PixelKind} (h : (kindRow k).code = (kindRow k').code) : k = k' :=
  Option.some.inj ((kindOfCode_kindRow k).symm.trans (h ▸ kindOfCode_kindRow k'))

theorem code_le (k : PixelKind) : (kindRow k).code ≤ 14 := by
  cases k <;> decide

theorem kindOfCode_eq_none {code : Nat} : kindOfCode code = none ↔ 14 < code := by
  constructor
  · intro h
    by_contra hle
    interval_cases code <;> cases h
  · intro h
    refine Option.eq_none_iff_forall_ne_some.mpr fun k hk => ?_
    have := code_le k
    have := kindOfCode_eq_some.mp hk
    omega

/-! ### The shared checks as lines (R190) -/

namespace Follows

variable {p : Bool} {s : State} {k : PixelKind} {errors : List ErrorLine} {d : Done}

/-- A line that does not apply says nothing. -/
theorem skip {x : Check Done} {e : ErrorCode} {a b : Nat} (h : Follows x errors d) :
    Follows x ((false, e, a, b) :: errors) d :=
  ⟨h.raises, h.completes⟩

/-- A tag that must name a filter, as a line: a tag above 4 names none (R183). -/
theorem ofTag {tag : Nat} {f : FilterType} {x : FilterType → Check Done} {e : ErrorCode} {a b : Nat}
    (hf : tag ≤ 4 → filterTag f = tag) (hx : tag ≤ 4 → Follows (x f) errors d) :
    Follows (Machine.orRaise (filterOfTag tag) e a b >>= x) ((decide (tag > 4), e, a, b) :: errors) d := by
  refine orRaise (by rw [decide_eq_true_iff, filterOfTag_eq_none]) fun t ht => ?_
  have htag := filterOfTag_eq_some.mp ht
  have hle : tag ≤ 4 := htag ▸ filterTag_le t
  obtain rfl : t = f := filterTag_inj (htag.trans (hf hle).symm)
  exact hx hle

/-- The checks of the line commands, one after another, for the current line's kind `k`; with a previous line, its kind is
`k` too once they are passed. -/
theorem lineChecks {x : LineShape → Check Done} (hk : s.arg 3 % 256 ≤ 14 → (kindRow k).code = s.arg 3 % 256)
    (hx : firstError (lineLines p s k) = none →
      Follows (x ⟨kindRow k, kindRow k, strideOf (kindRow k) (s.arg 4)⟩) errors d) :
    Follows (lineChecks p s >>= x) (lineLines p s k ++ errors) d := by
  simp only [Machine.lineChecks, bind_assoc, currentKindCode_eq, previousKindCode_eq, lineLen]
  refine orRaise (by rw [decide_eq_true_iff, kindOfCode_eq_none]) fun kc hkc => ?_
  have hcode := kindOfCode_eq_some.mp hkc
  have hle : s.arg 3 % 256 ≤ 14 := hcode ▸ code_le kc
  obtain rfl : kc = k := code_injective (hcode.trans (hk hle).symm)
  cases p with
  | false =>
    simp only [Bool.false_eq_true, if_false, false_and, or_false, ok_bind, bind_assoc]
    refine skip <| raiseIf (by simp) fun hw => raiseIf (by simp) fun _ => bufCheck fun hcur => skip <|
      bufCheck fun hdst => hx ?_
    simp [firstError_eq_none_iff, lineLines, bufLine, hle, hw, hcur, hdst]
  | true =>
    simp only [if_true, true_and, ok_bind, bind_assoc]
    refine orRaise (by simp [kindOfCode_eq_none]) fun kp hkp => ?_
    have hkind : s.arg 3 / 256 % 256 ≠ s.arg 3 % 256 ↔ kp ≠ kc := by
      rw [← hcode, ← kindOfCode_eq_some.mp hkp]
      exact not_congr ⟨code_injective, congrArg fun k => (kindRow k).code⟩
    refine raiseIf (by simp) fun hw => raiseIf ?_ fun hsame => bufCheck fun hcur =>
      bufCheck fun hprev => bufCheck fun hdst => ?_
    · rw [Bool.true_and, ← Bool.decide_or, decide_eq_decide]
      exact (or_congr_left hkind).trans (or_congr_right' fun h => by rw [not_not.mp h])
    obtain ⟨hsame, hspans⟩ := not_or.mp hsame
    obtain rfl : kp = kc := not_not.mp hsame
    obtain ⟨hw, hwp⟩ := not_or.mp hw
    refine hx ?_
    simp [firstError_eq_none_iff, lineLines, bufLine, hle, hw, hwp, hcur, hprev, hdst,
      not_not.mp (mt hkind.mp hsame), not_not.mp hspans]

end Follows

/-! ### The filter that SEL selects (R191, spec/30_encoding.md R84) -/

theorem chosenFilter_iff {sel d : Nat} {r : List Byte} {u : Option (List Byte)} {f : FilterType} (hsel : sel ≤ 5) :
    chosenFilter sel d r u f ↔ f = filterOfSel sel d r u := by
  unfold chosenFilter filterOfSel
  cases htag : filterOfTag sel with
  | none =>
    have h5 : sel = 5 := Nat.le_antisymm hsel (filterOfTag_eq_none.mp htag)
    simp [h5]
  | some t =>
    obtain rfl := filterOfTag_eq_some.mp htag
    have h4 := filterTag_le t
    have hinj : filterTag f = filterTag t ↔ f = t := ⟨filterTag_inj, congrArg filterTag⟩
    simp [h4, hinj, show filterTag t ≠ 5 by omega]

end Sys2Proof.Machine

namespace Sys2Proof.Claims

open Sys2Proof.Machine

/-! ### The statements settled -/

/-- Settles O16: the destination of both commands is the line's own. -/
theorem lineCommandsStoreOnlyDestination : Obligations.LineCommandsStoreOnlyDestination := by
  intro i s t a hi h ha
  have outside : ¬inLineDestination s a = true := fun hin => by
    obtain ⟨dst, len, hd, hge, hlt⟩ := inLineDestination_eq_true.mp hin
    have := ha dst len hd
    omega
  refine read_of_not_mayStore h ?_
  rcases hi with ⟨p, rfl⟩ | ⟨sel, p, rfl⟩ <;> simp [mayStore, outside]

/-- Settles O34: after the shared checks the line is read, and its tag names the filter or raises the last error. -/
theorem lineReconFollowsItsRule : Obligations.LineReconFollowsItsRule := by
  intro p s k line u f n tag hk hline hu hf
  refine followsRule_of_stores <| .lineChecks hk fun hnone => .memRead (hline hnone) <| .ofTag hf fun htag => ?_
  cases p with
  | false => exact .doneStores
  | true =>
    rw [previousData, if_pos rfl, bind_assoc]
    exact .memRead (hu hnone htag rfl) .doneStores

/-- Settles O35: SEL is checked before the shared checks; then the raw lines are read, and SEL names or selects the
filter. -/
theorem lineFilterFollowsItsRule : Obligations.LineFilterFollowsItsRule := by
  intro sel p s k raw rawPrev f n d clear r u errors hk hraw hprev hf
  refine followsRule_of_stores ?_
  rw [← List.append_nil errors]
  refine .raiseIf rfl fun hsel => .lineChecks hk fun hlines => ?_
  have hnone : firstError errors = none := firstError_cons_eq_none.mpr ⟨decide_eq_false hsel, hlines⟩
  refine .memRead (hraw hnone) ?_
  have hchosen := (chosenFilter_iff (Nat.not_lt.mp hsel)).mp (hf (Nat.not_lt.mp hsel))
  cases p with
  | false => subst hchosen; exact .doneStores
  | true =>
    rw [previousData, if_pos rfl, bind_assoc]
    subst hchosen
    exact .memRead (hprev hnone rfl) .doneStores

end Sys2Proof.Claims
end

section
/-! PROOFS. IMG_RECON and IMG_FILTER (spec/43_filter.md R192, R193): the check of the tags, the lines as they stand in IMG,
and what both loops leave there. -/

namespace Sys2Proof.Machine

open Sys2Proof.Claims

/-- The bytes of a range from its byte `k` on. -/
theorem Memory.readBytes_drop {m : Memory} {a k n : Nat} {bs : List Byte} (h : m.readBytes a (k + n) = some bs) :
    m.readBytes (a + k) n = some (bs.drop k) := by
  have hl := Memory.length_of_readBytes h
  rw [← List.take_append_drop k bs] at h
  exact ((Memory.readBytes_append (List.length_take_of_le (by omega))).mp h).2

/-! ### States with the same configuration registers -/

theorem rowOff_of_sameConfig {s t : State} (h : sameConfig s t) (y : Nat) : rowOff t y = rowOff s y := by
  obtain ⟨-, -, -, -, -, hs, -⟩ := h
  rw [rowOff, rowOff, hs]

theorem kindRow_of_sameConfig {s t : State} (h : sameConfig s t) : t.kindRow = s.kindRow := by
  obtain ⟨-, -, -, -, hk, -⟩ := h
  rw [State.kindRow, State.kindRow, hk]

theorem sameConfig_trans {s t u : State} (h : sameConfig s t) (h' : sameConfig t u) : sameConfig s u := by
  obtain ⟨hw, hh, hf, hil, hk, hs, hsc, hl, hv, hcb, hcy⟩ := h
  obtain ⟨hw', hh', hf', hil', hk', hs', hsc', hl', hv', hcb', hcy'⟩ := h'
  exact ⟨hw'.trans hw, hh'.trans hh, hf'.trans hf, hil'.trans hil, hk'.trans hk, hs'.trans hs, hsc'.trans hsc, hl'.trans hl,
    hv'.trans hv, hcb'.trans hcb, hcy'.trans hcy⟩

/-! ### Lines in memory -/

/-- Lines written one after another from the first on: each is read back at its own place. -/
theorem readBytes_imageRow {s : State} {rows : List (List Byte)} (hl : ∀ r ∈ rows, r.length = 1 + s.stride.toNat)
    (m : Memory) {y : Nat} (hy : y < rows.length) :
    (m.writeCells (cellsAt (imgBase + rowOff s 0) rows.flatten)).readBytes (imgBase + rowOff s y) (1 + s.stride.toNat) =
      some rows[y] := by
  rw [rowOff, Nat.zero_mul, Nat.add_zero]
  exact readBytes_rows hl hy

theorem byteAt_tag_cons (f : FilterType) (data : List Byte) :
    byteAt (BitVec.ofNat 8 (filterTag f) :: data) 0 = filterTag f := by
  cases f <;> rfl

/-! ### The tags (R192) -/

theorem checkTags_append (s : State) (xs ys : List Nat) :
    checkTags s (xs ++ ys) = (checkTags s xs >>= fun _ => checkTags s ys) := by
  induction xs with
  | nil => rfl
  | cons x xs ih => simp only [List.cons_append, checkTags, ih, bind_assoc]

/-- The first line with a tag above 4 raises InvalidFilterType. -/
theorem checkTags_eq_raise {s : State} {y n : Nat} {tag : Byte} (hy : y < n)
    (hread : s.mem.read (imgBase + rowOff s y) = some tag) (hbad : tag.toNat > 4)
    (hgood : checkTags s (List.range y) = .ok ()) :
    checkTags s (List.range n) = .error (.raise .invalidFilterType tag.toNat y) := by
  obtain ⟨k, rfl⟩ := Nat.exists_eq_add_of_lt hy
  have hsplit : List.range (y + k + 1) = List.range y ++ y :: List.range' (y + 1) k := by
    rw [Nat.add_assoc, List.range_eq_range', List.range_eq_range', ← List.range'_append_1, Nat.zero_add, List.range'_succ]
  have htag : memRead s (imgBase + rowOff s y) 1 = .ok [tag] := memRead_eq_ok.mpr (readBytes_one.mpr ⟨tag, hread, rfl⟩)
  rw [hsplit, checkTags_append, hgood, ok_bind, checkTags, htag, ok_bind, byteAt_singleton, raiseIf_of hbad, error_bind]

/-! ### What the loops leave in IMG (R192, R193) -/

theorem rawRow_eq_ok {s : State} {y : Nat} {r : List Byte} : rawRow s y = .ok r ↔ encoderRow s y = some r := by
  simp only [rawRow, encoderRow, padOnEncode, check_bind_eq_ok, memRead_eq_ok, Except.ok.injEq, Option.map_eq_some_iff]

/-- Each line that IMG_RECON stores is tag 0 and the reconstruction over the line stored before it. -/
theorem readBytes_of_reconRows {s : State} {n : Nat} {cells : List Host.Cell}
    (h : reconRows s (List.range n) none = .ok cells) {y : Nat} (hy : y < n) :
    ∃ line f, s.mem.readBytes (imgBase + rowOff s y) (1 + s.stride.toNat) = some line ∧ filterTag f = byteAt line 0 ∧
      (s.mem.writeCells cells).readBytes (imgBase + rowOff s y) (1 + s.stride.toNat) =
        some (0 :: reconLine f s.kindRow.spanBytes (line.drop 1)
          (if y = 0 then none
            else (s.mem.writeCells cells).readBytes (imgBase + rowOff s (y - 1) + 1) s.stride.toNat)) := by
  rw [List.range_eq_range'] at h
  obtain ⟨rows, hlen, hl, rfl, hrow⟩ := reconRows_eq_ok h
  have stands : ∀ z (hz : z < rows.length), _ := fun z hz => readBytes_imageRow hl s.mem hz
  have hprev : (if y = 0 then none else rows[y - 1]?.map (List.drop 1)) =
      if y = 0 then none
      else (s.mem.writeCells (cellsAt (imgBase + rowOff s 0) rows.flatten)).readBytes (imgBase + rowOff s (y - 1) + 1)
        s.stride.toNat := by
    split
    · rfl
    · rw [List.getElem?_eq_getElem (show y - 1 < rows.length by omega), Option.map_some,
        Memory.readBytes_drop (stands (y - 1) _)]
  obtain ⟨line, f, hline, hf, heq⟩ := hrow y (hlen ▸ hy)
  rw [Nat.zero_add] at hline
  rw [hprev] at heq
  exact ⟨line, f, hline, hf, (stands y _).trans (congrArg some heq)⟩

/-- Each line that IMG_FILTER stores is its chosen tag and the raw line filtered over the raw line before it. -/
theorem readBytes_of_filterRows {s : State} {sel n : Nat} (hsel : sel ≤ 5) {cells : List Host.Cell}
    (h : filterRows s sel (List.range n) none = .ok cells) {y : Nat} (hy : y < n) :
    ∃ r f, encoderRow s y = some r ∧
      chosenFilter sel s.kindRow.spanBytes r (if y = 0 then none else encoderRow s (y - 1)) f ∧
      (s.mem.writeCells cells).readBytes (imgBase + rowOff s y) (1 + s.stride.toNat) =
        some (BitVec.ofNat 8 (filterTag f) ::
          filterLine f s.kindRow.spanBytes r (if y = 0 then none else encoderRow s (y - 1))) := by
  rw [List.range_eq_range'] at h
  obtain ⟨raws, hraws, hread, rows, hlen, hl, rfl, hrow⟩ := filterRows_eq_ok h
  have enc : ∀ z (hz : z < raws.length), encoderRow s z = some raws[z] := fun z hz => by
    have hraw := hread z hz
    rw [Nat.zero_add] at hraw
    exact rawRow_eq_ok.mp hraw
  have hprev : (if y = 0 then none else raws[y - 1]?) = if y = 0 then none else encoderRow s (y - 1) := by
    split
    · rfl
    · rw [enc (y - 1) (by omega), List.getElem?_eq_getElem]
  have heq := hrow y (hlen ▸ hy) (hraws ▸ hy)
  rw [hprev] at heq
  exact ⟨raws[y], _, enc y _, (chosenFilter_iff hsel).mpr rfl,
    (readBytes_imageRow hl s.mem _).trans (congrArg some heq)⟩

/-! ### The rules on a state that meets the invariant -/

theorem exec_of_raise {i : Instr} {s : State} {e : ErrorCode} {a b : Nat} (h : endOf i s = .error (.raise e a b)) :
    exec i s = .next (raiseError e a b s) :=
  exec_eq_next.mpr (.inr ⟨e, a, b, h, rfl⟩)

namespace BlockInv

variable {s : State} (inv : BlockInv s)
include inv

/-- The tag bytes of an image that is not EMPTY pass the check when none of those before line `n` is above 4. -/
theorem checkTags_eq_ok (himg : s.imgState ≠ .empty) {n : Nat} (hn : n ≤ s.height.toNat)
    (htags : ∀ y < n, ∀ b, s.mem.read (imgBase + rowOff s y) = some b → b.toNat ≤ 4) :
    checkTags s (List.range n) = .ok () := by
  refine Machine.checkTags_eq_ok.mpr fun y hy => ?_
  have hlt := List.mem_range.mp hy
  obtain ⟨bs, hbs⟩ := Option.isSome_iff_exists.mp (inv.readBytes_tag himg (hlt.trans_le hn))
  obtain ⟨b, hb, -⟩ := readBytes_one.mp hbs
  exact ⟨b, hb, htags y hlt b hb⟩

/-- The loop of IMG_RECON over an image whose tags have passed the check. -/
theorem reconRows_isOk (himg : s.imgState ≠ .empty)
    (htags : ∀ y < s.height.toNat, ∀ b, s.mem.read (imgBase + rowOff s y) = some b → b.toNat ≤ 4) :
    ∃ cells, reconRows s (List.range s.height.toNat) none = .ok cells := by
  refine Machine.reconRows_isOk fun y hy => ?_
  have hlt := List.mem_range.mp hy
  obtain ⟨line, hline⟩ := Option.isSome_iff_exists.mp (inv.readBytes_row himg hlt)
  refine ⟨line, hline, ?_⟩
  have hl := Memory.length_of_readBytes hline
  have h0 := Memory.readBytes_getElem hline (j := 0) (by omega)
  rw [Nat.add_zero, List.getElem?_eq_getElem (by omega)] at h0
  have := htags y hlt _ h0
  rwa [byteAt, List.getD_eq_getElem _ _ (by omega)]

/-- The loop of IMG_FILTER over a RAW image. -/
theorem filterRows_isOk (sel : Nat) :
    ∃ cells, s.imgState = .raw → filterRows s sel (List.range s.height.toNat) none = .ok cells := by
  by_cases hraw : s.imgState = .raw
  · obtain ⟨cells, h⟩ := Machine.filterRows_isOk (s := s) (sel := sel) (ys := List.range s.height.toNat) (prev := none)
      fun y hy => Option.isSome_iff_exists.mp (inv.readBytes_rowData (by simp [hraw]) (List.mem_range.mp hy))
    exact ⟨cells, fun _ => h⟩
  · exact ⟨[], fun h => absurd h hraw⟩

end BlockInv

theorem Follows.ofOk {α : Type} {x : Check α} {v : α} {f : α → Check Done} {errors : List ErrorLine} {d : Done}
    (hx : x = .ok v) (hf : Follows (f v) errors d) : Follows (x >>= f) errors d := by
  rwa [hx]

theorem follows_imgFilter {s : State} {sel : Nat} {cells : List Host.Cell}
    (hcells : s.imgState = .raw → filterRows s sel (List.range s.height.toNat) none = .ok cells) :
    Follows (endOf (.imgFilter sel) s)
      [(decide (sel > 5), .invalidFilterType, sel, 0), cfgLine s, imageLine s, filteredLine s]
      ⟨{ s with imgState := .filtered }, cells⟩ :=
  .raiseIf rfl fun _ => .needCfg fun _ => .needRaw fun hraw => .ofOk (hcells hraw) .doneStores

end Sys2Proof.Machine

namespace Sys2Proof.Claims

open Sys2Proof.Machine

/-! ### The statements settled -/

/-- Settles O38: the check of the tags finds the first bad one; with none, each line is read back where the loop put it. -/
theorem imgReconFollowsItsRule : Obligations.ImgReconFollowsItsRule := by
  intro s inv
  refine ⟨fun hcfg => exec_of_raise ?_, fun hcfg himg => exec_of_raise ?_,
    fun himg y tag hy hread hbad hgood => exec_of_raise ?_, fun himg htags => ?_⟩
  · simp only [endOf, endImgRecon, needCfg, raiseIf_of hcfg, error_bind]
  · simp only [endOf, endImgRecon, needCfg_eq_ok (u := ()).mpr hcfg, ok_bind, needImage, raiseIf_of himg, error_bind]
  · have hok := inv.checkTags_eq_ok himg (Nat.le_of_lt hy) hgood
    simp only [endOf, endImgRecon, needCfg_eq_ok (u := ()).mpr (inv.image himg).1, ok_bind,
      needImage_eq_ok (u := ()).mpr himg, checkTags_eq_raise hy hread hbad hok, error_bind]
  · obtain ⟨cells, hcells⟩ := inv.reconRows_isOk himg htags
    have hdone := endImgRecon_eq_ok.mpr
      ⟨(inv.image himg).1, himg, inv.checkTags_eq_ok himg (Nat.le_refl _) htags, cells, hcells, rfl⟩
    exact ⟨_, exec_eq_next.mpr (.inl ⟨_, hdone, rfl⟩), rfl, rfl, fun y hy => readBytes_of_reconRows hcells hy⟩

/-- Settles O39: the checks are the lines; with them passed, each line is read back where the loop put it. -/
theorem imgFilterFollowsItsRule : Obligations.ImgFilterFollowsItsRule := by
  intro sel s inv
  obtain ⟨cells, hcells⟩ := inv.filterRows_isOk sel
  refine ⟨(followsRule_of_follows (follows_imgFilter hcells)).1, fun hsel hraw => ?_⟩
  have hloop := hcells hraw
  have hdone := endImgFilter_eq_ok.mpr ⟨hsel, (inv.image (by simp [hraw])).1, hraw, cells, hloop, rfl⟩
  exact ⟨_, exec_eq_next.mpr (.inl ⟨_, hdone, rfl⟩), rfl, rfl, rfl, fun y hy => readBytes_of_filterRows hsel hloop hy⟩

end Sys2Proof.Claims
end

section
/-! PROOFS. IMG_RECON undoes IMG_FILTER (spec/43_filter.md R194): line by line, each reconstructed line is the raw line,
which is what the next line was filtered over. -/

namespace Sys2Proof.Machine

open Sys2Proof.Claims

/-- The tag of a filtered line names its filter, and reconstruction with it gives the raw line back (R184). -/
theorem reconLine_of_tagged {d : Nat} (hd : 1 ≤ d) {f f' : FilterType} {r line : List Byte} {u : Option (List Byte)}
    (hline : line = BitVec.ofNat 8 (filterTag f) :: filterLine f d r u) (hf : filterTag f' = byteAt line 0) :
    reconLine f' d (line.drop 1) u = r := by
  subst hline
  obtain rfl : f' = f := filterTag_inj (hf.trans (byteAt_tag_cons f _))
  exact reconLine_filterLine hd f' r u

theorem BlockInv.spanBytes_pos {s : State} (inv : BlockInv s) (h : s.cfgValid = true) : 1 ≤ s.kindRow.spanBytes := by
  obtain ⟨k, hk⟩ := inv.configured h
  rw [kindRow_of_kind hk.kind]
  exact Machine.spanBytes_pos k

end Sys2Proof.Machine

namespace Sys2Proof.Claims

open Sys2Proof.Machine

/-- The tag that IMG_FILTER leaves in front of a line passes the check of IMG_RECON. -/
theorem tag_le_of_filtered {m : Memory} {a n : Nat} {f : FilterType} {data : List Byte} {b : Byte}
    (h : m.readBytes a (1 + n) = some (BitVec.ofNat 8 (filterTag f) :: data)) (hb : m.read a = some b) : b.toNat ≤ 4 := by
  have h0 := Memory.readBytes_getElem h (j := 0) (by omega)
  rw [Nat.add_zero, hb] at h0
  obtain rfl := Option.some.inj h0
  cases f <;> decide

/-- Settles O40: by induction on the line, each reconstructed over the raw line before it. -/
theorem filterThenReconRestoresImage : Obligations.FilterThenReconRestoresImage := by
  intro sel s inv hraw hsel
  obtain ⟨-, filters⟩ := imgFilterFollowsItsRule sel s inv
  obtain ⟨t, ht, -, hfil, -, filtered⟩ := filters hsel hraw
  have invt := inv.exec ht
  have hc : sameConfig s t := onlyHdrLoadConfigures (.imgFilter sel) s t (by simp) ht
  have hrow := rowOff_of_sameConfig hc
  have hkind := kindRow_of_sameConfig hc
  obtain ⟨-, hheight, -, -, -, hstride, -, hlen, -⟩ := hc
  obtain ⟨-, -, -, reconstructs⟩ := imgReconFollowsItsRule t invt
  obtain ⟨u, hu, huerr, huraw, restored⟩ := reconstructs (by simp [hfil]) fun y hy b hb => by
    obtain ⟨r, f, -, -, hline⟩ := filtered y (hheight ▸ hy)
    rw [hrow] at hb
    exact tag_le_of_filtered hline hb
  simp only [hheight, hrow, hstride, hkind] at restored
  have hd := inv.spanBytes_pos (inv.image (by simp [hraw])).1
  have line : ∀ y < s.height.toNat,
      ((if y = 0 then none else u.mem.readBytes (imgBase + rowOff s (y - 1) + 1) s.stride.toNat) =
        if y = 0 then none else encoderRow s (y - 1)) →
      ∃ r, encoderRow s y = some r ∧
        u.mem.readBytes (imgBase + rowOff s y) (1 + s.stride.toNat) = some (0 :: r) := fun y hy hprev => by
    obtain ⟨r, f, hr, -, hfline⟩ := filtered y hy
    obtain ⟨line, f', hline, hf', huline⟩ := restored y hy
    rw [hprev, reconLine_of_tagged hd (Option.some.inj (hline.symm.trans hfline)) hf'] at huline
    exact ⟨r, hr, huline⟩
  refine ⟨t, u, ht, hu, huraw, huerr, fun y hy => ?_, fun a ha => ?_⟩
  · induction y with
    | zero => exact line 0 hy rfl
    | succ y ih =>
      obtain ⟨r, hr, hur⟩ := ih (Nat.lt_of_succ_lt hy)
      exact line (y + 1) hy (by simpa [hr] using Memory.readBytes_drop hur)
  · have hto := (imageCommandsStoreOnlyImage s t a inv).2 _ (.inr (.inr (.inr ⟨sel, rfl⟩))) ht ha
    have hback := (imageCommandsStoreOnlyImage t u a invt).2 _ (.inr (.inr (.inl rfl))) hu (by rwa [hlen])
    exact hback.trans hto

end Sys2Proof.Claims
end

section
/-! PROOFS. A frame in the nibble stream (spec/44_stego.md R221 to R225): the stream's bytes are distinct, what is written to it
is read back, and IMG_FILTER followed by IMG_RECON leaves it as it was (spec/43_filter.md R194). -/

namespace Sys2Proof.Machine

open Sys2Proof.Claims

/-! ### The bytes of the nibbles (R221) -/

/-- A number has one quotient and one remainder. -/
theorem mul_add_inj {n a b i j : Nat} (hi : i < n) (hj : j < n) (h : a * n + i = b * n + j) : a = b ∧ i = j := by
  have quot : ∀ {c k : Nat}, k < n → (c * n + k) / n = c := fun {c k} hk => by
    rw [Nat.mul_comm, Nat.mul_add_div (Nat.zero_lt_of_lt hk), Nat.div_eq_of_lt hk, Nat.add_zero]
  have hab : a = b := by rw [← quot (c := a) hi, h, quot hj]
  subst hab
  exact ⟨rfl, Nat.add_left_cancel h⟩

theorem nibAddr_eq_row (s : State) (q : Nat) :
    nibAddr s q = imgBase + rowOff s (q / 3 / s.width.toNat) + 1 + (q / 3 % s.width.toNat * s.kindRow.chans + q % 3) :=
  Nat.add_assoc ..

theorem nibAddr_of_sameConfig {s t : State} (h : sameConfig s t) (q : Nat) : nibAddr t q = nibAddr s q := by
  have hrow := rowOff_of_sameConfig h
  have hkind := kindRow_of_sameConfig h
  obtain ⟨hw, -⟩ := h
  simp only [nibAddr, hrow, hkind, hw]

namespace Configured

variable {s : State} {k : PixelKind} (h : Configured s k) (hk : k = .rgb8 ∨ k = .rgba8)
include h hk

/-- A nibble's byte is one of the data bytes of its line, and no two pixels of a line share one. -/
theorem nibble_offset_lt (q : Nat) :
    q / 3 % s.width.toNat * s.kindRow.chans + q % 3 < s.stride.toNat ∧ q % 3 < s.kindRow.chans := by
  obtain ⟨hstride, hchans⟩ := strideOf_of_stego hk s.width.toNat
  rw [← h.stride, ← kindRow_of_kind h.kind] at hstride
  rw [← kindRow_of_kind h.kind] at hchans
  have hpix : (q / 3 % s.width.toNat + 1) * s.kindRow.chans ≤ s.width.toNat * s.kindRow.chans :=
    Nat.mul_le_mul_right _ (Nat.mod_lt _ h.width)
  rw [Nat.succ_mul] at hpix
  omega

theorem nibAddr_injective : Function.Injective (nibAddr s) := by
  intro q q' heq
  obtain ⟨hoff, hchan⟩ := h.nibble_offset_lt hk q
  obtain ⟨hoff', hchan'⟩ := h.nibble_offset_lt hk q'
  rw [nibAddr_eq_row, nibAddr_eq_row, rowOff, rowOff, Nat.add_assoc, Nat.add_assoc, Nat.add_assoc, Nat.add_assoc] at heq
  obtain ⟨hline, hdata⟩ := mul_add_inj (Nat.add_lt_add_left hoff 1) (Nat.add_lt_add_left hoff' 1) (Nat.add_left_cancel heq)
  obtain ⟨hcol, hc⟩ := mul_add_inj hchan hchan' (Nat.add_left_cancel hdata)
  have hpix : q / 3 = q' / 3 := by
    rw [← Nat.div_add_mod (q / 3) s.width.toNat, hline, hcol, Nat.div_add_mod]
  omega

end Configured

/-! ### Reading and writing the stream (R222, R223) -/

/-- The stream is read piece by piece. -/
theorem stegoRead_append {s : State} {b m n : Nat} {xs ys : List Byte} (hx : xs.length = m)
    (h : stegoRead s b (m + n) = .ok (xs ++ ys)) :
    stegoRead s b m = .ok xs ∧ stegoRead s (b + 8 * m) n = .ok ys := by
  subst hx
  obtain ⟨hl, hr⟩ := readNibbles_eq_ok.mp h
  rw [List.length_append] at hl
  refine ⟨readNibbles_eq_ok.mpr ⟨rfl, fun k hk => ?_⟩, readNibbles_eq_ok.mpr ⟨by omega, fun k hk => ?_⟩⟩
  · have hbyte := hr k (by rw [List.length_append]; omega)
    rwa [List.getElem_append_left hk] at hbyte
  · have hbyte := hr (xs.length + k) (by rw [List.length_append]; omega)
    rw [List.getElem_append_right (Nat.le_add_right ..),
      show b / 4 + 2 * (xs.length + k) = (b + 8 * xs.length) / 4 + 2 * k by omega] at hbyte
    simpa only [Nat.add_sub_cancel_left] using hbyte

theorem stegoChecks_of_sameConfig {s t : State} (hc : sameConfig s t) (hraw : t.imgState = .raw)
    (h : stegoChecks s = .ok ()) : stegoChecks t = .ok () := by
  obtain ⟨hcfg, hkind, -⟩ := stegoChecks_eq_ok.mp h
  obtain ⟨-, -, -, -, hk, -, -, -, hv, -, -⟩ := hc
  exact stegoChecks_eq_ok.mpr ⟨hv.trans hcfg, hk.symm ▸ hkind, hraw⟩

/-- Reading the stream goes by its nibbles' bytes only. -/
theorem stegoRead_congr {s t : State} (hc : sameConfig s t) {b n : Nat} {bs : List Byte}
    (hm : ∀ j < 2 * n, t.mem.read (nibAddr s (b / 4 + j)) = s.mem.read (nibAddr s (b / 4 + j)))
    (h : stegoRead s b n = .ok bs) : stegoRead t b n = .ok bs := by
  obtain ⟨hl, hr⟩ := readNibbles_eq_ok.mp h
  refine readNibbles_eq_ok.mpr ⟨hl, fun k hk => ?_⟩
  obtain ⟨lo, hi, hlo, hhi, hb⟩ := hr k hk
  rw [Nat.add_assoc] at hhi
  refine ⟨lo, hi, ?_, ?_, hb⟩
  · rw [nibAddr_of_sameConfig hc, hm _ (by omega), hlo]
  · rw [Nat.add_assoc, nibAddr_of_sameConfig hc, hm _ (by omega), hhi]

/-- The bytes written to the stream are read back from it. -/
theorem stegoRead_of_stegoWrite {s t : State} (hinj : Function.Injective (nibAddr s)) {b : Nat} {bs : List Byte}
    {cells : List Host.Cell} (h : stegoWrite s b bs = .ok cells) (hc : sameConfig s t) (hm : t.mem = s.mem.writeCells cells) :
    stegoRead t b bs.length = .ok bs := by
  obtain ⟨-, haddr, -, hcells⟩ := writeNibbles_eq_ok h
  have hnodup : (cells.map Prod.fst).Nodup := haddr ▸ (List.nodup_range' ..).map hinj
  refine readNibbles_eq_ok.mpr ⟨rfl, fun k hk => ?_⟩
  obtain ⟨lo, hi, hlo, hlov, hhi, hhiv⟩ := hcells k hk
  refine ⟨lo, hi, ?_, ?_, ?_⟩
  · rw [nibAddr_of_sameConfig hc, hm]
    exact read_writeCells_of_mem hnodup hlo
  · rw [nibAddr_of_sameConfig hc, hm]
    exact read_writeCells_of_mem hnodup hhi
  · rw [hlov, hhiv, Nat.mod_add_div, BitVec.ofNat_toNat, BitVec.setWidth_eq]

/-! ### The frame (spec/30_encoding.md R98, R225) -/

theorem le32_toLe32 {v : Nat} (h : v < 2 ^ 32) : le32 (toLe32 v) = v := by
  simp only [le32, toLe32, byteAt, byteOf, List.getD_cons_zero, List.getD_cons_succ, BitVec.toNat_ofNat]
  omega

/-- A frame that stands at bit offset 0 is found, and its body read (R225). -/
theorem detect_of_frame {s : State} {body : List Byte} (hcap : body.length + 10 ≤ s.capBytes.toNat)
    (h : stegoRead s 0 (body.length + 10) = .ok (stegoFrame body)) :
    detect s = .ok (some body.length) ∧ stegoRead s 56 body.length = .ok body := by
  have hword := s.capBytes.isLt
  have hlen : le32 (toLe32 body.length) = body.length := le32_toLe32 (by omega)
  rw [show body.length + 10 = 3 + 4 + body.length + 3 by omega, stegoFrame] at h
  obtain ⟨h, htrailer⟩ := stegoRead_append (by simp [stegoMagic, toLe32]; omega) h
  obtain ⟨h, hbody⟩ := stegoRead_append (by simp [stegoMagic, toLe32]) h
  obtain ⟨hmagic, hlenb⟩ := stegoRead_append (m := 3) rfl h
  refine ⟨detect_eq_ok.mpr (.inr ⟨by omega, _, hmagic, .inr ⟨rfl, _, hlenb, .inr ⟨by omega, _, ?_, .inr ⟨rfl, ?_⟩⟩⟩⟩),
    hbody⟩
  · rw [hlen]
    convert htrailer using 2
    omega
  · rw [hlen]

/-- STG_FRAME, completed, leaves the frame of the body at bit offset 0 (R232). -/
theorem frame_of_exec_stgFrame {s t : State} (inv : BlockInv s) (h : exec .stgFrame s = .next t) (herr : t.err = false)
    {body : List Byte} (hbody : s.mem.readBytes (bufBase + s.arg 0) (s.arg 1) = some body) :
    stegoChecks t = .ok () ∧ body.length + 10 ≤ t.capBytes.toNat ∧
      stegoRead t 0 (body.length + 10) = .ok (stegoFrame body) := by
  rcases exec_eq_next.mp h with ⟨d, hd, rfl⟩ | ⟨e, x, y, -, rfl⟩
  · obtain ⟨hs, hcap, -, body', hbody', cells, hcells, rfl⟩ := endStgFrame_eq_ok.mp hd
    obtain rfl : body' = body := Option.some.inj (hbody'.symm.trans hbody)
    obtain ⟨hcfg, hkind, hraw⟩ := stegoChecks_eq_ok.mp hs
    obtain ⟨k, hk⟩ := inv.configured hcfg
    have hinj := hk.nibAddr_injective (by simpa [hk.kind] using hkind)
    refine ⟨stegoChecks_eq_ok.mpr ⟨hcfg, hkind, hraw⟩, ?_, ?_⟩
    · rw [Memory.length_of_readBytes hbody]
      exact hcap
    · rw [← length_stegoFrame]
      exact stegoRead_of_stegoWrite hinj hcells (sameConfig_refl s) rfl
  · cases herr

/-- STG_DETECT finds a frame that stands there (R233). -/
theorem exec_stgDetect_of_frame {s : State} {body : List Byte} (hs : stegoChecks s = .ok ())
    (hcap : body.length + 10 ≤ s.capBytes.toNat) (h : stegoRead s 0 (body.length + 10) = .ok (stegoFrame body)) :
    exec .stgDetect s = .next (completeCommand ((s.setRes 0 1).setRes 1 body.length)) :=
  exec_eq_next.mpr (.inl ⟨_, endStgDetect_eq_ok.mpr ⟨hs, _, (detect_of_frame hcap h).1, rfl⟩, rfl⟩)

/-- STG_EXTRACT copies the body of a frame that stands there to BUF (R234). -/
theorem exec_stgExtract_of_frame {s : State} {body : List Byte} (hs : stegoChecks s = .ok ())
    (hcap : body.length + 10 ≤ s.capBytes.toNat) (h : stegoRead s 0 (body.length + 10) = .ok (stegoFrame body))
    (hb : s.arg 0 + body.length ≤ s.params.bufBytes) :
    exec .stgExtract s = .next (completeCommand (stored (s.setRes 0 body.length) (bufBase + s.arg 0) body)) := by
  obtain ⟨hdetect, hbody⟩ := detect_of_frame hcap h
  exact exec_eq_next.mpr (.inl ⟨_, endStgExtract_eq_ok.mpr ⟨hs, _, hdetect, hb, body, hbody, rfl⟩, rfl⟩)

/-- A frame that stands at bit offset 0 is detected with its length, and its body extracted to any place in BUF. -/
theorem exists_detect_extract_of_frame {s : State} {body : List Byte} {dst : Nat} (hp : s.params.legal)
    (hs : stegoChecks s = .ok ()) (hcap : body.length + 10 ≤ s.capBytes.toNat)
    (hframe : stegoRead s 0 (body.length + 10) = .ok (stegoFrame body)) (hdst : dst + body.length ≤ s.params.bufBytes) :
    ∃ t u, exec .stgDetect s = .next t ∧ t.err = false ∧ t.res[0] = 1 ∧ t.res[1] = BitVec.ofNat 32 body.length ∧
      exec .stgExtract (atRange t dst 0) = .next u ∧ u.err = false ∧ u.res[0] = BitVec.ofNat 32 body.length ∧
      u.mem.readBytes (bufBase + dst) body.length = some body := by
  let t := completeCommand ((s.setRes 0 1).setRes 1 body.length)
  have hsame : sameConfig s (atRange t dst 0) := sameConfig_refl s
  obtain ⟨-, -, hraw⟩ := stegoChecks_eq_ok.mp hs
  obtain ⟨harg, -⟩ := args_atRange (s := t) (off := dst) (n := 0) hp ((Nat.le_add_right ..).trans hdst)
  have hextract := exec_stgExtract_of_frame (stegoChecks_of_sameConfig hsame hraw hs) hcap
    (stegoRead_congr hsame (fun _ _ => rfl) hframe) (harg.symm ▸ hdst)
  rw [harg] at hextract
  refine ⟨t, _, exec_stgDetect_of_frame hs hcap hframe, rfl, ?_, ?_, hextract, rfl, ?_, ?_⟩
  · simp [t]
  · simp [t]
  · simp [stored]
  · exact Memory.readBytes_writeCells_cellsAt ..

/-! ### The stream and the filter pipeline (spec/43_filter.md R186, R194) -/

/-- A kind of whole bytes has no padding to clear (spec/42_pixel.md R147). -/
theorem padClear_of_wide {r : KindRow} (h : 8 ≤ r.depth) (w : Nat) (line : List Byte) : padClear r w line = line := by
  rcases List.eq_nil_or_concat' line with rfl | ⟨front, d, rfl⟩
  · rfl
  · have hmask : d &&& padMask r w = d := by
      rw [padMask, if_pos (.inr h)]
      exact BitVec.and_allOnes
    rw [padClear_concat, hmask]

theorem encoderRow_of_wide {s : State} (h : 8 ≤ s.kindRow.depth) (y : Nat) :
    encoderRow s y = s.mem.readBytes (imgBase + rowOff s y + 1) s.stride.toNat := by
  simp [encoderRow, padClear_of_wide h]

end Sys2Proof.Machine

namespace Sys2Proof.Claims

open Sys2Proof.Machine

/-- On a kind that carries a stream, IMG_FILTER and IMG_RECON leave every byte of the stream as it was. -/
theorem exists_filter_recon_keeping_stream {s : State} (inv : BlockInv s) (hs : stegoChecks s = .ok ()) {sel : Nat}
    (hsel : sel ≤ 5) :
    ∃ t u, exec (.imgFilter sel) s = .next t ∧ exec .imgRecon t = .next u ∧ sameConfig s u ∧ u.params = s.params ∧
      u.imgState = .raw ∧ ∀ q, 4 * q < s.capBits.toNat → u.mem.read (nibAddr s q) = s.mem.read (nibAddr s q) := by
  obtain ⟨hcfg, hkind, hraw⟩ := stegoChecks_eq_ok.mp hs
  obtain ⟨k, hk⟩ := inv.configured hcfg
  have hstego : k = .rgb8 ∨ k = .rgba8 := by simpa [hk.kind] using hkind
  have hwide : 8 ≤ s.kindRow.depth := by
    rw [kindRow_of_kind hk.kind]
    rcases hstego with rfl | rfl <;> decide
  obtain ⟨t, u, ht, hu, huraw, -, hlines, -⟩ := filterThenReconRestoresImage sel s inv hraw hsel
  obtain ⟨-, -, hpt, -⟩ := commandsKeepOperands _ _ _ ht
  obtain ⟨-, -, hpu, -⟩ := commandsKeepOperands _ _ _ hu
  have hct : sameConfig s t := onlyHdrLoadConfigures (.imgFilter sel) s t (by simp) ht
  have hcu : sameConfig t u := onlyHdrLoadConfigures .imgRecon t u (by simp) hu
  refine ⟨t, u, ht, hu, sameConfig_trans hct hcu, hpu.trans hpt, huraw, fun q hq => ?_⟩
  obtain ⟨hoff, -⟩ := hk.nibble_offset_lt hstego q
  have hcap := hk.capBits_eq hstego
  have hy : q / 3 / s.width.toNat < s.height.toNat := by
    rw [Nat.div_div_eq_div_mul]
    exact Nat.div_lt_of_lt_mul (by omega)
  obtain ⟨r, hr, hline⟩ := hlines _ hy
  rw [encoderRow_of_wide hwide] at hr
  rw [nibAddr_eq_row, Memory.readBytes_getElem (Memory.readBytes_drop hline) hoff, Memory.readBytes_getElem hr hoff]
  rfl

/-- Settles O47: the frame is read back after STG_FRAME, and the bytes it stands in come through the pipeline unchanged. -/
theorem framedBodySurvivesFilterPipeline : Obligations.FramedBodySurvivesFilterPipeline := by
  intro s t sel dst body inv hsel h herr hbody hdst
  have hlen := Memory.length_of_readBytes hbody
  have hword : BitVec.ofNat 32 body.length = s.args[1] := by
    rw [hlen]
    exact BitVec.ofNat_toNat ..
  obtain ⟨hs, hcap, hframe⟩ := frame_of_exec_stgFrame inv h herr hbody
  have invt := inv.exec h
  have hcapBits := invt.capBytes_eq
  obtain ⟨-, -, hpt, -⟩ := commandsKeepOperands _ _ _ h
  obtain ⟨u, v, hu, hv, hc, hp, hraw, hkeep⟩ := exists_filter_recon_keeping_stream invt hs hsel
  replace hs := stegoChecks_of_sameConfig hc hraw hs
  replace hframe := stegoRead_congr hc (fun j hj => hkeep _ (by omega)) hframe
  have hcapv : v.capBytes = t.capBytes := by
    obtain ⟨-, -, -, -, -, -, -, -, -, -, hcy⟩ := hc
    exact hcy
  rw [← hcapv] at hcap
  rw [← hpt, ← hp, ← hlen] at hdst
  obtain ⟨w, x, hw, hwerr, hw0, hw1, hx, hxerr, hx0, hxbody⟩ :=
    exists_detect_extract_of_frame (hp.symm ▸ invt.params) hs hcap hframe hdst
  exact ⟨u, v, w, x, hu, hv, hw, hwerr, hw0, hw1.trans hword, hx, hxerr, hx0.trans hword, hlen ▸ hxbody⟩

end Sys2Proof.Claims
end

section
/-! PROOFS. Where the nibbles of the stream stand, and what writing to it changes (spec/44_stego.md R221, R222). -/

namespace Sys2Proof.Machine

open Sys2Proof.Claims

/-- A state with a kind is configured for it. -/
theorem BlockInv.configured_of_kind {s : State} (inv : BlockInv s) {k : PixelKind} (hk : s.kind = some k) :
    Configured s k := by
  rcases inv.config with hu | ⟨k', hc⟩
  · exact nomatch hu.kind.symm.trans hk
  · obtain rfl : k' = k := Option.some.inj (hc.kind.symm.trans hk)
    exact hc

/-- A nibble's byte is a data byte of its line, so it is no line's tag byte. -/
theorem Configured.nibAddr_ne_tag {s : State} {k : PixelKind} (h : Configured s k) (hk : k = .rgb8 ∨ k = .rgba8) (q y : Nat) :
    nibAddr s q ≠ imgBase + rowOff s y := by
  intro heq
  obtain ⟨hoff, -⟩ := h.nibble_offset_lt hk q
  rw [nibAddr_eq_row, Nat.add_assoc, Nat.add_assoc] at heq
  obtain ⟨-, htag⟩ := mul_add_inj (b := y) (j := 0) (Nat.add_lt_add_left hoff 1) (by omega) (Nat.add_left_cancel heq)
  omega

/-- What STG_WRITE and STG_FRAME store, completed, is one write to the stream. -/
theorem writeNibbles_of_stegoWriter {i : Instr} {s : State} {d : Done} (hi : i = .stgWrite ∨ i = .stgFrame)
    (h : endOf i s = .ok d) : ∃ q bs, writeNibbles s q bs = .ok d.stores := by
  rcases hi with rfl | rfl
  · obtain ⟨-, -, -, bs, -, cells, hcells, rfl⟩ := endStgWrite_eq_ok.mp h
    exact ⟨_, bs, hcells⟩
  · obtain ⟨-, -, -, body, -, cells, hcells, rfl⟩ := endStgFrame_eq_ok.mp h
    exact ⟨_, _, hcells⟩

/-- Writing to the stream keeps the high nibble of every byte (R222). -/
theorem high_of_writeNibbles {s : State} {q : Nat} {bs : List Byte} {cells : List Host.Cell}
    (h : writeNibbles s q bs = .ok cells) {a : Nat} {b c : Byte} (hb : s.mem.read a = some b)
    (hc : (s.mem.writeCells cells).read a = some c) : b.extractLsb' 4 4 = c.extractLsb' 4 4 := by
  obtain ⟨-, -, hreplaced, -⟩ := writeNibbles_eq_ok h
  rcases read_writeCells_cases s.mem cells a with hkept | ⟨cell, hmem, rfl, hwritten⟩
  · obtain rfl : b = c := Option.some.inj (hb.symm.trans (hkept.symm.trans hc))
    rfl
  · obtain ⟨b', v, hb', hv, hval⟩ := hreplaced cell hmem
    obtain rfl : b = b' := Option.some.inj (hb.symm.trans hb')
    obtain rfl : cell.2 = c := Option.some.inj (hwritten.symm.trans hc)
    rw [hval, high_of_replaced_nibble b hv]

end Sys2Proof.Machine

namespace Sys2Proof.Claims

open Sys2Proof.Machine

/-! ### The statements settled -/

/-- Settles O18: the destination of both commands is the nibbles they address, and each byte stored there is the one that
stood there with its low nibble replaced. -/
theorem stegoWritesOnlyAddressedNibbles : Obligations.StegoWritesOnlyAddressedNibbles := by
  intro s t a
  have keeps : ∀ {q n : Nat}, (∀ p, q ≤ p → p < q + n → a ≠ nibAddr s p) → amongNibbles s q n a = false :=
    fun h => Bool.eq_false_iff.mpr fun hin => by
      obtain ⟨p, hq, hn, rfl⟩ := amongNibbles_iff.mp hin
      exact h p hq hn rfl
  refine ⟨fun h ha => read_of_not_mayStore h (keeps ha),
    fun h ha => read_of_not_mayStore h (keeps fun p _ hp => ha p (by omega)), fun i b c hi h hb hc => ?_⟩
  rcases exec_eq_next.mp h with ⟨d, hd, rfl⟩ | ⟨e, x, y, -, rfl⟩
  · obtain ⟨q, bs, hcells⟩ := writeNibbles_of_stegoWriter hi hd
    rw [completeCommand_mem, commitStores_mem, (RegisterEffect.of_done hd).mem] at hc
    exact high_of_writeNibbles hcells hb hc
  · obtain rfl : b = c := Option.some.inj (hb.symm.trans hc)
    rfl

/-- Settles O41: the channels of the kind are the factor of the statement; the rest is the place of a nibble in its line. -/
theorem nibblesAreDistinctChannelBytes : Obligations.NibblesAreDistinctChannelBytes := by
  intro s inv hkind q hq
  obtain ⟨k, hk, hstego⟩ : ∃ k, s.kind = some k ∧ (k = .rgb8 ∨ k = .rgba8) :=
    hkind.elim (fun h => ⟨_, h, .inl rfl⟩) fun h => ⟨_, h, .inr rfl⟩
  have hc := inv.configured_of_kind hk
  have hchans : s.kindRow.chans = if s.kind = some .rgb8 then 3 else 4 := by
    rw [kindRow_of_kind hk, hk]
    rcases hstego with rfl | rfl <;> rfl
  obtain ⟨j, hj, haddr⟩ := hc.nibAddr_mem hstego hq
  refine ⟨?_, fun q' hq' h => Nat.ne_of_lt hq' (hc.nibAddr_injective hstego h), hc.nibAddr_ne_tag hstego q, ?_, ?_⟩
  · rw [← hchans]
    rfl
  · rw [haddr]
    exact Nat.le_add_right ..
  · rw [haddr]
    exact Nat.add_lt_add_left hj _

end Sys2Proof.Claims
end

section
/-! PROOFS. The stego unit's commands (spec/44_stego.md R223 to R226, R230 to R234): the bytes of the stream as the
statements name them, the shared checks as lines of a list of errors, and each command against its list. -/

namespace Sys2Proof.Machine

open Sys2Proof.Claims

/-! ### The bytes of the stream (R223) -/

/-- The `n` bytes of the stream from bit offset `b` on. -/
def streamBytes (s : State) (b n : Nat) : List Byte := (List.range n).map fun k => streamByte s (b + 8 * k)

theorem nibbleOf_of_read {s : State} {q : Nat} {b : Byte} (h : s.mem.read (nibAddr s q) = some b) :
    nibbleOf s q = b.toNat % 16 := by
  simp [nibbleOf, h]

/-- What `stego_read` gives is the bytes of the stream. -/
theorem eq_streamBytes_of_stegoRead {s : State} {b n : Nat} {bs : List Byte} (h : stegoRead s b n = .ok bs) :
    bs = streamBytes s b n := by
  obtain ⟨hlen, hbytes⟩ := readNibbles_eq_ok.mp h
  refine List.ext_getElem (by simp [streamBytes, hlen]) fun k hk _ => ?_
  obtain ⟨lo, hi, hlo, hhi, hbyte⟩ := hbytes k hk
  have hq : (b + 8 * k) / 4 = b / 4 + 2 * k := by omega
  simp only [streamBytes, List.getElem_map, List.getElem_range, streamByte, hq, nibbleOf_of_read hlo, nibbleOf_of_read hhi,
    hbyte]

theorem streamByte_of_stegoRead {s : State} {b n : Nat} {bs : List Byte} (h : stegoRead s b n = .ok bs) {k : Nat}
    (hk : k < bs.length) : streamByte s (b + 8 * k) = bs[k] := by
  obtain rfl := eq_streamBytes_of_stegoRead h
  simp [streamBytes]

namespace BlockInv

variable {s : State} (inv : BlockInv s) (hs : stegoChecks s = .ok ())
include inv hs

theorem stegoRead_eq_streamBytes {b n : Nat} (hb : b % 4 = 0) (hn : b + 8 * n ≤ s.capBits.toNat) :
    stegoRead s b n = .ok (streamBytes s b n) := by
  obtain ⟨-, hkind, hraw⟩ := stegoChecks_eq_ok.mp hs
  obtain ⟨bs, hbs⟩ := inv.stegoRead_isOk (by simp [hraw]) hkind hb hn
  rwa [← eq_streamBytes_of_stegoRead hbs]

/-- The stream can be written up to its capacity. -/
theorem stegoWrite_isOk {b : Nat} {bs : List Byte} (hb : b % 4 = 0) (hn : b + 8 * bs.length ≤ s.capBits.toNat) :
    ∃ cells, stegoWrite s b bs = .ok cells := by
  obtain ⟨-, hkind, hraw⟩ := stegoChecks_eq_ok.mp hs
  refine writeNibbles_isOk fun j hj => ?_
  obtain ⟨x, hx, haddr⟩ := inv.nibAddr_mem (by simp [hraw]) hkind (q := b / 4 + j) (by omega)
  rw [haddr]
  exact (inv.image (by simp [hraw])).2 x hx

/-- What is written to the stream stands there afterwards. -/
theorem streamByte_of_stegoWrite {t : State} {b : Nat} {bs : List Byte} {cells : List Host.Cell}
    (h : stegoWrite s b bs = .ok cells) (hc : sameConfig s t) (hm : t.mem = s.mem.writeCells cells) {k : Nat}
    (hk : k < bs.length) : streamByte t (b + 8 * k) = bs[k] := by
  obtain ⟨hcfg, hkind, -⟩ := stegoChecks_eq_ok.mp hs
  obtain ⟨kind, hconf⟩ := inv.configured hcfg
  have hinj := hconf.nibAddr_injective (by simpa [hconf.kind] using hkind)
  exact streamByte_of_stegoRead (stegoRead_of_stegoWrite hinj h hc hm) hk

end BlockInv

/-! ### The frame (R225) -/

theorem framePresent_iff {s : State} {len : Nat} :
    framePresent s len ↔ 10 + len ≤ s.capBytes.toNat ∧ streamBytes s 0 3 = stegoMagic ∧ le32 (streamBytes s 24 4) = len ∧
      streamBytes s (56 + 8 * len) 3 = stegoTrailer := by
  have trailer : streamBytes s (56 + 8 * len) 3 =
      [streamByte s (56 + 8 * len), streamByte s (64 + 8 * len), streamByte s (72 + 8 * len)] := by
    rw [show 64 + 8 * len = 56 + 8 * len + 8 by omega, show 72 + 8 * len = 56 + 8 * len + 16 by omega]
    rfl
  rw [trailer]
  rfl

theorem framePresent_of_detect {s : State} {len : Nat} (h : detect s = .ok (some len)) : framePresent s len := by
  rcases detect_eq_ok.mp h with ⟨-, ⟨⟩⟩ | ⟨-, magic, hmagic, ⟨-, ⟨⟩⟩ | ⟨hm, lb, hlb, ⟨-, ⟨⟩⟩ | ⟨hcap, tr, htr, ⟨-, ⟨⟩⟩ | ⟨ht, ⟨⟩⟩⟩⟩⟩
  obtain rfl := eq_streamBytes_of_stegoRead hmagic
  obtain rfl := eq_streamBytes_of_stegoRead hlb
  obtain rfl := eq_streamBytes_of_stegoRead htr
  exact framePresent_iff.mpr ⟨hcap, hm, rfl, ht⟩

namespace BlockInv

variable {s : State} (inv : BlockInv s) (hs : stegoChecks s = .ok ())
include inv hs

theorem detect_of_framePresent {len : Nat} (h : framePresent s len) : detect s = .ok (some len) := by
  have hbits := inv.capBytes_eq
  obtain ⟨hcap, hmagic, rfl, htrailer⟩ := framePresent_iff.mp h
  exact detect_eq_ok.mpr (.inr ⟨by omega, _, inv.stegoRead_eq_streamBytes hs rfl (by omega), .inr ⟨hmagic, _,
    inv.stegoRead_eq_streamBytes hs rfl (by omega), .inr ⟨hcap, _,
      inv.stegoRead_eq_streamBytes hs (by omega) (by omega), .inr ⟨htrailer, rfl⟩⟩⟩⟩)

/-- Every read of `detect` is inside the stream, so it always answers. -/
theorem detect_isOk : ∃ found, detect s = .ok found := by
  have hbits := inv.capBytes_eq
  unfold detect
  split
  case isTrue => exact ⟨_, rfl⟩
  case isFalse h10 =>
    rw [inv.stegoRead_eq_streamBytes hs (b := 0) rfl (by omega), ok_bind]
    split
    case isTrue => exact ⟨_, rfl⟩
    case isFalse =>
      rw [inv.stegoRead_eq_streamBytes hs (b := 24) rfl (by omega), ok_bind]
      dsimp only
      split
      case isTrue => exact ⟨_, rfl⟩
      case isFalse hlen =>
        rw [inv.stegoRead_eq_streamBytes hs (b := 56 + 8 * _) (by omega) (by omega), ok_bind]
        split <;> exact ⟨_, rfl⟩

theorem detect_of_no_frame (h : ∀ len, ¬framePresent s len) : detect s = .ok none := by
  obtain ⟨found, hfound⟩ := inv.detect_isOk hs
  cases found with
  | none => exact hfound
  | some len => exact absurd (framePresent_of_detect hfound) (h len)

end BlockInv

/-! ### The shared checks as lines (R224, R226) -/

section

variable {s : State} {errors : List ErrorLine}

theorem firstError_stegoLines_append_eq_none :
    firstError (stegoLines s ++ errors) = none ↔ stegoChecks s = .ok () ∧ firstError errors = none := by
  simp only [stegoLines, List.cons_append, List.nil_append, firstError_cons_eq_none, stegoChecks_eq_ok]
  cases himg : s.imgState <;> simp [cfgLine, imageLine, filteredLine, himg, or_iff_not_imp_left, and_assoc]

theorem firstError_offsetLines_append_eq_none {b n : Nat} :
    firstError (offsetLines s b n ++ errors) = none ↔ offsetChecks s b n = .ok () ∧ firstError errors = none := by
  simp [offsetLines, firstError_cons_eq_none, offsetChecks_eq_ok, and_assoc]

theorem firstError_bufLine_cons_eq_none {off n : Nat} :
    firstError (bufLine s off n :: errors) = none ↔ off + n ≤ s.params.bufBytes ∧ firstError errors = none := by
  simp [firstError_cons_eq_none, bufLine]

end

namespace Follows

variable {s : State} {errors : List ErrorLine} {d : Done}

theorem stegoChecks {f : Unit → Check Done} (hf : Machine.stegoChecks s = .ok () → Follows (f ()) errors d) :
    Follows (stegoChecks s >>= f) (stegoLines s ++ errors) d := by
  simp only [Machine.stegoChecks, bind_assoc]
  refine needCfg fun hcfg => raiseIf ?_ fun hkind => needRaw fun hraw => hf (stegoChecks_eq_ok.mpr ⟨hcfg, ?_, hraw⟩)
  · simp [stegoKind]
  · simpa using hkind

theorem offsetChecks {b n : Nat} {f : Unit → Check Done}
    (hf : Machine.offsetChecks s b n = .ok () → Follows (f ()) errors d) :
    Follows (offsetChecks s b n >>= f) (offsetLines s b n ++ errors) d := by
  simp only [Machine.offsetChecks, bind_assoc]
  exact raiseIf rfl fun hb => raiseIf rfl fun hn => hf (offsetChecks_eq_ok.mpr ⟨not_not.mp hb, Nat.not_lt.mp hn⟩)

end Follows

/-! ### The commands that write to the stream (R231, R232) -/

/-- The errors of STG_WRITE, in order, which are those of STG_READ. -/
def stgWriteLines (s : State) : List ErrorLine :=
  stegoLines s ++ (offsetLines s (s.arg 0) (s.arg 1) ++ [bufLine s (s.arg 2) (s.arg 1)])

theorem firstError_stgWriteLines_eq_none {s : State} :
    firstError (stgWriteLines s) = none ↔
      stegoChecks s = .ok () ∧ offsetChecks s (s.arg 0) (s.arg 1) = .ok () ∧ s.arg 2 + s.arg 1 ≤ s.params.bufBytes := by
  rw [stgWriteLines, firstError_stegoLines_append_eq_none, firstError_offsetLines_append_eq_none,
    firstError_bufLine_cons_eq_none]
  simp [firstError]

theorem follows_stgWrite {s : State} {bs : List Byte} {cells : List Host.Cell}
    (h : firstError (stgWriteLines s) = none →
      s.mem.readBytes (bufBase + s.arg 2) (s.arg 1) = some bs ∧ stegoWrite s (s.arg 0) bs = .ok cells) :
    Follows (endOf .stgWrite s) (stgWriteLines s) ⟨s, cells⟩ := by
  refine .stegoChecks fun hs => .offsetChecks fun ho => .bufCheck fun hb => ?_
  obtain ⟨hread, hcells⟩ := h (firstError_stgWriteLines_eq_none.mpr ⟨hs, ho, hb⟩)
  exact .memRead hread (.ofOk hcells .doneStores)

/-- The errors of STG_FRAME, in order. -/
def stgFrameLines (s : State) : List ErrorLine :=
  stegoLines s ++ [(decide (s.arg 1 + 10 > s.capBytes.toNat), .imageTooSmall, s.capBytes.toNat, s.arg 1 + 10),
    bufLine s (s.arg 0) (s.arg 1)]

theorem firstError_stgFrameLines_eq_none {s : State} :
    firstError (stgFrameLines s) = none ↔
      stegoChecks s = .ok () ∧ s.arg 1 + 10 ≤ s.capBytes.toNat ∧ s.arg 0 + s.arg 1 ≤ s.params.bufBytes := by
  rw [stgFrameLines, firstError_stegoLines_append_eq_none, firstError_cons_eq_none, firstError_bufLine_cons_eq_none]
  simp [firstError]

theorem follows_stgFrame {s : State} {body : List Byte} {cells : List Host.Cell}
    (h : firstError (stgFrameLines s) = none →
      s.mem.readBytes (bufBase + s.arg 0) (s.arg 1) = some body ∧ stegoWrite s 0 (stegoFrame body) = .ok cells) :
    Follows (endOf .stgFrame s) (stgFrameLines s) ⟨s.setRes 0 (s.arg 1 + 10), cells⟩ := by
  refine .stegoChecks fun hs => .raiseIf rfl fun hcap => .bufCheck fun hb => ?_
  obtain ⟨hread, hcells⟩ := h (firstError_stgFrameLines_eq_none.mpr ⟨hs, Nat.not_lt.mp hcap, hb⟩)
  exact .memRead hread (.ofOk hcells .doneStores)

end Sys2Proof.Machine

namespace Sys2Proof.Claims

open Sys2Proof.Machine

/-! ### The statements settled -/

/-- Settles O42: the checks are the lines, and with them passed the stream can be read. -/
theorem stgReadFollowsItsRule : Obligations.StgReadFollowsItsRule := by
  intro s inv
  rw [List.append_assoc]
  refine followsRule_of_stores <| .stegoChecks fun hs => .offsetChecks fun ho => .bufCheck fun _ => ?_
  obtain ⟨hb, hn⟩ := offsetChecks_eq_ok.mp ho
  exact .ofOk (inv.stegoRead_eq_streamBytes hs hb hn) .doneStores

/-- Settles O43: a check that fails raises its line; with all passed, what is written to the stream is read back. -/
theorem stgWriteFollowsItsRule : Obligations.StgWriteFollowsItsRule := by
  intro s bs inv errors
  have herrors : errors = stgWriteLines s := List.append_assoc ..
  rw [herrors]
  refine ⟨fun e a b he => ?_, fun hnone hread => ?_⟩
  · -- An error is raised before anything is read or stored, so any bytes do here.
    exact (followsRule_of_follows (follows_stgWrite (bs := []) (cells := []) fun h => nomatch h.symm.trans he)).1 e a b he
  · obtain ⟨hs, ho, -⟩ := firstError_stgWriteLines_eq_none.mp hnone
    obtain ⟨-, -, hraw⟩ := stegoChecks_eq_ok.mp hs
    obtain ⟨hb, hn⟩ := offsetChecks_eq_ok.mp ho
    obtain ⟨cells, hcells⟩ := inv.stegoWrite_isOk hs (bs := bs) hb (by rwa [Memory.length_of_readBytes hread])
    have hexec := (followsRule_of_follows (follows_stgWrite fun _ => ⟨hread, hcells⟩)).2 hnone
    have hc := onlyHdrLoadConfigures .stgWrite s _ (by simp) hexec
    exact ⟨_, hexec, rfl, hraw, rfl, fun _ hk => inv.streamByte_of_stegoWrite hs hcells hc rfl hk⟩

/-- Settles O44: as STG_WRITE, with the frame written at bit offset 0. -/
theorem stgFrameFollowsItsRule : Obligations.StgFrameFollowsItsRule := by
  intro s body inv errors
  refine ⟨fun e a b he => ?_, fun hnone hread => ?_⟩
  · exact (followsRule_of_follows (follows_stgFrame (body := []) (cells := []) fun h => nomatch h.symm.trans he)).1 e a b he
  · intro frame
    obtain ⟨hs, hcap, -⟩ := firstError_stgFrameLines_eq_none.mp hnone
    obtain ⟨-, -, hraw⟩ := stegoChecks_eq_ok.mp hs
    have hlen := Memory.length_of_readBytes hread
    have hframe : frame = stegoFrame body := by
      rw [stegoFrame, hlen]
      rfl
    have hframeLen : frame.length = s.arg 1 + 10 := by rw [hframe, length_stegoFrame, hlen]
    have hbits := inv.capBytes_eq
    have hword := s.capBytes.isLt
    obtain ⟨cells, hcells⟩ := inv.stegoWrite_isOk hs (b := 0) (bs := frame) rfl (by omega)
    have hexec := (followsRule_of_follows (follows_stgFrame fun _ => ⟨hread, hframe ▸ hcells⟩)).2 hnone
    have hc := onlyHdrLoadConfigures .stgFrame s _ (by simp) hexec
    refine ⟨_, hexec, rfl, hraw, ?_, hframeLen, fun k hk => ?_⟩
    · simpa using (by omega : s.arg 1 + 10 < 2 ^ 32)
    · rw [← Nat.zero_add (8 * k)]
      exact inv.streamByte_of_stegoWrite hs hcells hc rfl hk

/-- Settles O45: `detect` finds the frame that the stream's bytes are, and no other. -/
theorem stgDetectFollowsItsRule : Obligations.StgDetectFollowsItsRule := by
  intro s inv
  rw [← List.append_nil (stegoLines s)]
  refine ⟨fun len hframe => ?_, fun hnone => ?_⟩
  · exact followsRule_of_regs <| .stegoChecks fun hs => .ofOk (inv.detect_of_framePresent hs hframe) .doneRegs
  · exact followsRule_of_regs <| .stegoChecks fun hs => .ofOk (inv.detect_of_no_frame hs hnone) .doneRegs

/-- Settles O46: with a frame found its body is inside the stream, and with none the rule stops at NoStegoData. -/
theorem stgExtractFollowsItsRule : Obligations.StgExtractFollowsItsRule := by
  intro s inv
  refine ⟨fun len hframe => ?_, fun hnone => ?_⟩
  · have hbits := inv.capBytes_eq
    obtain ⟨hcap, -⟩ := framePresent_iff.mp hframe
    exact followsRule_of_stores <| .stegoChecks fun hs => .ofOk (inv.detect_of_framePresent hs hframe) <| .ofOk rfl <|
      .bufCheck fun _ => .ofOk (inv.stegoRead_eq_streamBytes hs rfl (by omega)) .doneStores
  · have follows : Follows (endOf .stgExtract s) (stegoLines s ++ [(true, .noStegoData, 0, 0)]) ⟨s, []⟩ :=
      .stegoChecks fun hs => .ofOk (inv.detect_of_no_frame hs hnone) <| .orRaise (by simp) nofun
    exact (followsRule_of_follows follows).1

end Sys2Proof.Claims
end

section
/-! PROOFS. The two ways a command ends (spec/60_exceptions.md R262, R263): ERR tells a raised error, which changes STATUS,
ERR_A and ERR_B only, from a completed command. -/

namespace Sys2Proof.Machine

/-- Error information is cut to the greatest word (R261). -/
theorem sat_eq_ofNat_min (v : Nat) : sat v = BitVec.ofNat 32 (min v 0xFFFFFFFF) := by
  by_cases h : v < 2 ^ 32
  · rw [sat, if_pos h, Nat.min_eq_left (by omega)]
  · rw [sat, if_neg h, Nat.min_eq_right (by omega)]
    rfl

/-- A command that ends with ERR = 1 has raised an error. -/
theorem raised_of_err {i : Instr} {s t : State} (h : exec i s = .next t) (herr : t.err = true) :
    ∃ e a b, endOf i s = .error (.raise e a b) ∧ t = raiseError e a b s := by
  rcases exec_eq_next.mp h with ⟨d, -, rfl⟩ | hraise
  · cases herr
  · exact hraise

/-- A command that ends with ERR = 0 has completed. -/
theorem completed_of_not_err {i : Instr} {s t : State} (h : exec i s = .next t) (herr : t.err = false) :
    ∃ d, endOf i s = .ok d ∧ t = completeCommand (commitStores d) := by
  rcases exec_eq_next.mp h with hdone | ⟨e, a, b, -, rfl⟩
  · exact hdone
  · cases herr

end Sys2Proof.Machine

namespace Sys2Proof.Claims

open Sys2Proof.Machine

/-! ### The statements settled -/

/-- Settles O6: ERR = 1 is a raised error, and no rule raises OK. -/
theorem failedCommandChangesOnlyStatus : Obligations.FailedCommandChangesOnlyStatus := by
  refine ⟨fun e a b s => ?_, fun i s t h herr => ?_⟩
  · rw [← sat_eq_ofNat_min, ← sat_eq_ofNat_min]
    rfl
  · obtain ⟨e, a, b, hraise, ht⟩ := raised_of_err h herr
    exact ⟨e, a, b, ne_ok_of_raise hraise, ht⟩

/-- Settles O7: ERR = 0 is a completed command, and no command's own register writes touch STICKY. -/
theorem completedCommandClearsError : Obligations.CompletedCommandClearsError := by
  refine ⟨fun s => rfl, fun i s t h herr => ?_⟩
  obtain ⟨d, hd, rfl⟩ := completed_of_not_err h herr
  exact ⟨rfl, rfl, rfl, (RegisterEffect.of_done hd).sticky, rfl, rfl⟩

end Sys2Proof.Claims
end

section
/-! PROOFS. CRC_STATE from command to command (spec/70_reset_and_hazards.md R304), and the state that a hardware reset leaves
(R290). -/

namespace Sys2Proof.Machine

theorem takeTurn_hardwareReset (s : State) : takeTurn s .hardwareReset = .next (hardReset s) := rfl

theorem step_hardwareReset {s : State} {rest : List Event} (h : s.schedule = .hardwareReset :: rest) :
    step s = .next (hardReset { s with schedule := rest }) :=
  (step_of_scheduled h).trans (takeTurn_hardwareReset _)

/-! ### The state after a hardware reset (R290) -/

theorem hardReset_args_getElem (s : State) (k : Fin 8) : (hardReset s).args[k] = 0 := Vector.getElem_replicate k.isLt

theorem hardReset_res_getElem (s : State) (k : Fin 8) : (hardReset s).res[k] = 0 := Vector.getElem_replicate k.isLt

theorem statusWord_hardReset (s : State) : statusWord (hardReset s) = 0 := by
  simp [statusWord, bit, errorNumber]

theorem imgInfoWord_hardReset (s : State) : imgInfoWord (hardReset s) = 0 := by
  simp [imgInfoWord, bit, imgStateNumber]

theorem hardReset_mem_read (s : State) (a : Nat) : (hardReset s).mem.read a = none := Memory.read_nil a

/-- CTRL and the reserved offsets read 0 (spec/10_state.md R32, R52). -/
theorem hostAccess_read_ctrl_or_reserved (s : State) {off : Nat} (hlt : off < 0x1000) (hmod : off % 4 = 0)
    (h : off = 0x008 ∨ ∀ r, regOffset r ≠ off) :
    hostAccess s (.read (BitVec.ofNat 32 off) 4) = .next (pushRead 0 s) := by
  have ht := targetOf_offset s.params ⟨hlt, hmod⟩
  rcases h with rfl | hres
  · exact hostAccess_read_of_register ht (regAt_regOffset .ctrl)
  · exact hostAccess_read_of_reserved ht (regAt_eq_none hres)

end Sys2Proof.Machine

namespace Sys2Proof.Claims

open Sys2Proof.Machine

/-! ### The statements settled -/

/-- Settles O10: every other command's register writes leave CRC_STATE, and so does a raised error. -/
theorem onlyCrcCommandsChangeCrcState : Obligations.OnlyCrcCommandsChangeCrcState := by
  intro i s t hinit hupdate h
  rcases exec_eq_next.mp h with ⟨d, hd, rfl⟩ | ⟨e, a, b, -, rfl⟩
  · exact (RegisterEffect.of_done hd).crcState hinit hupdate
  · exact raiseError_crcState e a b s

/-- Settles O55: the turn is `hardReset`, which answers `State.resetFor` with the parameters kept. -/
theorem hardwareResetLeavesResetValues : Obligations.HardwareResetLeavesResetValues := by
  intro s rest hs
  refine ⟨_, step_hardwareReset hs, rfl, statusWord_hardReset _, rfl, rfl, rfl,
    fun k => ⟨hardReset_args_getElem _ k, hardReset_res_getElem _ k⟩, rfl, rfl, rfl, rfl, rfl, rfl, rfl, rfl, rfl, rfl,
    kindInfoWord_of_none _ rfl, imgInfoWord_hardReset _, rfl, hardReset_mem_read _, fun off hlt hmod h => ?_⟩
  exact hostAccess_read_ctrl_or_reserved _ hlt hmod h

end Sys2Proof.Claims
end
